-- ==== Sys2Proof/Word.lean ====
section
/-! DEFINITION. The two word types of the machine (00_scope.md R14): bytes of `IN` and `OUT`, and the `u16` of symbol values
and padded codes. Every other quantity is a natural number (R14, R18: unsigned, zero-extension implicit). -/

namespace Sys2Proof

/-- One byte of `IN` or `OUT` (10_state.md R40, R41). -/
abbrev Byte := BitVec 8

/-- The `u16` of symbol values and padded codes (10_state.md R42). -/
abbrev U16 := BitVec 16

end Sys2Proof
end

