-- ==== Sys2Proof/Machine/Bits.lean ====
section
/-! DEFINITION. Bit fields over natural numbers: numeric fields, bit reversal, padding (00_scope.md R15 to R17, 20_memory.md
R71). `v >> k` is `v / 2 ^ k` and `v << k` is `v * 2 ^ k`, as R14 defines them. -/

namespace Sys2Proof.Machine

/-- The numeric field of `n` bits that begins at bit number `p`, first bit least significant (20_memory.md R71). -/
def bitsVal (bit : Nat → Bool) : Nat → Nat → Nat
  | _, 0 => 0
  | p, n + 1 => (bit p).toNat + 2 * bitsVal bit (p + 1) n

/-- `rev_n(v)`: bit `i` of the result is bit `n-1-i` of `v` (00_scope.md R16). -/
def rev : Nat → Nat → Nat
  | 0, _ => 0
  | n + 1, v => (v % 2) * 2 ^ n + rev n (v / 2)

/-- `pad(c, len)`: the code left-justified in a 16-bit field, truncated to it (00_scope.md R17, 41 R165). -/
def pad (c len : Nat) : Nat := (c * 2 ^ (16 - len)) % 2 ^ 16

/-- `unpad(x, len)`: the top `len` bits of a 16-bit value as a number (00_scope.md R17). -/
def unpad (x len : Nat) : Nat := x / 2 ^ (16 - len)

end Sys2Proof.Machine
end

