-- ==== Sys2Proof/Machine/ErrCode.lean ====
section
/-! DEFINITION. The error taxonomy and its numeric codes (60_exceptions.md R310). -/

namespace Sys2Proof.Machine

/-- The eleven errors of 60_exceptions.md R310, in the order of their codes. `invalidMagic` and `trailerMissing` are raised by
the host's container parser only (R311, R319), never by the core. -/
inductive ErrCode where
  | invalidMagic
  | invalidCodeLengthTable
  | corruptHuffmanCode
  | invalidBlockType
  | unsupportedDynamicHuffman
  | invalidLengthCode
  | invalidDistanceCode
  | truncatedStream
  | trailerMissing
  | distanceBeyondOutput
  | outputCapacityExceeded
  deriving DecidableEq, Repr

/-- The code `ERR` holds for an error (60_exceptions.md R310). -/
def errNumber : ErrCode → BitVec 4
  | .invalidMagic => 1
  | .invalidCodeLengthTable => 2
  | .corruptHuffmanCode => 3
  | .invalidBlockType => 4
  | .unsupportedDynamicHuffman => 5
  | .invalidLengthCode => 6
  | .invalidDistanceCode => 7
  | .truncatedStream => 8
  | .trailerMissing => 9
  | .distanceBeyondOutput => 10
  | .outputCapacityExceeded => 11

end Sys2Proof.Machine
end

