-- ==== Sys2Proof/Machine/Rom.lean ====
section
/-! DEFINITION. The read-only tables `ROM` (10_state.md R45 to R48). Their values are the ones the spec's rules list; the spec
itself marks R45, R46 and R48 as taken from RFC 1951 (log entry 15). -/

namespace Sys2Proof.Machine

/-- `ROM.LEN_EXTRA`: entry `i` is `(extra_bit_count, base_value)` of literal/length symbol `257 + i` (10_state.md R45). -/
def romLenExtra : List (Nat × Nat) :=
  [(0, 3), (0, 4), (0, 5), (0, 6), (0, 7), (0, 8), (0, 9), (0, 10), (1, 11), (1, 13), (1, 15), (1, 17), (2, 19), (2, 23),
   (2, 27), (2, 31), (3, 35), (3, 43), (3, 51), (3, 59), (4, 67), (4, 83), (4, 99), (4, 115), (5, 131), (5, 163), (5, 195),
   (5, 227), (0, 258)]

/-- `ROM.DIST_EXTRA`: entry `d` is `(extra_bit_count, base_value)` of distance code `d` (10_state.md R46). -/
def romDistExtra : List (Nat × Nat) :=
  [(0, 1), (0, 2), (0, 3), (0, 4), (1, 5), (1, 7), (2, 9), (2, 13), (3, 17), (3, 25), (4, 33), (4, 49), (5, 65), (5, 97),
   (6, 129), (6, 193), (7, 257), (7, 385), (8, 513), (8, 769), (9, 1025), (9, 1537), (10, 2049), (10, 3073), (11, 4097),
   (11, 6145), (12, 8193), (12, 12289), (13, 16385), (13, 24577)]

/-- `ROM.FIXED_LL_LENGTHS`: the code lengths of the fixed literal/length alphabet (10_state.md R47). -/
def romFixedLengths : List Nat :=
  List.replicate 144 8 ++ List.replicate 112 9 ++ List.replicate 24 7 ++ List.replicate 8 8

/-- `ROM.CL_ORDER`: the order in which the code-length-code lengths arrive (10_state.md R48). -/
def romClOrder : List Nat := [16, 17, 18, 0, 8, 7, 9, 6, 10, 5, 11, 4, 12, 3, 13, 2, 14, 1, 15]

/-- `extra_bit_count` of length symbol `sym` in 257..285. -/
def lenExtraBits (sym : Nat) : Nat := (romLenExtra.getD (sym - 257) (0, 0)).1

/-- A length's extra bits are within the width of a read (00_scope.md R13, 20_memory.md R76). -/
theorem lenExtraBits_bound (sym : Nat) : lenExtraBits sym ≤ 16 := by
  have key : ∀ k < 29, (romLenExtra.getD k (0, 0)).1 ≤ 16 := by decide
  by_cases h : sym - 257 < 29
  · exact key _ h
  · rw [lenExtraBits, List.getD_eq_default _ _ (by simpa [romLenExtra] using h)]; exact Nat.zero_le _

/-- `base_value` of length symbol `sym` in 257..285. -/
def lenBase (sym : Nat) : Nat := (romLenExtra.getD (sym - 257) (0, 0)).2

/-- `extra_bit_count` of distance code `d` in 0..29. -/
def distExtraBits (d : Nat) : Nat := (romDistExtra.getD d (0, 0)).1

/-- A distance's extra bits are within the width of a read (00_scope.md R13, 20_memory.md R76). -/
theorem distExtraBits_bound (d : Nat) : distExtraBits d ≤ 16 := by
  have key : ∀ k < 30, (romDistExtra.getD k (0, 0)).1 ≤ 16 := by decide
  by_cases h : d < 30
  · exact key _ h
  · rw [distExtraBits, List.getD_eq_default _ _ (by simpa [romDistExtra] using h)]; exact Nat.zero_le _

/-- `base_value` of distance code `d` in 0..29. -/
def distBase (d : Nat) : Nat := (romDistExtra.getD d (0, 0)).2

end Sys2Proof.Machine
end

