-- ==== Sys2Proof/Machine/Table.lean ====
section
/-! DEFINITION. Decode tables, the canonical table builder `BUILD` (41_huffman_table_builder.md) and the window half of the
symbol decoder `DECODE` (42_huffman_decoder.md R181 to R185), as functions of a code-length array, a table and a window. -/

namespace Sys2Proof.Machine

/-- One bucket of a decode table: the symbols of one code length in ascending order and the padded start code (10_state.md R42).
`count` is the length of `symbols` (log entry 18). -/
structure Bucket where
  symbols : List U16
  padded  : U16
  deriving DecidableEq, Repr, Inhabited

/-- A decode table: 16 buckets, indexed by code length 0..15, of which 1..15 are used (00_scope.md R13, 10_state.md R42,
90_conflicts.md C3). -/
structure DecodeTable where
  buckets : Vector Bucket 16
  deriving DecidableEq, Repr, Inhabited

/-- The bucket of a code length 0..15. -/
def DecodeTable.bucket (T : DecodeTable) (len : Nat) : Bucket := T.buckets.toList.getD len ⟨[], 0⟩

/-- `symbols[len]` (10_state.md R42). -/
def DecodeTable.symbols (T : DecodeTable) (len : Nat) : List U16 := (T.bucket len).symbols

/-- `count[len]` (10_state.md R42). -/
def DecodeTable.count (T : DecodeTable) (len : Nat) : Nat := (T.symbols len).length

/-- `padded[len]` as a number (10_state.md R42). -/
def DecodeTable.padded (T : DecodeTable) (len : Nat) : Nat := (T.bucket len).padded.toNat

/-- `last`: the largest populated length in 1..15, or 0 (41 R166). -/
def DecodeTable.last (T : DecodeTable) : Nat :=
  (List.range' 1 15).foldl (fun acc len => if 0 < T.count len then len else acc) 0

/-- The table with sixteen empty buckets; what `BUILD` gives for an all-zero array (41 R168). -/
def emptyTable : DecodeTable := ⟨Vector.replicate 16 ⟨[], 0⟩⟩

/-- `MAX_SYM`, the largest `symbol_count` of a `BUILD` (00_scope.md R11). -/
def maxSym : Nat := 288

/-- `CL_W`, the width in bits of one code length of a `BUILD` (00_scope.md R11). -/
def clW : Nat := 8

/-- The operands of `BUILD`: at most `MAX_SYM` code lengths of `CL_W` bits each (41 R160, 00_scope.md R11). -/
def buildInput (lens : List Nat) : Bool := decide (lens.length ≤ maxSym) && lens.all (fun l => decide (l < 2 ^ clW))

/-- The symbols of code length `len`, in ascending symbol order; none for length 0 (41 R162, R163). -/
def bucketSymbols (lens : List Nat) (len : Nat) : List U16 :=
  if len = 0 then [] else (lens.zipIdx.filter (fun p => p.1 == len)).map (fun p => BitVec.ofNat 16 p.2)

/-- `start_code(len)`: the canonical recurrence with `start_code(1) = 0`; length 0 counts nothing (41 R164). -/
def startCode (lens : List Nat) : Nat → Nat
  | 0 => 0
  | 1 => 0
  | len + 2 => (startCode lens (len + 1) + lens.count (len + 1)) * 2

/-- The table of a code-length array: what `BUILD` returns when it does not raise (41 R161). -/
def tableOf (lens : List Nat) : DecodeTable :=
  ⟨⟨⟨(List.range 16).map (fun len => ⟨bucketSymbols lens len, BitVec.ofNat 16 (pad (startCode lens len) len)⟩)⟩, rfl⟩⟩

/-- `BUILD(code_lengths)` (41 R161): every length is checked before anything is built (R167). An array that is no operand of
`BUILD` raises too: DESIGN CHOICE (log entry 24), which no step meets. -/
def build (lens : List Nat) : Except ErrCode DecodeTable :=
  if buildInput lens = false ∨ lens.any (fun l => decide (16 ≤ l)) = true then .error .invalidCodeLengthTable
  else .ok (tableOf lens)

/-- The content of `TBL.FIXLL`: `BUILD(ROM.FIXED_LL_LENGTHS)` (10_state.md R49). -/
def fixedTable : DecodeTable := tableOf romFixedLengths

/-- The length test of one iteration of `DECODE` (42 R183): the last populated length, or a window below the next padded code;
the comparison is false at length 15. -/
def lenSelected (T : DecodeTable) (w len : Nat) : Bool :=
  len == T.last || (decide (len < 15) && decide (w < T.padded (len + 1)))

/-- The length `DECODE` selects: the first in 1..15 that passes the test (42 R183, R185). -/
def selectLen (T : DecodeTable) (w : Nat) : Option Nat := (List.range' 1 15).find? (lenSelected T w)

/-- `DECODE` after its peek: symbol and length of the code at the top of the window `w`, or `CorruptHuffmanCode`
(42 R181, R184). The index is an integer in the spec; a negative one is out of range, which is the first test. -/
def decodeWindow (T : DecodeTable) (w : Nat) : Except ErrCode (Nat × Nat) :=
  match selectLen T w with
  | none => .error .corruptHuffmanCode
  | some len =>
    if unpad (T.padded len) len ≤ unpad w len ∧ unpad w len - unpad (T.padded len) len < T.count len then
      .ok (((T.symbols len).getD (unpad w len - unpad (T.padded len) len) 0).toNat, len)
    else .error .corruptHuffmanCode

end Sys2Proof.Machine
end

