-- ==== Sys2Proof/Config.lean ====
section
/-! DEFINITION. What an implementation fixes (the parameters of 00_scope.md R8 to R12) and the free values of the spec's
unspecified contents. A `Config` stands in `State.cfg`, so that a statement about every state is a statement about every
choice of the parameters (log entry 3). -/

namespace Sys2Proof

/-- The open parameters of the spec (93_implementation_defined.md U12). `HOST_BUS` has no field: the registers are reached by
number, and no rule depends on the bus (10_state.md R50). -/
structure Config where
  /-- `W`, the width of the counters (00_scope.md R8). -/
  counterWidth : Nat
  /-- `IN_MAX`, the capacity of `IN` in bytes (00_scope.md R9). -/
  inMax : Nat
  /-- `OUT_CAP`, the capacity of `OUT` in bytes; `none` is unbounded (00_scope.md R10). -/
  outCap : Option Nat
  /-- `DYN_SUPPORT` (00_scope.md R12). -/
  dynSupport : Bool
  deriving DecidableEq, Repr

/-- The spec's defaults: `W = 64`, `OUT_CAP` unbounded, `DYN_SUPPORT = 0`; `IN_MAX` has no default in the spec and is
`2 ^ 60` here. DESIGN CHOICE (log entry 3); unsafe only for a claim about `Config.default` itself. -/
def Config.default : Config := ⟨64, 2 ^ 60, none, false⟩

/-- The premises on the parameters (00_scope.md R8, 92_eei_decisions.md D2). -/
def Config.wf (c : Config) : Bool :=
  decide (8 * c.inMax < 2 ^ c.counterWidth) && (match c.outCap with | none => true | some n => decide (n < 2 ^ c.counterWidth))

/-- FREE VALUE (log entry 8): the contents of `TBL.CLT` after the n-th error entry (60_exceptions.md R330). -/
opaque Config.freeClt : Nat → Machine.DecodeTable

/-- FREE VALUE (log entry 8): the contents of `TBL.LL` after the n-th error entry (60_exceptions.md R330). -/
opaque Config.freeLl : Nat → Machine.DecodeTable

/-- FREE VALUE (log entry 8): the contents of `TBL.DT` after the n-th error entry (60_exceptions.md R330). -/
opaque Config.freeDt : Nat → Machine.DecodeTable

/-- FREE VALUE (log entry 8): the contents of `OUT` after the n-th error entry, as cells (60_exceptions.md R330). -/
opaque Config.freeOut : Nat → List Host.Cell

/-- FREE VALUE (log entry 8): `DYN_VALID` after the n-th error entry (60_exceptions.md R330). -/
opaque Config.freeDynValid : Nat → Bool

end Sys2Proof
end

