-- ==== Sys2Proof/Syntax.lean ====
section
/-! DEFINITION. The syntax of the stream elements: one constructor per row of spec/opcode_table.json (30_encoding.md R126).

A row whose bits do not say everything its meaning needs carries the rest as operands: the data bits of its own code; the
number of bits its code took (`len`, formats LLSYM, DSYM, CLSYM, whose codes have no fixed pattern); and, for the rows that
occur inside a step (FIXDIST, DSYM, CLSYM), the latches of 10_state.md R39 that the step has filled by then (log entry 1).
Fields that follow a code in the stream (extra bits, LEN, the distance code of a match) are read by the meaning. -/

namespace Sys2Proof

/-- The formats of the opcode table (30_encoding.md R126); BODY is split in its two rows, which `STATE` selects. -/
inductive Format where
  | blkhdr
  | storedBody
  | dynhdrBody
  | fixll
  | fixdist
  | llsym
  | dsym
  | clsym
  deriving DecidableEq, Repr

/-- The latches of a dynamic header in progress: the code lengths decoded so far and the numbers wanted, `nl = HLIT + 257` and
`nd = HDIST + 1` (45_dynamic_block.md R261, R263). -/
structure ClSeq where
  lens : List Nat
  nl   : Nat
  nd   : Nat
  deriving DecidableEq, Repr

/-- The stream elements, one constructor per row of the opcode table. -/
inductive Instr where
  -- Block headers, format BLKHDR (43 R201, R205, R206).
  | hdrStored (bfinal : Bool)
  | hdrFixed (bfinal : Bool)
  | hdrDynamic (bfinal : Bool)
  | hdrReserved (bfinal : Bool)
  -- Bodies selected by STATE alone, format BODY (43 R203, 45 R261).
  | storedBody
  | dynhdr
  -- Symbols of a fixed-Huffman block, format FIXLL: `x` is the data field of a literal code (30 R104, 43 R207 to R210).
  | lit0to15 (x : BitVec 4)
  | lit16to79 (x : BitVec 6)
  | lit80to143 (x : BitVec 6)
  | lit144to159 (x : BitVec 4)
  | lit160to191 (x : BitVec 5)
  | lit192to255 (x : BitVec 6)
  | eobFix
  | len257Fix
  | len258Fix
  | len259Fix
  | len260Fix
  | len261Fix
  | len262Fix
  | len263Fix
  | len264Fix
  | len265Fix
  | len266Fix
  | len267Fix
  | len268Fix
  | len269Fix
  | len270Fix
  | len271Fix
  | len272Fix
  | len273Fix
  | len274Fix
  | len275Fix
  | len276Fix
  | len277Fix
  | len278Fix
  | len279Fix
  | len280Fix
  | len281Fix
  | len282Fix
  | len283Fix
  | len284Fix
  | len285Fix
  | ll286Fix
  | ll287Fix
  -- The raw 5-bit distance code, format FIXDIST: `length` is the match length already read (30 R108, 43 R209, R211).
  | dist0Fix (length : Nat)
  | dist1Fix (length : Nat)
  | dist2Fix (length : Nat)
  | dist3Fix (length : Nat)
  | dist4Fix (length : Nat)
  | dist5Fix (length : Nat)
  | dist6Fix (length : Nat)
  | dist7Fix (length : Nat)
  | dist8Fix (length : Nat)
  | dist9Fix (length : Nat)
  | dist10Fix (length : Nat)
  | dist11Fix (length : Nat)
  | dist12Fix (length : Nat)
  | dist13Fix (length : Nat)
  | dist14Fix (length : Nat)
  | dist15Fix (length : Nat)
  | dist16Fix (length : Nat)
  | dist17Fix (length : Nat)
  | dist18Fix (length : Nat)
  | dist19Fix (length : Nat)
  | dist20Fix (length : Nat)
  | dist21Fix (length : Nat)
  | dist22Fix (length : Nat)
  | dist23Fix (length : Nat)
  | dist24Fix (length : Nat)
  | dist25Fix (length : Nat)
  | dist26Fix (length : Nat)
  | dist27Fix (length : Nat)
  | dist28Fix (length : Nat)
  | dist29Fix (length : Nat)
  | dist30Fix (length : Nat)
  | dist31Fix (length : Nat)
  -- A decoded literal/length symbol, format LLSYM: `len` is the number of bits its code took (30 R112, 45 R265).
  | lit (b : Byte) (len : Nat)
  | eobSym (len : Nat)
  | len257Sym (len : Nat)
  | len258Sym (len : Nat)
  | len259Sym (len : Nat)
  | len260Sym (len : Nat)
  | len261Sym (len : Nat)
  | len262Sym (len : Nat)
  | len263Sym (len : Nat)
  | len264Sym (len : Nat)
  | len265Sym (len : Nat)
  | len266Sym (len : Nat)
  | len267Sym (len : Nat)
  | len268Sym (len : Nat)
  | len269Sym (len : Nat)
  | len270Sym (len : Nat)
  | len271Sym (len : Nat)
  | len272Sym (len : Nat)
  | len273Sym (len : Nat)
  | len274Sym (len : Nat)
  | len275Sym (len : Nat)
  | len276Sym (len : Nat)
  | len277Sym (len : Nat)
  | len278Sym (len : Nat)
  | len279Sym (len : Nat)
  | len280Sym (len : Nat)
  | len281Sym (len : Nat)
  | len282Sym (len : Nat)
  | len283Sym (len : Nat)
  | len284Sym (len : Nat)
  | len285Sym (len : Nat)
  | ll286Sym (len : Nat)
  | ll287Sym (len : Nat)
  -- A decoded distance symbol, format DSYM: `length` as above, `len` the bits of its code (45 R265).
  | dist0Sym (length : Nat) (len : Nat)
  | dist1Sym (length : Nat) (len : Nat)
  | dist2Sym (length : Nat) (len : Nat)
  | dist3Sym (length : Nat) (len : Nat)
  | dist4Sym (length : Nat) (len : Nat)
  | dist5Sym (length : Nat) (len : Nat)
  | dist6Sym (length : Nat) (len : Nat)
  | dist7Sym (length : Nat) (len : Nat)
  | dist8Sym (length : Nat) (len : Nat)
  | dist9Sym (length : Nat) (len : Nat)
  | dist10Sym (length : Nat) (len : Nat)
  | dist11Sym (length : Nat) (len : Nat)
  | dist12Sym (length : Nat) (len : Nat)
  | dist13Sym (length : Nat) (len : Nat)
  | dist14Sym (length : Nat) (len : Nat)
  | dist15Sym (length : Nat) (len : Nat)
  | dist16Sym (length : Nat) (len : Nat)
  | dist17Sym (length : Nat) (len : Nat)
  | dist18Sym (length : Nat) (len : Nat)
  | dist19Sym (length : Nat) (len : Nat)
  | dist20Sym (length : Nat) (len : Nat)
  | dist21Sym (length : Nat) (len : Nat)
  | dist22Sym (length : Nat) (len : Nat)
  | dist23Sym (length : Nat) (len : Nat)
  | dist24Sym (length : Nat) (len : Nat)
  | dist25Sym (length : Nat) (len : Nat)
  | dist26Sym (length : Nat) (len : Nat)
  | dist27Sym (length : Nat) (len : Nat)
  | dist28Sym (length : Nat) (len : Nat)
  | dist29Sym (length : Nat) (len : Nat)
  | dist30Sym (length : Nat) (len : Nat)
  | dist31Sym (length : Nat) (len : Nat)
  -- A decoded code-length symbol, format CLSYM: `len` the bits of its code, `q` the sequence so far (30 R113, 45 R263).
  | clLen (l : BitVec 4) (len : Nat) (q : ClSeq)
  | clRep (len : Nat) (q : ClSeq)
  | clZero3 (len : Nat) (q : ClSeq)
  | clZero11 (len : Nat) (q : ClSeq)
  deriving DecidableEq, Repr

end Sys2Proof
end

