-- ==== Sys2Proof/WellFormed.lean ====
section
/-! DEFINITION. Which operands an element can carry (10_state.md R39: the widths of the latches). -/

namespace Sys2Proof

/-- The bits a Huffman code takes: 1..15 (42_huffman_decoder.md R180). -/
def codeLenOk (len : Nat) : Bool := decide (1 ≤ len) && decide (len ≤ 15)

/-- A match length: 3..258 (30_encoding.md R107). -/
def matchLenOk (length : Nat) : Bool := decide (3 ≤ length) && decide (length ≤ 258)

/-- A sequence of code lengths in progress: `nl` in 257..288, `nd` in 1..32, not yet complete, every length in 0..15
(45_dynamic_block.md R262, R263). -/
def clSeqOk (q : ClSeq) : Bool :=
  decide (257 ≤ q.nl) && decide (q.nl ≤ 288) && decide (1 ≤ q.nd) && decide (q.nd ≤ 32) &&
    decide (q.lens.length < q.nl + q.nd) && q.lens.all (fun l => decide (l < 16))

/-- The operands are values the machine's latches hold. -/
def Instr.wf : Instr → Bool
  | .hdrStored _ | .hdrFixed _ | .hdrDynamic _ | .hdrReserved _ | .storedBody | .dynhdr | .lit0to15 _ | .lit16to79 _
  | .lit80to143 _ | .lit144to159 _ | .lit160to191 _ | .lit192to255 _ | .eobFix | .len257Fix | .len258Fix | .len259Fix
  | .len260Fix | .len261Fix | .len262Fix | .len263Fix | .len264Fix | .len265Fix | .len266Fix | .len267Fix
  | .len268Fix | .len269Fix | .len270Fix | .len271Fix | .len272Fix | .len273Fix | .len274Fix | .len275Fix
  | .len276Fix | .len277Fix | .len278Fix | .len279Fix | .len280Fix | .len281Fix | .len282Fix | .len283Fix
  | .len284Fix | .len285Fix | .ll286Fix | .ll287Fix =>
    true
  | .dist0Fix length | .dist1Fix length | .dist2Fix length | .dist3Fix length | .dist4Fix length | .dist5Fix length
  | .dist6Fix length | .dist7Fix length | .dist8Fix length | .dist9Fix length | .dist10Fix length | .dist11Fix length
  | .dist12Fix length | .dist13Fix length | .dist14Fix length | .dist15Fix length | .dist16Fix length
  | .dist17Fix length | .dist18Fix length | .dist19Fix length | .dist20Fix length | .dist21Fix length
  | .dist22Fix length | .dist23Fix length | .dist24Fix length | .dist25Fix length | .dist26Fix length
  | .dist27Fix length | .dist28Fix length | .dist29Fix length | .dist30Fix length | .dist31Fix length =>
    matchLenOk length
  | .lit _ len | .eobSym len | .len257Sym len | .len258Sym len | .len259Sym len | .len260Sym len | .len261Sym len
  | .len262Sym len | .len263Sym len | .len264Sym len | .len265Sym len | .len266Sym len | .len267Sym len
  | .len268Sym len | .len269Sym len | .len270Sym len | .len271Sym len | .len272Sym len | .len273Sym len
  | .len274Sym len | .len275Sym len | .len276Sym len | .len277Sym len | .len278Sym len | .len279Sym len
  | .len280Sym len | .len281Sym len | .len282Sym len | .len283Sym len | .len284Sym len | .len285Sym len
  | .ll286Sym len | .ll287Sym len =>
    codeLenOk len
  | .dist0Sym length len | .dist1Sym length len | .dist2Sym length len | .dist3Sym length len | .dist4Sym length len
  | .dist5Sym length len | .dist6Sym length len | .dist7Sym length len | .dist8Sym length len | .dist9Sym length len
  | .dist10Sym length len | .dist11Sym length len | .dist12Sym length len | .dist13Sym length len
  | .dist14Sym length len | .dist15Sym length len | .dist16Sym length len | .dist17Sym length len
  | .dist18Sym length len | .dist19Sym length len | .dist20Sym length len | .dist21Sym length len
  | .dist22Sym length len | .dist23Sym length len | .dist24Sym length len | .dist25Sym length len
  | .dist26Sym length len | .dist27Sym length len | .dist28Sym length len | .dist29Sym length len
  | .dist30Sym length len | .dist31Sym length len =>
    matchLenOk length && codeLenOk len
  | .clLen _ len q | .clRep len q | .clZero3 len q | .clZero11 len q =>
    codeLenOk len && clSeqOk q

end Sys2Proof
end

