-- ==== Sys2Proof/Decode.lean ====
section
/-! DEFINITION. Decoding a row of the opcode table from the value its format is matched against (30_encoding.md R126), the
decoder of a word numbered as the table numbers it, and the encoder. Which format a step reads is decided by `STATE`
(43_block_processor.md R200, R216) and stands in Machine/Fetch.lean. -/

namespace Sys2Proof

open Sys2Proof.Machine

/-- Why a value is no row of its format. -/
inductive Reject where
  /-- BLKHDR: a header has three bits (30 R101). -/
  | headerWiderThanThreeBits
  /-- FIXLL, FIXDIST: a window has 16 bits (42 R182). -/
  | windowWiderThanSixteenBits
  /-- FIXLL: no code of the table matches; impossible with the fixed table (42 R187). -/
  | noCode
  /-- LLSYM: a symbol above 287 (30 R126). -/
  | noSuchSymbol
  /-- DSYM: a distance symbol above 31 (30 R126). -/
  | noSuchDistance
  /-- CLSYM: a code-length symbol above 18 (30 R126). -/
  | noSuchCodeLengthSymbol
  deriving DecidableEq, Repr

/-- The latches a row's meaning needs beside its own value: bits consumed, match length, code-length sequence (10_state.md R39). -/
structure Latches where
  len    : Nat
  length : Nat
  q      : ClSeq
  deriving DecidableEq, Repr

/-- The latches when none is in use. -/
def Latches.idle : Latches := ⟨0, 0, ⟨[], 0, 0⟩⟩

/-- The FIXLL rows of symbols 257..287, in symbol order. -/
def lengthFixRows : List Instr :=
  [.len257Fix, .len258Fix, .len259Fix, .len260Fix, .len261Fix, .len262Fix, .len263Fix, .len264Fix, .len265Fix,
   .len266Fix, .len267Fix, .len268Fix, .len269Fix, .len270Fix, .len271Fix, .len272Fix, .len273Fix, .len274Fix,
   .len275Fix, .len276Fix, .len277Fix, .len278Fix, .len279Fix, .len280Fix, .len281Fix, .len282Fix, .len283Fix,
   .len284Fix, .len285Fix, .ll286Fix, .ll287Fix]

/-- The LLSYM rows of symbols 257..287, in symbol order. -/
def lengthSymRows : List (Nat → Instr) :=
  [.len257Sym, .len258Sym, .len259Sym, .len260Sym, .len261Sym, .len262Sym, .len263Sym, .len264Sym, .len265Sym,
   .len266Sym, .len267Sym, .len268Sym, .len269Sym, .len270Sym, .len271Sym, .len272Sym, .len273Sym, .len274Sym,
   .len275Sym, .len276Sym, .len277Sym, .len278Sym, .len279Sym, .len280Sym, .len281Sym, .len282Sym, .len283Sym,
   .len284Sym, .len285Sym, .ll286Sym, .ll287Sym]

/-- The FIXDIST rows of distance codes 0..31. -/
def distFixRows : List (Nat → Instr) :=
  [.dist0Fix, .dist1Fix, .dist2Fix, .dist3Fix, .dist4Fix, .dist5Fix, .dist6Fix, .dist7Fix, .dist8Fix, .dist9Fix,
   .dist10Fix, .dist11Fix, .dist12Fix, .dist13Fix, .dist14Fix, .dist15Fix, .dist16Fix, .dist17Fix, .dist18Fix,
   .dist19Fix, .dist20Fix, .dist21Fix, .dist22Fix, .dist23Fix, .dist24Fix, .dist25Fix, .dist26Fix, .dist27Fix,
   .dist28Fix, .dist29Fix, .dist30Fix, .dist31Fix]

/-- The DSYM rows of distance symbols 0..31. -/
def distSymRows : List (Nat → Nat → Instr) :=
  [.dist0Sym, .dist1Sym, .dist2Sym, .dist3Sym, .dist4Sym, .dist5Sym, .dist6Sym, .dist7Sym, .dist8Sym, .dist9Sym,
   .dist10Sym, .dist11Sym, .dist12Sym, .dist13Sym, .dist14Sym, .dist15Sym, .dist16Sym, .dist17Sym, .dist18Sym,
   .dist19Sym, .dist20Sym, .dist21Sym, .dist22Sym, .dist23Sym, .dist24Sym, .dist25Sym, .dist26Sym, .dist27Sym,
   .dist28Sym, .dist29Sym, .dist30Sym, .dist31Sym]

/-- The block header with BFINAL `f` and BTYPE `t` (30 R101, R111). -/
def headerInstr (f : Bool) (t : Nat) : Option Instr :=
  [Instr.hdrStored f, .hdrFixed f, .hdrDynamic f, .hdrReserved f][t]?

/-- The FIXLL row of a literal/length symbol 0..287 (30 R104): the data field of a literal is the symbol less the row's first. -/
def fixllInstr (sym : Nat) : Option Instr :=
  if sym < 16 then some (.lit0to15 (BitVec.ofNat 4 sym))
  else if sym < 80 then some (.lit16to79 (BitVec.ofNat 6 (sym - 16)))
  else if sym < 144 then some (.lit80to143 (BitVec.ofNat 6 (sym - 80)))
  else if sym < 160 then some (.lit144to159 (BitVec.ofNat 4 (sym - 144)))
  else if sym < 192 then some (.lit160to191 (BitVec.ofNat 5 (sym - 160)))
  else if sym < 256 then some (.lit192to255 (BitVec.ofNat 6 (sym - 192)))
  else if sym = 256 then some .eobFix
  else lengthFixRows[sym - 257]?

/-- The LLSYM row of a literal/length symbol 0..287 whose code took `len` bits (30 R112). -/
def llsymInstr (sym len : Nat) : Option Instr :=
  if sym < 256 then some (.lit (BitVec.ofNat 8 sym) len)
  else if sym = 256 then some (.eobSym len)
  else (lengthSymRows[sym - 257]?).map (fun mk => mk len)

/-- The row of a symbol decoded in a fixed-Huffman block: its FIXLL row when its code took the bits that row has, which a
`TBL.FIXLL` built by the machine always gives (10_state.md R49); the LLSYM row otherwise (log entry 9). -/
def fixedBlockInstr (sym len : Nat) : Option Instr :=
  if len = romFixedLengths.getD sym 0 then fixllInstr sym else llsymInstr sym len

/-- The FIXDIST row of a raw 5-bit distance code inside a match of length `length` (30 R108). -/
def fixdistInstr (dcode length : Nat) : Option Instr := (distFixRows[dcode]?).map (fun mk => mk length)

/-- The DSYM row of a decoded distance symbol (45 R265). -/
def dsymInstr (dcode length len : Nat) : Option Instr := (distSymRows[dcode]?).map (fun mk => mk length len)

/-- The CLSYM row of a decoded code-length symbol (30 R113). -/
def clsymInstr (sym len : Nat) (q : ClSeq) : Option Instr :=
  if sym < 16 then some (.clLen (BitVec.ofNat 4 sym) len q)
  else [Instr.clRep len q, .clZero3 len q, .clZero11 len q][sym - 16]?

/-- An answer, or a rejection by name. -/
def orReject (why : Reject) : Option Instr → Except Reject Instr
  | some i => .ok i
  | none => .error why

/-- The row of format `f` that matches the value `v`, with the latches `x` (30 R126). Total; a value that is no row is rejected
by name. -/
def decode (f : Format) (x : Latches) (v : Nat) : Except Reject Instr :=
  match f with
  | .blkhdr => orReject .headerWiderThanThreeBits (headerInstr (decide (v % 2 = 1)) (v / 2))
  | .storedBody => .ok .storedBody
  | .dynhdrBody => .ok .dynhdr
  | .fixll =>
    if v < 2 ^ 16 then
      match decodeWindow fixedTable v with
      | .ok (sym, len) => orReject .noSuchSymbol (fixedBlockInstr sym len)
      | .error _ => .error .noCode
    else .error .windowWiderThanSixteenBits
  | .fixdist =>
    if v < 2 ^ 16 then orReject .noSuchDistance (fixdistInstr (unpad v 5) x.length) else .error .windowWiderThanSixteenBits
  | .llsym => orReject .noSuchSymbol (llsymInstr v x.len)
  | .dsym => orReject .noSuchDistance (dsymInstr v x.length x.len)
  | .clsym => orReject .noSuchCodeLengthSymbol (clsymInstr v x.len x.q)

/-- The format in which a word of the opcode table is read when nothing but its size and value is known (log entry 12). -/
def tableFormat (nbits w : Nat) : Format :=
  if nbits = 0 then .storedBody
  else if nbits ≤ 8 then (if w < 8 then .blkhdr else .dsym)
  else if nbits ≤ 16 then (if 256 ≤ w ∧ w < 288 then .llsym else .fixll)
  else if w < 32 then .dsym
  else .fixdist

/-- The latches a table word is decoded with: a code of one bit, a match of the least length (log entry 12). -/
def tableLatches : Latches := ⟨1, 3, ⟨[], 0, 0⟩⟩

/-- The instruction the decoder reads from a word numbered as spec/opcode_table.json numbers it. -/
def decodeTableWord (nbits w : Nat) : Option Instr :=
  match decode (tableFormat nbits w) tableLatches w with
  | .ok i => some i
  | .error _ => none

/-- The format of an element's row. -/
def Instr.format : Instr → Format
  | .hdrStored _ | .hdrFixed _ | .hdrDynamic _ | .hdrReserved _ =>
    .blkhdr
  | .lit0to15 _ | .lit16to79 _ | .lit80to143 _ | .lit144to159 _ | .lit160to191 _ | .lit192to255 _ | .eobFix
  | .len257Fix | .len258Fix | .len259Fix | .len260Fix | .len261Fix | .len262Fix | .len263Fix | .len264Fix
  | .len265Fix | .len266Fix | .len267Fix | .len268Fix | .len269Fix | .len270Fix | .len271Fix | .len272Fix
  | .len273Fix | .len274Fix | .len275Fix | .len276Fix | .len277Fix | .len278Fix | .len279Fix | .len280Fix
  | .len281Fix | .len282Fix | .len283Fix | .len284Fix | .len285Fix | .ll286Fix | .ll287Fix =>
    .fixll
  | .dist0Fix _ | .dist1Fix _ | .dist2Fix _ | .dist3Fix _ | .dist4Fix _ | .dist5Fix _ | .dist6Fix _ | .dist7Fix _
  | .dist8Fix _ | .dist9Fix _ | .dist10Fix _ | .dist11Fix _ | .dist12Fix _ | .dist13Fix _ | .dist14Fix _
  | .dist15Fix _ | .dist16Fix _ | .dist17Fix _ | .dist18Fix _ | .dist19Fix _ | .dist20Fix _ | .dist21Fix _
  | .dist22Fix _ | .dist23Fix _ | .dist24Fix _ | .dist25Fix _ | .dist26Fix _ | .dist27Fix _ | .dist28Fix _
  | .dist29Fix _ | .dist30Fix _ | .dist31Fix _ =>
    .fixdist
  | .lit _ _ | .eobSym _ | .len257Sym _ | .len258Sym _ | .len259Sym _ | .len260Sym _ | .len261Sym _ | .len262Sym _
  | .len263Sym _ | .len264Sym _ | .len265Sym _ | .len266Sym _ | .len267Sym _ | .len268Sym _ | .len269Sym _
  | .len270Sym _ | .len271Sym _ | .len272Sym _ | .len273Sym _ | .len274Sym _ | .len275Sym _ | .len276Sym _
  | .len277Sym _ | .len278Sym _ | .len279Sym _ | .len280Sym _ | .len281Sym _ | .len282Sym _ | .len283Sym _
  | .len284Sym _ | .len285Sym _ | .ll286Sym _ | .ll287Sym _ =>
    .llsym
  | .dist0Sym _ _ | .dist1Sym _ _ | .dist2Sym _ _ | .dist3Sym _ _ | .dist4Sym _ _ | .dist5Sym _ _ | .dist6Sym _ _
  | .dist7Sym _ _ | .dist8Sym _ _ | .dist9Sym _ _ | .dist10Sym _ _ | .dist11Sym _ _ | .dist12Sym _ _ | .dist13Sym _ _
  | .dist14Sym _ _ | .dist15Sym _ _ | .dist16Sym _ _ | .dist17Sym _ _ | .dist18Sym _ _ | .dist19Sym _ _
  | .dist20Sym _ _ | .dist21Sym _ _ | .dist22Sym _ _ | .dist23Sym _ _ | .dist24Sym _ _ | .dist25Sym _ _
  | .dist26Sym _ _ | .dist27Sym _ _ | .dist28Sym _ _ | .dist29Sym _ _ | .dist30Sym _ _ | .dist31Sym _ _ =>
    .dsym
  | .clLen _ _ _ | .clRep _ _ | .clZero3 _ _ | .clZero11 _ _ =>
    .clsym
  | .storedBody => .storedBody
  | .dynhdr => .dynhdrBody

/-- The latches an element carries. -/
def Instr.latches : Instr → Latches
  | .hdrStored _ | .hdrFixed _ | .hdrDynamic _ | .hdrReserved _ | .storedBody | .dynhdr | .lit0to15 _ | .lit16to79 _
  | .lit80to143 _ | .lit144to159 _ | .lit160to191 _ | .lit192to255 _ | .eobFix | .len257Fix | .len258Fix | .len259Fix
  | .len260Fix | .len261Fix | .len262Fix | .len263Fix | .len264Fix | .len265Fix | .len266Fix | .len267Fix
  | .len268Fix | .len269Fix | .len270Fix | .len271Fix | .len272Fix | .len273Fix | .len274Fix | .len275Fix
  | .len276Fix | .len277Fix | .len278Fix | .len279Fix | .len280Fix | .len281Fix | .len282Fix | .len283Fix
  | .len284Fix | .len285Fix | .ll286Fix | .ll287Fix =>
    Latches.idle
  | .dist0Fix length | .dist1Fix length | .dist2Fix length | .dist3Fix length | .dist4Fix length | .dist5Fix length
  | .dist6Fix length | .dist7Fix length | .dist8Fix length | .dist9Fix length | .dist10Fix length | .dist11Fix length
  | .dist12Fix length | .dist13Fix length | .dist14Fix length | .dist15Fix length | .dist16Fix length
  | .dist17Fix length | .dist18Fix length | .dist19Fix length | .dist20Fix length | .dist21Fix length
  | .dist22Fix length | .dist23Fix length | .dist24Fix length | .dist25Fix length | .dist26Fix length
  | .dist27Fix length | .dist28Fix length | .dist29Fix length | .dist30Fix length | .dist31Fix length =>
    ⟨0, length, ⟨[], 0, 0⟩⟩
  | .lit _ len | .eobSym len | .len257Sym len | .len258Sym len | .len259Sym len | .len260Sym len | .len261Sym len
  | .len262Sym len | .len263Sym len | .len264Sym len | .len265Sym len | .len266Sym len | .len267Sym len
  | .len268Sym len | .len269Sym len | .len270Sym len | .len271Sym len | .len272Sym len | .len273Sym len
  | .len274Sym len | .len275Sym len | .len276Sym len | .len277Sym len | .len278Sym len | .len279Sym len
  | .len280Sym len | .len281Sym len | .len282Sym len | .len283Sym len | .len284Sym len | .len285Sym len
  | .ll286Sym len | .ll287Sym len =>
    ⟨len, 0, ⟨[], 0, 0⟩⟩
  | .dist0Sym length len | .dist1Sym length len | .dist2Sym length len | .dist3Sym length len | .dist4Sym length len
  | .dist5Sym length len | .dist6Sym length len | .dist7Sym length len | .dist8Sym length len | .dist9Sym length len
  | .dist10Sym length len | .dist11Sym length len | .dist12Sym length len | .dist13Sym length len
  | .dist14Sym length len | .dist15Sym length len | .dist16Sym length len | .dist17Sym length len
  | .dist18Sym length len | .dist19Sym length len | .dist20Sym length len | .dist21Sym length len
  | .dist22Sym length len | .dist23Sym length len | .dist24Sym length len | .dist25Sym length len
  | .dist26Sym length len | .dist27Sym length len | .dist28Sym length len | .dist29Sym length len
  | .dist30Sym length len | .dist31Sym length len =>
    ⟨len, length, ⟨[], 0, 0⟩⟩
  | .clLen _ len q | .clRep len q | .clZero3 len q | .clZero11 len q =>
    ⟨len, 0, q⟩

/-- The encoder: the value of an element in its format, as the opcode table writes it; bits of a window that belong to later
elements are 0; a BODY row has no value and gives 0 (30 R101, R104, R108, R126). -/
def encode : Instr → Nat
  | .hdrStored f => f.toNat
  | .hdrFixed f => f.toNat + 2
  | .hdrDynamic f => f.toNat + 4
  | .hdrReserved f => f.toNat + 6
  | .storedBody => 0
  | .dynhdr => 0
  | .lit0to15 x => 0x3000 + x.toNat * 2 ^ 8
  | .lit16to79 x => 0x4000 + x.toNat * 2 ^ 8
  | .lit80to143 x => 0x8000 + x.toNat * 2 ^ 8
  | .lit144to159 x => 0xc800 + x.toNat * 2 ^ 7
  | .lit160to191 x => 0xd000 + x.toNat * 2 ^ 7
  | .lit192to255 x => 0xe000 + x.toNat * 2 ^ 7
  | .eobFix => 0x0
  | .len257Fix => 0x200
  | .len258Fix => 0x400
  | .len259Fix => 0x600
  | .len260Fix => 0x800
  | .len261Fix => 0xa00
  | .len262Fix => 0xc00
  | .len263Fix => 0xe00
  | .len264Fix => 0x1000
  | .len265Fix => 0x1200
  | .len266Fix => 0x1400
  | .len267Fix => 0x1600
  | .len268Fix => 0x1800
  | .len269Fix => 0x1a00
  | .len270Fix => 0x1c00
  | .len271Fix => 0x1e00
  | .len272Fix => 0x2000
  | .len273Fix => 0x2200
  | .len274Fix => 0x2400
  | .len275Fix => 0x2600
  | .len276Fix => 0x2800
  | .len277Fix => 0x2a00
  | .len278Fix => 0x2c00
  | .len279Fix => 0x2e00
  | .len280Fix => 0xc000
  | .len281Fix => 0xc100
  | .len282Fix => 0xc200
  | .len283Fix => 0xc300
  | .len284Fix => 0xc400
  | .len285Fix => 0xc500
  | .ll286Fix => 0xc600
  | .ll287Fix => 0xc700
  | .dist0Fix _ => 0x0
  | .dist1Fix _ => 0x800
  | .dist2Fix _ => 0x1000
  | .dist3Fix _ => 0x1800
  | .dist4Fix _ => 0x2000
  | .dist5Fix _ => 0x2800
  | .dist6Fix _ => 0x3000
  | .dist7Fix _ => 0x3800
  | .dist8Fix _ => 0x4000
  | .dist9Fix _ => 0x4800
  | .dist10Fix _ => 0x5000
  | .dist11Fix _ => 0x5800
  | .dist12Fix _ => 0x6000
  | .dist13Fix _ => 0x6800
  | .dist14Fix _ => 0x7000
  | .dist15Fix _ => 0x7800
  | .dist16Fix _ => 0x8000
  | .dist17Fix _ => 0x8800
  | .dist18Fix _ => 0x9000
  | .dist19Fix _ => 0x9800
  | .dist20Fix _ => 0xa000
  | .dist21Fix _ => 0xa800
  | .dist22Fix _ => 0xb000
  | .dist23Fix _ => 0xb800
  | .dist24Fix _ => 0xc000
  | .dist25Fix _ => 0xc800
  | .dist26Fix _ => 0xd000
  | .dist27Fix _ => 0xd800
  | .dist28Fix _ => 0xe000
  | .dist29Fix _ => 0xe800
  | .dist30Fix _ => 0xf000
  | .dist31Fix _ => 0xf800
  | .lit b _ => b.toNat
  | .eobSym _ => 256
  | .len257Sym _ => 257
  | .len258Sym _ => 258
  | .len259Sym _ => 259
  | .len260Sym _ => 260
  | .len261Sym _ => 261
  | .len262Sym _ => 262
  | .len263Sym _ => 263
  | .len264Sym _ => 264
  | .len265Sym _ => 265
  | .len266Sym _ => 266
  | .len267Sym _ => 267
  | .len268Sym _ => 268
  | .len269Sym _ => 269
  | .len270Sym _ => 270
  | .len271Sym _ => 271
  | .len272Sym _ => 272
  | .len273Sym _ => 273
  | .len274Sym _ => 274
  | .len275Sym _ => 275
  | .len276Sym _ => 276
  | .len277Sym _ => 277
  | .len278Sym _ => 278
  | .len279Sym _ => 279
  | .len280Sym _ => 280
  | .len281Sym _ => 281
  | .len282Sym _ => 282
  | .len283Sym _ => 283
  | .len284Sym _ => 284
  | .len285Sym _ => 285
  | .ll286Sym _ => 286
  | .ll287Sym _ => 287
  | .dist0Sym _ _ => 0
  | .dist1Sym _ _ => 1
  | .dist2Sym _ _ => 2
  | .dist3Sym _ _ => 3
  | .dist4Sym _ _ => 4
  | .dist5Sym _ _ => 5
  | .dist6Sym _ _ => 6
  | .dist7Sym _ _ => 7
  | .dist8Sym _ _ => 8
  | .dist9Sym _ _ => 9
  | .dist10Sym _ _ => 10
  | .dist11Sym _ _ => 11
  | .dist12Sym _ _ => 12
  | .dist13Sym _ _ => 13
  | .dist14Sym _ _ => 14
  | .dist15Sym _ _ => 15
  | .dist16Sym _ _ => 16
  | .dist17Sym _ _ => 17
  | .dist18Sym _ _ => 18
  | .dist19Sym _ _ => 19
  | .dist20Sym _ _ => 20
  | .dist21Sym _ _ => 21
  | .dist22Sym _ _ => 22
  | .dist23Sym _ _ => 23
  | .dist24Sym _ _ => 24
  | .dist25Sym _ _ => 25
  | .dist26Sym _ _ => 26
  | .dist27Sym _ _ => 27
  | .dist28Sym _ _ => 28
  | .dist29Sym _ _ => 29
  | .dist30Sym _ _ => 30
  | .dist31Sym _ _ => 31
  | .clLen l _ _ => l.toNat
  | .clRep _ _ => 16
  | .clZero3 _ _ => 17
  | .clZero11 _ _ => 18

/-- The (mask, match) pair of an element's row in spec/opcode_table.json; a BODY row has none and `STATE` alone selects it, which
`(0, 0)` says (30 R126). -/
def Instr.row : Instr → Nat × Nat
  | .hdrStored _ => (6, 0)
  | .hdrFixed _ => (6, 2)
  | .hdrDynamic _ => (6, 4)
  | .hdrReserved _ => (6, 6)
  | .storedBody => (0, 0)
  | .dynhdr => (0, 0)
  | .lit0to15 _ => (0xf000, 0x3000)
  | .lit16to79 _ => (0xc000, 0x4000)
  | .lit80to143 _ => (0xc000, 0x8000)
  | .lit144to159 _ => (0xf800, 0xc800)
  | .lit160to191 _ => (0xf000, 0xd000)
  | .lit192to255 _ => (0xe000, 0xe000)
  | .eobFix => (0xfe00, 0x0)
  | .len257Fix => (0xfe00, 0x200)
  | .len258Fix => (0xfe00, 0x400)
  | .len259Fix => (0xfe00, 0x600)
  | .len260Fix => (0xfe00, 0x800)
  | .len261Fix => (0xfe00, 0xa00)
  | .len262Fix => (0xfe00, 0xc00)
  | .len263Fix => (0xfe00, 0xe00)
  | .len264Fix => (0xfe00, 0x1000)
  | .len265Fix => (0xfe00, 0x1200)
  | .len266Fix => (0xfe00, 0x1400)
  | .len267Fix => (0xfe00, 0x1600)
  | .len268Fix => (0xfe00, 0x1800)
  | .len269Fix => (0xfe00, 0x1a00)
  | .len270Fix => (0xfe00, 0x1c00)
  | .len271Fix => (0xfe00, 0x1e00)
  | .len272Fix => (0xfe00, 0x2000)
  | .len273Fix => (0xfe00, 0x2200)
  | .len274Fix => (0xfe00, 0x2400)
  | .len275Fix => (0xfe00, 0x2600)
  | .len276Fix => (0xfe00, 0x2800)
  | .len277Fix => (0xfe00, 0x2a00)
  | .len278Fix => (0xfe00, 0x2c00)
  | .len279Fix => (0xfe00, 0x2e00)
  | .len280Fix => (0xff00, 0xc000)
  | .len281Fix => (0xff00, 0xc100)
  | .len282Fix => (0xff00, 0xc200)
  | .len283Fix => (0xff00, 0xc300)
  | .len284Fix => (0xff00, 0xc400)
  | .len285Fix => (0xff00, 0xc500)
  | .ll286Fix => (0xff00, 0xc600)
  | .ll287Fix => (0xff00, 0xc700)
  | .dist0Fix _ => (0xf800, 0x0)
  | .dist1Fix _ => (0xf800, 0x800)
  | .dist2Fix _ => (0xf800, 0x1000)
  | .dist3Fix _ => (0xf800, 0x1800)
  | .dist4Fix _ => (0xf800, 0x2000)
  | .dist5Fix _ => (0xf800, 0x2800)
  | .dist6Fix _ => (0xf800, 0x3000)
  | .dist7Fix _ => (0xf800, 0x3800)
  | .dist8Fix _ => (0xf800, 0x4000)
  | .dist9Fix _ => (0xf800, 0x4800)
  | .dist10Fix _ => (0xf800, 0x5000)
  | .dist11Fix _ => (0xf800, 0x5800)
  | .dist12Fix _ => (0xf800, 0x6000)
  | .dist13Fix _ => (0xf800, 0x6800)
  | .dist14Fix _ => (0xf800, 0x7000)
  | .dist15Fix _ => (0xf800, 0x7800)
  | .dist16Fix _ => (0xf800, 0x8000)
  | .dist17Fix _ => (0xf800, 0x8800)
  | .dist18Fix _ => (0xf800, 0x9000)
  | .dist19Fix _ => (0xf800, 0x9800)
  | .dist20Fix _ => (0xf800, 0xa000)
  | .dist21Fix _ => (0xf800, 0xa800)
  | .dist22Fix _ => (0xf800, 0xb000)
  | .dist23Fix _ => (0xf800, 0xb800)
  | .dist24Fix _ => (0xf800, 0xc000)
  | .dist25Fix _ => (0xf800, 0xc800)
  | .dist26Fix _ => (0xf800, 0xd000)
  | .dist27Fix _ => (0xf800, 0xd800)
  | .dist28Fix _ => (0xf800, 0xe000)
  | .dist29Fix _ => (0xf800, 0xe800)
  | .dist30Fix _ => (0xf800, 0xf000)
  | .dist31Fix _ => (0xf800, 0xf800)
  | .lit _ _ => (256, 0)
  | .eobSym _ => (511, 256)
  | .len257Sym _ => (511, 257)
  | .len258Sym _ => (511, 258)
  | .len259Sym _ => (511, 259)
  | .len260Sym _ => (511, 260)
  | .len261Sym _ => (511, 261)
  | .len262Sym _ => (511, 262)
  | .len263Sym _ => (511, 263)
  | .len264Sym _ => (511, 264)
  | .len265Sym _ => (511, 265)
  | .len266Sym _ => (511, 266)
  | .len267Sym _ => (511, 267)
  | .len268Sym _ => (511, 268)
  | .len269Sym _ => (511, 269)
  | .len270Sym _ => (511, 270)
  | .len271Sym _ => (511, 271)
  | .len272Sym _ => (511, 272)
  | .len273Sym _ => (511, 273)
  | .len274Sym _ => (511, 274)
  | .len275Sym _ => (511, 275)
  | .len276Sym _ => (511, 276)
  | .len277Sym _ => (511, 277)
  | .len278Sym _ => (511, 278)
  | .len279Sym _ => (511, 279)
  | .len280Sym _ => (511, 280)
  | .len281Sym _ => (511, 281)
  | .len282Sym _ => (511, 282)
  | .len283Sym _ => (511, 283)
  | .len284Sym _ => (511, 284)
  | .len285Sym _ => (511, 285)
  | .ll286Sym _ => (511, 286)
  | .ll287Sym _ => (511, 287)
  | .dist0Sym _ _ => (31, 0)
  | .dist1Sym _ _ => (31, 1)
  | .dist2Sym _ _ => (31, 2)
  | .dist3Sym _ _ => (31, 3)
  | .dist4Sym _ _ => (31, 4)
  | .dist5Sym _ _ => (31, 5)
  | .dist6Sym _ _ => (31, 6)
  | .dist7Sym _ _ => (31, 7)
  | .dist8Sym _ _ => (31, 8)
  | .dist9Sym _ _ => (31, 9)
  | .dist10Sym _ _ => (31, 10)
  | .dist11Sym _ _ => (31, 11)
  | .dist12Sym _ _ => (31, 12)
  | .dist13Sym _ _ => (31, 13)
  | .dist14Sym _ _ => (31, 14)
  | .dist15Sym _ _ => (31, 15)
  | .dist16Sym _ _ => (31, 16)
  | .dist17Sym _ _ => (31, 17)
  | .dist18Sym _ _ => (31, 18)
  | .dist19Sym _ _ => (31, 19)
  | .dist20Sym _ _ => (31, 20)
  | .dist21Sym _ _ => (31, 21)
  | .dist22Sym _ _ => (31, 22)
  | .dist23Sym _ _ => (31, 23)
  | .dist24Sym _ _ => (31, 24)
  | .dist25Sym _ _ => (31, 25)
  | .dist26Sym _ _ => (31, 26)
  | .dist27Sym _ _ => (31, 27)
  | .dist28Sym _ _ => (31, 28)
  | .dist29Sym _ _ => (31, 29)
  | .dist30Sym _ _ => (31, 30)
  | .dist31Sym _ _ => (31, 31)
  | .clLen _ _ _ => (16, 0)
  | .clRep _ _ => (31, 16)
  | .clZero3 _ _ => (31, 17)
  | .clZero11 _ _ => (31, 18)

end Sys2Proof
end

