-- ==== Sys2Proof/Machine/State.lean ====
section
/-! DEFINITION. The machine's state (10_state.md R30), its state after reset (R57, 70_reset_and_hazards.md R350), and the
reasons an outcome can stop. -/

namespace Sys2Proof.Machine

/-- `STATE`, the block processor's state (10_state.md R31); the eighth encoding is never produced. -/
inductive Mode where
  | idle
  | readBlockHeader
  | stored
  | fixedHuffman
  | dynamicHuffman
  | done
  | error
  deriving DecidableEq, Repr

/-- A byte memory: (address, byte) pairs in the canonical form of `Memory.wf` (Machine/Ops.lean). -/
abbrev Memory := List Host.Cell

/-- The complete machine state of 10_state.md R30, with the parameters of 00_scope.md R8 to R12 (`cfg`, which no step writes) and
the model's own counter of free values (`freeCount`, log entry 8). -/
structure State where
  /-- `STATE` (R31). -/
  mode : Mode
  /-- `ERR` (R34): `none` is code 0. -/
  err : Option ErrCode
  /-- `BFINAL` (R33). -/
  bfinal : Bool
  /-- `BITPOS`, the program counter (R32). -/
  bitpos : Nat
  /-- `START_BITPOS` (R37). -/
  startBitpos : Nat
  /-- `IN_SIZE` (R36). -/
  inSize : Nat
  /-- `OUT_LEN` (R35). -/
  outLen : Nat
  /-- `FIXED_VALID` (R38). -/
  fixedValid : Bool
  /-- `DYN_VALID` (R38). -/
  dynValid : Bool
  /-- `IN` (R40). -/
  inMem : Memory
  /-- `OUT` (R41); the bytes at or above `OUT_LEN` have no defined value (log entry 6). -/
  outMem : Memory
  /-- `TBL.FIXLL` (R44, R49). -/
  tblFixll : DecodeTable
  /-- `TBL.CLT` (R44). -/
  tblClt : DecodeTable
  /-- `TBL.LL` (R44). -/
  tblLl : DecodeTable
  /-- `TBL.DT` (R44). -/
  tblDt : DecodeTable
  /-- The parameters (R56). -/
  cfg : Config
  /-- The model's own: how many times free values have been drawn (log entry 8). -/
  freeCount : Nat
  deriving DecidableEq, Repr

/-- Why a host move meets an address or a value the spec says does not exist. No step of the core faults (00_scope.md R19). -/
inductive Fault where
  /-- Raised by `hostReadOut` at an address not below `OUT_CAP` (10_state.md R41). Safe: the move has no answer to be wrong. -/
  | outAddressOutOfRange
  /-- Raised by `hostWriteIn` at an address not below `IN_MAX` (10_state.md R40). Safe: the move has no effect to be wrong. -/
  | inAddressOutOfRange
  /-- Raised by `hostWriteReg` for a value that breaks a premise of 70_reset_and_hazards.md R361. Safe: no state results. -/
  | premiseBroken
  deriving DecidableEq, Repr

/-- Why a move has no meaning. No step of the core is refused (00_scope.md R19). -/
inductive Refusal where
  /-- Raised by an arm of `exec` for an instruction without a meaning; no arm of this model does. Safe. -/
  | notModelled (mnemonic : String)
  /-- Raised by a host write of `IN`, `IN_SIZE` or `START_BITPOS` while the core is running, which the spec gives no outcome
  (93_implementation_defined.md U4). Safe: the model gives the host no such move. -/
  | hostWriteWhileRunning
  /-- Raised by a host write of a read-only register (10_state.md R50), which is none of the host's moves (70 R360). Safe. -/
  | hostWriteOfReadOnly
  /-- Raised by a host read of `OUT` while the core is running (93_implementation_defined.md U4), which the host should not do
  (70 R360). Safe. -/
  | hostReadOutWhileRunning
  deriving DecidableEq, Repr

/-- The state after reset, for any parameters and any contents of the three memories `IN`, `OUT`, `TBL`
(70_reset_and_hazards.md R351): every register at its value of 10_state.md R57. -/
def State.afterReset (cfg : Config) (inMem outMem : Memory) (fixll clt ll dt : DecodeTable) (freeCount : Nat) : State where
  mode := .idle
  err := none
  bfinal := false
  bitpos := 0
  startBitpos := 0
  inSize := 0
  outLen := 0
  fixedValid := false
  dynValid := false
  inMem := inMem
  outMem := outMem
  tblFixll := fixll
  tblClt := clt
  tblLl := ll
  tblDt := dt
  cfg := cfg
  freeCount := freeCount

/-- The machine right after reset: `State.afterReset` at the spec's default parameters, with nothing listed in memory and empty
tables. The memory contents are DESIGN CHOICE (log entries 5, 6, 7): the spec leaves them unspecified. -/
def State.reset : State := State.afterReset Config.default [] [] emptyTable emptyTable emptyTable emptyTable 0

end Sys2Proof.Machine
end

