-- ==== Sys2Proof/Machine/Ops.lean ====
section
/-! DEFINITION. The named operations over memory and registers: the two byte memories, the bit cursor
(40_bit_cursor.md), the symbol decoder's peek (42_huffman_decoder.md), the LZ77 reconstructor (44_lz77_reconstructor.md), and
error entry (60_exceptions.md R330). An operation that can raise answers `Except ErrCode`; what `raise` undoes is undone by
`finish`, which enters the error state from the state before the step. -/

namespace Sys2Proof.Machine

/-! ### Byte memories -/

/-- What a byte that no entry lists reads as. DESIGN CHOICE (log entry 5). -/
def memDefault : Byte := 0

/-- The byte at an address. -/
def memRead : Memory → Nat → Byte
  | [], _ => memDefault
  | (k, b) :: m, a => if k = a then b else memRead m a

/-- Writing one byte; writing what an unlisted byte reads as removes the entry. -/
def memWrite : Memory → Nat → Byte → Memory
  | [], a, v => if v = memDefault then [] else [(a, v)]
  | (k, b) :: m, a, v =>
    if k < a then (k, b) :: memWrite m a v
    else
      let rest := if k = a then m else (k, b) :: m
      if v = memDefault then rest else (a, v) :: rest

/-- The canonical form: addresses at or above `lo` and strictly rising, no entry equal to what an unlisted byte reads as. -/
def memWfFrom : Nat → Memory → Bool
  | _, [] => true
  | lo, (k, b) :: m => decide (lo ≤ k) && decide (b ≠ memDefault) && memWfFrom (k + 1) m

/-- The canonical form of a memory. -/
def Memory.wf (m : Memory) : Bool := memWfFrom 0 m

/-- Every listed address is below `n`. -/
def memBelow (n : Nat) (m : Memory) : Bool := m.all (fun c => decide (c.1 < n))

/-- Writing a list of bytes at consecutive addresses. -/
def memWriteList : Memory → Nat → List Byte → Memory
  | m, _, [] => m
  | m, a, b :: bs => memWriteList (memWrite m a b) (a + 1) bs

/-- The canonical memory of a list of cells, an earlier cell over a later one. -/
def memOf (cells : List Host.Cell) : Memory := cells.foldr (fun c m => memWrite m c.1 c.2) []

/-- `n` bytes from address `a` on. -/
def memReadList (m : Memory) : Nat → Nat → List Byte
  | _, 0 => []
  | a, n + 1 => memRead m a :: memReadList m (a + 1) n

/-! ### Register updates -/

/-- `BITPOS <- v`. -/
def setBitpos (v : Nat) (s : State) : State := { s with bitpos := v }

/-- `STATE <- m`. -/
def setMode (m : Mode) (s : State) : State := { s with mode := m }

/-- `BFINAL <- f`. -/
def setBfinal (f : Bool) (s : State) : State := { s with bfinal := f }

/-- `DYN_VALID <- v`. -/
def setDynValid (v : Bool) (s : State) : State := { s with dynValid := v }

/-- `TBL.FIXLL <- T; FIXED_VALID <- 1` (43 R201). -/
def setFixll (T : DecodeTable) (s : State) : State := { s with tblFixll := T, fixedValid := true }

/-- `TBL.CLT <- T` (45 R261). -/
def setClt (T : DecodeTable) (s : State) : State := { s with tblClt := T }

/-- `TBL.LL <- L; TBL.DT <- D` (45 R264). -/
def setDynTables (L D : DecodeTable) (s : State) : State := { s with tblLl := L, tblDt := D }

/-! ### The bit cursor (40_bit_cursor.md) -/

/-- `InRead(a)`: the byte `IN[a]` (00_scope.md R18). -/
def inRead (s : State) (a : Nat) : Byte := memRead s.inMem a

/-- `sbit(k)`: bit `k mod 8` of byte `IN[k div 8]` (00_scope.md R15, 20_memory.md R70). -/
def sbit (s : State) (k : Nat) : Bool := (inRead s (k / 8)).getLsbD (k % 8)

/-- `peek_bits(n)`, `n` in 0..16 (40 R140, R144, 93 U9): the bounds check comes before any data (R143). -/
def peekBits (n : Nat) (s : State) (_width : n ≤ 16 := by decide) : Except ErrCode Nat :=
  if s.bitpos + n ≤ 8 * s.inSize then .ok (bitsVal (sbit s) s.bitpos n) else .error .truncatedStream

/-- `read_bits(n)`, `n` in 0..16: the value and the state with the cursor advanced (40 R141, R144). -/
def readBits (n : Nat) (s : State) (width : n ≤ 16 := by decide) : Except ErrCode (Nat × State) := do
  let v ← peekBits n s width
  return (v, setBitpos (s.bitpos + n) s)

/-- Moving the cursor past the `n` bits of a code already seen; checked like every advance (10_state.md R32, log entry 10). -/
def consume (n : Nat) (s : State) : Except ErrCode State :=
  if s.bitpos + n ≤ 8 * s.inSize then .ok (setBitpos (s.bitpos + n) s) else .error .truncatedStream

/-- `align_to_byte()`: up to the next multiple of 8, an aligned cursor unmoved (40 R142). -/
def alignToByte (s : State) : State := setBitpos (8 * ((s.bitpos + 7) / 8)) s

/-- The window `rev_16(peek_bits(16))` (42 R182). -/
def window (s : State) : Except ErrCode Nat := do
  let v ← peekBits 16 s
  return rev 16 v

/-- `DECODE(T)` at the cursor: the symbol and the bits consumed; the cursor does not move (42 R180, R181). -/
def decodeSym (T : DecodeTable) (s : State) : Except ErrCode (Nat × Nat) := do
  let w ← window s
  decodeWindow T w

/-! ### The LZ77 reconstructor (44_lz77_reconstructor.md) -/

/-- Appending `n` bytes would pass `OUT_CAP` (44 R241). -/
def exceedsCap (s : State) (n : Nat) : Bool :=
  match s.cfg.outCap with
  | none => false
  | some cap => decide (cap < s.outLen + n)

/-- `OUT` has a byte at address `a` (10_state.md R41: `OUT_CAP` bytes). -/
def outHas (c : Config) (a : Nat) : Bool :=
  match c.outCap with
  | none => true
  | some cap => decide (a < cap)

/-- A memory lists only bytes `OUT` has. -/
def outWithin (c : Config) (m : Memory) : Bool := m.all (fun cell => outHas c cell.1)

/-- `OutRead(a)` (00_scope.md R18). -/
def outRead (s : State) (a : Nat) : Byte := memRead s.outMem a

/-- `OUT[OUT_LEN] <- b; OUT_LEN <- OUT_LEN + 1`, after the capacity check (00_scope.md R18). -/
def appendByte (b : Byte) (s : State) : State :=
  { s with outMem := memWrite s.outMem s.outLen b, outLen := s.outLen + 1 }

/-- `EMIT(b)` (44 R242). -/
def emit (b : Byte) (s : State) : Except ErrCode State :=
  if exceedsCap s 1 then .error .outputCapacityExceeded else .ok (appendByte b s)

/-- The loop of `COPY`: byte by byte, each read seeing every earlier write (44 R243, R244). -/
def copyLoop (distance : Nat) : Nat → State → State
  | 0, s => s
  | n + 1, s => copyLoop distance n (appendByte (outRead s (s.outLen - distance)) s)

/-- `COPY(length, distance)` (44 R243): the distance is checked first (R245), then the capacity (R241). -/
def copy (length distance : Nat) (s : State) : Except ErrCode State :=
  if s.outLen < distance then .error .distanceBeyondOutput
  else if exceedsCap s length then .error .outputCapacityExceeded
  else .ok (copyLoop distance length s)

/-- The loop of the stored copy: `n` bytes of `IN` from address `a` on (43 R203, 44 R247). -/
def storedLoop : Nat → Nat → State → State
  | _, 0, s => s
  | a, n + 1, s => storedLoop (a + 1) n (appendByte (inRead s a) s)

/-! ### Error entry (60_exceptions.md R330) -/

/-- The contents of `OUT` after error entry: a free value, over the bytes `OUT` has (log entry 8). -/
def freeOutMem (s : State) : Memory := memOf ((Config.freeOut s.freeCount).filter (fun c => outHas s.cfg c.1))

/-- Error entry: the state before the step with `STATE`, `ERR`, `OUT_LEN` changed. The contents of `OUT`, the dynamic tables and
`DYN_VALID` are free values (log entry 8); everything else keeps its value (R330). There is no return from the error state but
`START` and reset (R333; Machine/HostPort.lean). -/
def raise (s : State) (e : ErrCode) : State :=
  { s with
    mode := .error
    err := some e
    outLen := 0
    outMem := freeOutMem s
    tblClt := Config.freeClt s.freeCount
    tblLl := Config.freeLl s.freeCount
    tblDt := Config.freeDt s.freeCount
    dynValid := Config.freeDynValid s.freeCount
    freeCount := s.freeCount + 1 }

/-- The outcome of a step that began in `s`: its next state, or error entry from `s` (00_scope.md R18, R19). -/
def finish (s : State) : Except ErrCode State → Host.Outcome State Fault Refusal
  | .ok t => .next t
  | .error e => .next (raise s e)

end Sys2Proof.Machine
end

