-- ==== Sys2Proof/Machine/Flags.lean ====
section
/-! DEFINITION. The status flags (10_state.md R54): `STATE`, `BFINAL`, `ERR`, `DYN_VALID`, and the `STATUS` register composed of
the first three (R52). The machine has no arithmetic condition codes. -/

namespace Sys2Proof.Machine

/-- The encoding of `STATE` (10_state.md R31). -/
def modeNumber : Mode → BitVec 3
  | .idle => 0
  | .readBlockHeader => 1
  | .stored => 2
  | .fixedHuffman => 3
  | .dynamicHuffman => 4
  | .done => 5
  | .error => 6

/-- The machine is running: `STATE` is 1, 2, 3 or 4 (10_state.md R31). -/
def Mode.running : Mode → Bool
  | .readBlockHeader | .stored | .fixedHuffman | .dynamicHuffman => true
  | .idle | .done | .error => false

/-- The code `ERR` shows: 0 when there is no error (10_state.md R34). -/
def errValue : Option ErrCode → BitVec 4
  | none => 0
  | some e => errNumber e

/-- `STATUS`: `ERR` in bits 7..4, `BFINAL` in bit 3, `STATE` in bits 2..0 (10_state.md R52). -/
def status (s : State) : BitVec 8 := errValue s.err ++ BitVec.ofBool s.bfinal ++ modeNumber s.mode

/-- The block-end transition (43 R212). -/
def blockEnd (s : State) : State := setMode (if s.bfinal then .done else .readBlockHeader) s

/-- What the header step does once BFINAL is read: the cursor moves past the three bits and BFINAL is latched (43 R201). -/
def headerRead (f : Bool) (s : State) : Except ErrCode State := do
  let s1 ← consume 3 s
  return setBfinal f s1

/-- Entering a fixed-Huffman block: the fixed table is built if it is not yet valid (43 R201, R217). -/
def enterFixed (s : State) : Except ErrCode State :=
  if s.fixedValid then .ok (setMode .fixedHuffman s)
  else do
    let T ← build romFixedLengths
    return setMode .fixedHuffman (setFixll T s)

/-- Entering a dynamic-Huffman block (43 R205). -/
def enterDynamic (s : State) : Except ErrCode State :=
  if s.cfg.dynSupport then .ok (setMode .dynamicHuffman (setDynValid false s)) else .error .unsupportedDynamicHuffman

end Sys2Proof.Machine
end

