-- ==== Sys2Proof/Machine/Operands.lean ====
section
/-! DEFINITION. The operands an element has in the stream after its code: length and distance with their extra bits
(30_encoding.md R105 to R109), the distance code of a match (raw or through `TBL.DT`, 43 R216), and the coded code lengths of a
dynamic header (45_dynamic_block.md R261 to R264). -/

namespace Sys2Proof.Machine

/-! ### Matches -/

/-- `length = base_value + read_bits(extra_bit_count)` of length symbol `sym` (30 R107). -/
def readLength (sym : Nat) (s : State) : Except ErrCode (Nat × State) := do
  let (x, s1) ← readBits (lenExtraBits sym) s (lenExtraBits_bound sym)
  return (lenBase sym + x, s1)

/-- `dcode = rev_5(read_bits(5))` (30 R108). -/
def readFixedDist (s : State) : Except ErrCode (Nat × State) := do
  let (v, s1) ← readBits 5 s
  return (rev 5 v, s1)

/-- `(dcode, dl) <- DECODE(TBL.DT); BITPOS <- BITPOS + dl` (45 R265). -/
def readTableDist (s : State) : Except ErrCode (Nat × State) := do
  let (dcode, len) ← decodeSym s.tblDt s
  let s1 ← consume len s
  return (dcode, s1)

/-- Where the distance code comes from is decided by `STATE` (43 R216). -/
def readDist (s : State) : Except ErrCode (Nat × State) :=
  if s.mode = .fixedHuffman then readFixedDist s else readTableDist s

/-- A match once its length and distance code are known: the code is checked before any extra bit is read (43 R211), then
`distance = base_value + read_bits(extra_bit_count)` (30 R109) and `COPY` (43 R209). -/
def matchTail (length dcode : Nat) (s : State) : Except ErrCode State :=
  if 30 ≤ dcode then .error .invalidDistanceCode
  else do
    let (x, s1) ← readBits (distExtraBits dcode) s (distExtraBits_bound dcode)
    copy length (distBase dcode + x) s1

/-- A match of the fixed code: length symbol `sym` whose code takes `len` bits (43 R204, R209). -/
def matchFixed (sym len : Nat) (s : State) : Except ErrCode State := do
  let s1 ← consume len s
  let (length, s2) ← readLength sym s1
  let (dcode, s3) ← readFixedDist s2
  matchTail length dcode s3

/-- A match whose length symbol was classified after decoding (45 R265; 43 R204 in a fixed block). -/
def matchSym (sym len : Nat) (s : State) : Except ErrCode State := do
  let s1 ← consume len s
  let (length, s2) ← readLength sym s1
  let (dcode, s3) ← readDist s2
  matchTail length dcode s3

/-- The distance part of a match of length `length`: distance code `dcode`, whose code takes `len` bits (43 R209, R211). -/
def distPart (dcode len length : Nat) (s : State) : Except ErrCode State := do
  let s1 ← consume len s
  matchTail length dcode s1

/-- A literal whose code takes `len` bits (43 R207). -/
def literal (b : Byte) (len : Nat) (s : State) : Except ErrCode State := do
  let s1 ← consume len s
  emit b s1

/-- An end-of-block symbol whose code takes `len` bits (43 R208, R212). -/
def endOfBlock (len : Nat) (s : State) : Except ErrCode State := do
  let s1 ← consume len s
  return blockEnd s1

/-- A literal/length symbol of 286 or more whose code takes `len` bits: raised once the code is consumed, before anything else is
read (43 R210). -/
def badLength (len : Nat) (s : State) : Except ErrCode State := do
  let _ ← consume len s
  .error .invalidLengthCode

/-! ### The coded code lengths of a dynamic header -/

/-- A run of `r` times `v` after `lens`; a run past `tot` lengths raises (45 R261, R263). -/
def appendRun (tot r v : Nat) (lens : List Nat) : Except ErrCode (List Nat) :=
  if tot < lens.length + r then .error .invalidCodeLengthTable else .ok (lens ++ List.replicate r v)

/-- Code-length symbol 16: the last length `3 + read_bits(2)` times more; an error when there is none (45 R263). -/
def clRepeat (tot : Nat) (lens : List Nat) (s : State) : Except ErrCode (List Nat × State) :=
  match lens.getLast? with
  | none => .error .invalidCodeLengthTable
  | some v => do
    let (x, s1) ← readBits 2 s
    let lens1 ← appendRun tot (3 + x) v lens
    return (lens1, s1)

/-- Code-length symbols 17 and 18: `base + read_bits(n)` zeros; the extra bits are read before the overflow check (45 R263). -/
def clZeros (base n tot : Nat) (lens : List Nat) (s : State) (width : n ≤ 16 := by decide) :
    Except ErrCode (List Nat × State) := do
  let (x, s1) ← readBits n s width
  let lens1 ← appendRun tot (base + x) 0 lens
  return (lens1, s1)

/-- One code-length symbol, its code already consumed (45 R261). -/
def clSymbol (sym tot : Nat) (lens : List Nat) (s : State) : Except ErrCode (List Nat × State) :=
  if sym < 16 then .ok (lens ++ [sym], s)
  else if sym = 16 then clRepeat tot lens s
  else if sym = 17 then clZeros 3 3 tot lens s
  else clZeros 11 7 tot lens s

/-- The loop `while |lens| < tot`. Every turn appends at least one length, so `tot` turns are enough (log entry 22). -/
def clLoop (tot : Nat) : Nat → List Nat → State → Except ErrCode (List Nat × State)
  | 0, lens, s => .ok (lens, s)
  | k + 1, lens, s =>
    if lens.length < tot then do
      let (sym, len) ← decodeSym s.tblClt s
      let s1 ← consume len s
      let (lens1, s2) ← clSymbol sym tot lens s1
      clLoop tot k lens1 s2
    else .ok (lens, s)

/-- The end of a dynamic header: the two tables are built and `DYN_VALID` is set (45 R261, R264). -/
def buildDynamic (nl nd : Nat) (lens : List Nat) (s : State) : Except ErrCode State := do
  let L ← build (lens.take nl)
  let D ← build ((lens.drop nl).take nd)
  return setDynValid true (setDynTables L D s)

/-- From a sequence in progress to the end of the dynamic header (45 R261). -/
def finishLengths (nl nd : Nat) (lens : List Nat) (s : State) : Except ErrCode State := do
  let (lens1, s1) ← clLoop (nl + nd) (nl + nd) lens s
  buildDynamic nl nd lens1 s1

/-- The 3-bit code-length-code lengths of the symbols in `order`, assigned in that order over `cl` (45 R262). -/
def readClLengths : List Nat → List Nat → State → Except ErrCode (List Nat × State)
  | [], cl, s => .ok (cl, s)
  | sym :: order, cl, s => do
    let (v, s1) ← readBits 3 s
    readClLengths order (cl.set sym v) s1

/-- The fixed fields of a dynamic header: `HLIT`, `HDIST`, `HCLEN` as the numbers `nl`, `nd`, and the 19 code-length-code lengths
(30 R117, 45 R262). -/
def readDynFields (s : State) : Except ErrCode (Nat × Nat × List Nat × State) := do
  let (hlit, s1) ← readBits 5 s
  let (hdist, s2) ← readBits 5 s1
  let (hclen, s3) ← readBits 4 s2
  let (cl, s4) ← readClLengths (romClOrder.take (hclen + 4)) (List.replicate 19 0) s3
  return (hlit + 257, hdist + 1, cl, s4)

end Sys2Proof.Machine
end

