-- ==== Sys2Proof/Machine/DynHeader.lean ====
section
/-! DEFINITION. The dynamic header (45_dynamic_block.md R261) and the code-length symbols inside it, one meaning per CLSYM row (R263): from the state
whose cursor stands at the symbol's code, with the sequence so far in the latch, to the end of the header (log entry 1). -/

namespace Sys2Proof.Machine

/-- The dynamic-header step (45 R261). -/
def dynHeader (s : State) : Except ErrCode State := do
  let (nl, nd, cl, s1) ← readDynFields s
  let T ← build cl
  finishLengths nl nd [] (setClt T s1)

/-- DYNHDR (45 R261). -/
def execDynhdr (s : State) : Host.Outcome State Fault Refusal := finish s (dynHeader s)

/-- CL_LEN (45 R263): the symbol itself is the next code length. -/
def execClLen (l : BitVec 4) (len : Nat) (q : ClSeq) (s : State) : Host.Outcome State Fault Refusal :=
  finish s (do
    let s1 ← consume len s
    finishLengths q.nl q.nd (q.lens ++ [l.toNat]) s1)

/-- CL_REP (45 R263): the previous length again, 3 to 6 times. -/
def execClRep (len : Nat) (q : ClSeq) (s : State) : Host.Outcome State Fault Refusal :=
  finish s (do
    let s1 ← consume len s
    let (lens, s2) ← clRepeat (q.nl + q.nd) q.lens s1
    finishLengths q.nl q.nd lens s2)

/-- CL_ZERO3 (45 R263): 3 to 10 zeros. -/
def execClZero3 (len : Nat) (q : ClSeq) (s : State) : Host.Outcome State Fault Refusal :=
  finish s (do
    let s1 ← consume len s
    let (lens, s2) ← clZeros 3 3 (q.nl + q.nd) q.lens s1
    finishLengths q.nl q.nd lens s2)

/-- CL_ZERO11 (45 R263): 11 to 138 zeros. -/
def execClZero11 (len : Nat) (q : ClSeq) (s : State) : Host.Outcome State Fault Refusal :=
  finish s (do
    let s1 ← consume len s
    let (lens, s2) ← clZeros 11 7 (q.nl + q.nd) q.lens s1
    finishLengths q.nl q.nd lens s2)

end Sys2Proof.Machine
end

