-- ==== Sys2Proof/Machine/FixedDistance.lean ====
section
/-! DEFINITION. The distance part of a match in a fixed-Huffman block, one meaning per FIXDIST row (43_block_processor.md R209, R211): from the
state whose cursor stands at the 5-bit distance code, with the match length in the latch (log entry 1). -/

namespace Sys2Proof.Machine

/-- DIST_0 (43 R209): `00000xxxxxxxxxxx`. -/
def execDist0Fix (length : Nat) (s : State) : Host.Outcome State Fault Refusal :=
  finish s (distPart 0 5 length s)

/-- DIST_1 (43 R209): `00001xxxxxxxxxxx`. -/
def execDist1Fix (length : Nat) (s : State) : Host.Outcome State Fault Refusal :=
  finish s (distPart 1 5 length s)

/-- DIST_2 (43 R209): `00010xxxxxxxxxxx`. -/
def execDist2Fix (length : Nat) (s : State) : Host.Outcome State Fault Refusal :=
  finish s (distPart 2 5 length s)

/-- DIST_3 (43 R209): `00011xxxxxxxxxxx`. -/
def execDist3Fix (length : Nat) (s : State) : Host.Outcome State Fault Refusal :=
  finish s (distPart 3 5 length s)

/-- DIST_4 (43 R209): `00100xxxxxxxxxxx`. -/
def execDist4Fix (length : Nat) (s : State) : Host.Outcome State Fault Refusal :=
  finish s (distPart 4 5 length s)

/-- DIST_5 (43 R209): `00101xxxxxxxxxxx`. -/
def execDist5Fix (length : Nat) (s : State) : Host.Outcome State Fault Refusal :=
  finish s (distPart 5 5 length s)

/-- DIST_6 (43 R209): `00110xxxxxxxxxxx`. -/
def execDist6Fix (length : Nat) (s : State) : Host.Outcome State Fault Refusal :=
  finish s (distPart 6 5 length s)

/-- DIST_7 (43 R209): `00111xxxxxxxxxxx`. -/
def execDist7Fix (length : Nat) (s : State) : Host.Outcome State Fault Refusal :=
  finish s (distPart 7 5 length s)

/-- DIST_8 (43 R209): `01000xxxxxxxxxxx`. -/
def execDist8Fix (length : Nat) (s : State) : Host.Outcome State Fault Refusal :=
  finish s (distPart 8 5 length s)

/-- DIST_9 (43 R209): `01001xxxxxxxxxxx`. -/
def execDist9Fix (length : Nat) (s : State) : Host.Outcome State Fault Refusal :=
  finish s (distPart 9 5 length s)

/-- DIST_10 (43 R209): `01010xxxxxxxxxxx`. -/
def execDist10Fix (length : Nat) (s : State) : Host.Outcome State Fault Refusal :=
  finish s (distPart 10 5 length s)

/-- DIST_11 (43 R209): `01011xxxxxxxxxxx`. -/
def execDist11Fix (length : Nat) (s : State) : Host.Outcome State Fault Refusal :=
  finish s (distPart 11 5 length s)

/-- DIST_12 (43 R209): `01100xxxxxxxxxxx`. -/
def execDist12Fix (length : Nat) (s : State) : Host.Outcome State Fault Refusal :=
  finish s (distPart 12 5 length s)

/-- DIST_13 (43 R209): `01101xxxxxxxxxxx`. -/
def execDist13Fix (length : Nat) (s : State) : Host.Outcome State Fault Refusal :=
  finish s (distPart 13 5 length s)

/-- DIST_14 (43 R209): `01110xxxxxxxxxxx`. -/
def execDist14Fix (length : Nat) (s : State) : Host.Outcome State Fault Refusal :=
  finish s (distPart 14 5 length s)

/-- DIST_15 (43 R209): `01111xxxxxxxxxxx`. -/
def execDist15Fix (length : Nat) (s : State) : Host.Outcome State Fault Refusal :=
  finish s (distPart 15 5 length s)

/-- DIST_16 (43 R209): `10000xxxxxxxxxxx`. -/
def execDist16Fix (length : Nat) (s : State) : Host.Outcome State Fault Refusal :=
  finish s (distPart 16 5 length s)

/-- DIST_17 (43 R209): `10001xxxxxxxxxxx`. -/
def execDist17Fix (length : Nat) (s : State) : Host.Outcome State Fault Refusal :=
  finish s (distPart 17 5 length s)

/-- DIST_18 (43 R209): `10010xxxxxxxxxxx`. -/
def execDist18Fix (length : Nat) (s : State) : Host.Outcome State Fault Refusal :=
  finish s (distPart 18 5 length s)

/-- DIST_19 (43 R209): `10011xxxxxxxxxxx`. -/
def execDist19Fix (length : Nat) (s : State) : Host.Outcome State Fault Refusal :=
  finish s (distPart 19 5 length s)

/-- DIST_20 (43 R209): `10100xxxxxxxxxxx`. -/
def execDist20Fix (length : Nat) (s : State) : Host.Outcome State Fault Refusal :=
  finish s (distPart 20 5 length s)

/-- DIST_21 (43 R209): `10101xxxxxxxxxxx`. -/
def execDist21Fix (length : Nat) (s : State) : Host.Outcome State Fault Refusal :=
  finish s (distPart 21 5 length s)

/-- DIST_22 (43 R209): `10110xxxxxxxxxxx`. -/
def execDist22Fix (length : Nat) (s : State) : Host.Outcome State Fault Refusal :=
  finish s (distPart 22 5 length s)

/-- DIST_23 (43 R209): `10111xxxxxxxxxxx`. -/
def execDist23Fix (length : Nat) (s : State) : Host.Outcome State Fault Refusal :=
  finish s (distPart 23 5 length s)

/-- DIST_24 (43 R209): `11000xxxxxxxxxxx`. -/
def execDist24Fix (length : Nat) (s : State) : Host.Outcome State Fault Refusal :=
  finish s (distPart 24 5 length s)

/-- DIST_25 (43 R209): `11001xxxxxxxxxxx`. -/
def execDist25Fix (length : Nat) (s : State) : Host.Outcome State Fault Refusal :=
  finish s (distPart 25 5 length s)

/-- DIST_26 (43 R209): `11010xxxxxxxxxxx`. -/
def execDist26Fix (length : Nat) (s : State) : Host.Outcome State Fault Refusal :=
  finish s (distPart 26 5 length s)

/-- DIST_27 (43 R209): `11011xxxxxxxxxxx`. -/
def execDist27Fix (length : Nat) (s : State) : Host.Outcome State Fault Refusal :=
  finish s (distPart 27 5 length s)

/-- DIST_28 (43 R209): `11100xxxxxxxxxxx`. -/
def execDist28Fix (length : Nat) (s : State) : Host.Outcome State Fault Refusal :=
  finish s (distPart 28 5 length s)

/-- DIST_29 (43 R209): `11101xxxxxxxxxxx`. -/
def execDist29Fix (length : Nat) (s : State) : Host.Outcome State Fault Refusal :=
  finish s (distPart 29 5 length s)

/-- DIST_30 (43 R211), always `InvalidDistanceCode`: `11110xxxxxxxxxxx`. -/
def execDist30Fix (length : Nat) (s : State) : Host.Outcome State Fault Refusal :=
  finish s (distPart 30 5 length s)

/-- DIST_31 (43 R211), always `InvalidDistanceCode`: `11111xxxxxxxxxxx`. -/
def execDist31Fix (length : Nat) (s : State) : Host.Outcome State Fault Refusal :=
  finish s (distPart 31 5 length s)

end Sys2Proof.Machine
end

