-- ==== Sys2Proof/Machine/FixedSymbol.lean ====
section
/-! DEFINITION. The symbols of a fixed-Huffman block, one meaning per FIXLL row (43_block_processor.md R204, R207 to R210). -/

namespace Sys2Proof.Machine

/-- The byte of a literal row: the row's first symbol plus the data field of its code (30 R104). -/
def rowByte (first : Nat) (field : Nat) : Byte := BitVec.ofNat 8 (first + field)

/-- LIT_0_15 (43 R207): `0011ssssxxxxxxxx`. -/
def execLit0to15 (x : BitVec 4) (s : State) : Host.Outcome State Fault Refusal :=
  finish s (literal (rowByte 0 x.toNat) 8 s)

/-- LIT_16_79 (43 R207): `01ssssssxxxxxxxx`. -/
def execLit16to79 (x : BitVec 6) (s : State) : Host.Outcome State Fault Refusal :=
  finish s (literal (rowByte 16 x.toNat) 8 s)

/-- LIT_80_143 (43 R207): `10ssssssxxxxxxxx`. -/
def execLit80to143 (x : BitVec 6) (s : State) : Host.Outcome State Fault Refusal :=
  finish s (literal (rowByte 80 x.toNat) 8 s)

/-- LIT_144_159 (43 R207): `11001ssssxxxxxxx`. -/
def execLit144to159 (x : BitVec 4) (s : State) : Host.Outcome State Fault Refusal :=
  finish s (literal (rowByte 144 x.toNat) 9 s)

/-- LIT_160_191 (43 R207): `1101sssssxxxxxxx`. -/
def execLit160to191 (x : BitVec 5) (s : State) : Host.Outcome State Fault Refusal :=
  finish s (literal (rowByte 160 x.toNat) 9 s)

/-- LIT_192_255 (43 R207): `111ssssssxxxxxxx`. -/
def execLit192to255 (x : BitVec 6) (s : State) : Host.Outcome State Fault Refusal :=
  finish s (literal (rowByte 192 x.toNat) 9 s)

/-- EOB (43 R208): `0000000xxxxxxxxx`. -/
def execEobFix (s : State) : Host.Outcome State Fault Refusal :=
  finish s (endOfBlock 7 s)

/-- LEN_257 (43 R209): `0000001xxxxxxxxx`. -/
def execLen257Fix (s : State) : Host.Outcome State Fault Refusal :=
  finish s (matchFixed 257 7 s)

/-- LEN_258 (43 R209): `0000010xxxxxxxxx`. -/
def execLen258Fix (s : State) : Host.Outcome State Fault Refusal :=
  finish s (matchFixed 258 7 s)

/-- LEN_259 (43 R209): `0000011xxxxxxxxx`. -/
def execLen259Fix (s : State) : Host.Outcome State Fault Refusal :=
  finish s (matchFixed 259 7 s)

/-- LEN_260 (43 R209): `0000100xxxxxxxxx`. -/
def execLen260Fix (s : State) : Host.Outcome State Fault Refusal :=
  finish s (matchFixed 260 7 s)

/-- LEN_261 (43 R209): `0000101xxxxxxxxx`. -/
def execLen261Fix (s : State) : Host.Outcome State Fault Refusal :=
  finish s (matchFixed 261 7 s)

/-- LEN_262 (43 R209): `0000110xxxxxxxxx`. -/
def execLen262Fix (s : State) : Host.Outcome State Fault Refusal :=
  finish s (matchFixed 262 7 s)

/-- LEN_263 (43 R209): `0000111xxxxxxxxx`. -/
def execLen263Fix (s : State) : Host.Outcome State Fault Refusal :=
  finish s (matchFixed 263 7 s)

/-- LEN_264 (43 R209): `0001000xxxxxxxxx`. -/
def execLen264Fix (s : State) : Host.Outcome State Fault Refusal :=
  finish s (matchFixed 264 7 s)

/-- LEN_265 (43 R209): `0001001xxxxxxxxx`. -/
def execLen265Fix (s : State) : Host.Outcome State Fault Refusal :=
  finish s (matchFixed 265 7 s)

/-- LEN_266 (43 R209): `0001010xxxxxxxxx`. -/
def execLen266Fix (s : State) : Host.Outcome State Fault Refusal :=
  finish s (matchFixed 266 7 s)

/-- LEN_267 (43 R209): `0001011xxxxxxxxx`. -/
def execLen267Fix (s : State) : Host.Outcome State Fault Refusal :=
  finish s (matchFixed 267 7 s)

/-- LEN_268 (43 R209): `0001100xxxxxxxxx`. -/
def execLen268Fix (s : State) : Host.Outcome State Fault Refusal :=
  finish s (matchFixed 268 7 s)

/-- LEN_269 (43 R209): `0001101xxxxxxxxx`. -/
def execLen269Fix (s : State) : Host.Outcome State Fault Refusal :=
  finish s (matchFixed 269 7 s)

/-- LEN_270 (43 R209): `0001110xxxxxxxxx`. -/
def execLen270Fix (s : State) : Host.Outcome State Fault Refusal :=
  finish s (matchFixed 270 7 s)

/-- LEN_271 (43 R209): `0001111xxxxxxxxx`. -/
def execLen271Fix (s : State) : Host.Outcome State Fault Refusal :=
  finish s (matchFixed 271 7 s)

/-- LEN_272 (43 R209): `0010000xxxxxxxxx`. -/
def execLen272Fix (s : State) : Host.Outcome State Fault Refusal :=
  finish s (matchFixed 272 7 s)

/-- LEN_273 (43 R209): `0010001xxxxxxxxx`. -/
def execLen273Fix (s : State) : Host.Outcome State Fault Refusal :=
  finish s (matchFixed 273 7 s)

/-- LEN_274 (43 R209): `0010010xxxxxxxxx`. -/
def execLen274Fix (s : State) : Host.Outcome State Fault Refusal :=
  finish s (matchFixed 274 7 s)

/-- LEN_275 (43 R209): `0010011xxxxxxxxx`. -/
def execLen275Fix (s : State) : Host.Outcome State Fault Refusal :=
  finish s (matchFixed 275 7 s)

/-- LEN_276 (43 R209): `0010100xxxxxxxxx`. -/
def execLen276Fix (s : State) : Host.Outcome State Fault Refusal :=
  finish s (matchFixed 276 7 s)

/-- LEN_277 (43 R209): `0010101xxxxxxxxx`. -/
def execLen277Fix (s : State) : Host.Outcome State Fault Refusal :=
  finish s (matchFixed 277 7 s)

/-- LEN_278 (43 R209): `0010110xxxxxxxxx`. -/
def execLen278Fix (s : State) : Host.Outcome State Fault Refusal :=
  finish s (matchFixed 278 7 s)

/-- LEN_279 (43 R209): `0010111xxxxxxxxx`. -/
def execLen279Fix (s : State) : Host.Outcome State Fault Refusal :=
  finish s (matchFixed 279 7 s)

/-- LEN_280 (43 R209): `11000000xxxxxxxx`. -/
def execLen280Fix (s : State) : Host.Outcome State Fault Refusal :=
  finish s (matchFixed 280 8 s)

/-- LEN_281 (43 R209): `11000001xxxxxxxx`. -/
def execLen281Fix (s : State) : Host.Outcome State Fault Refusal :=
  finish s (matchFixed 281 8 s)

/-- LEN_282 (43 R209): `11000010xxxxxxxx`. -/
def execLen282Fix (s : State) : Host.Outcome State Fault Refusal :=
  finish s (matchFixed 282 8 s)

/-- LEN_283 (43 R209): `11000011xxxxxxxx`. -/
def execLen283Fix (s : State) : Host.Outcome State Fault Refusal :=
  finish s (matchFixed 283 8 s)

/-- LEN_284 (43 R209): `11000100xxxxxxxx`. -/
def execLen284Fix (s : State) : Host.Outcome State Fault Refusal :=
  finish s (matchFixed 284 8 s)

/-- LEN_285 (43 R209): `11000101xxxxxxxx`. -/
def execLen285Fix (s : State) : Host.Outcome State Fault Refusal :=
  finish s (matchFixed 285 8 s)

/-- LL_286 (43 R210): `11000110xxxxxxxx`, always `InvalidLengthCode`. -/
def execLl286Fix (s : State) : Host.Outcome State Fault Refusal :=
  finish s (badLength 8 s)

/-- LL_287 (43 R210): `11000111xxxxxxxx`, always `InvalidLengthCode`. -/
def execLl287Fix (s : State) : Host.Outcome State Fault Refusal :=
  finish s (badLength 8 s)

end Sys2Proof.Machine
end

