-- ==== Sys2Proof/Machine/Header.lean ====
section
/-! DEFINITION. The four block headers (43_block_processor.md R201, R205, R206): BFINAL and BTYPE are read, then BTYPE decides. -/

namespace Sys2Proof.Machine

/-- HDR_STORED (43 R201): BTYPE 0. -/
def execHdrStored (bfinal : Bool) (s : State) : Host.Outcome State Fault Refusal :=
  finish s (do
    let s1 ← headerRead bfinal s
    return setMode .stored s1)

/-- HDR_FIXED (43 R201, R217): BTYPE 1; the fixed table is built at the first such header. -/
def execHdrFixed (bfinal : Bool) (s : State) : Host.Outcome State Fault Refusal :=
  finish s (do
    let s1 ← headerRead bfinal s
    enterFixed s1)

/-- HDR_DYNAMIC (43 R205): BTYPE 2; raises `UnsupportedDynamicHuffman` when `DYN_SUPPORT = 0`. -/
def execHdrDynamic (bfinal : Bool) (s : State) : Host.Outcome State Fault Refusal :=
  finish s (do
    let s1 ← headerRead bfinal s
    enterDynamic s1)

/-- HDR_RESERVED (43 R206): BTYPE 3 always raises `InvalidBlockType`. -/
def execHdrReserved (bfinal : Bool) (s : State) : Host.Outcome State Fault Refusal :=
  finish s (do
    let _ ← headerRead bfinal s
    .error .invalidBlockType)

end Sys2Proof.Machine
end

