-- ==== Sys2Proof/Machine/Stored.lean ====
section
/-! DEFINITION. The stored body (43_block_processor.md R203, 30_encoding.md R102). -/

namespace Sys2Proof.Machine

/-- The stored-body step up to the block end: align, LEN, NLEN (read and ignored), the two bounds checks, the copy (43 R203). -/
def storedBody (s : State) : Except ErrCode State := do
  let (len, s1) ← readBits 16 (alignToByte s)
  let (_, s2) ← readBits 16 s1
  if s2.inSize < s2.bitpos / 8 + len then .error .truncatedStream
  else if exceedsCap s2 len then .error .outputCapacityExceeded
  else .ok (setBitpos (s2.bitpos + 8 * len) (storedLoop (s2.bitpos / 8) len s2))

/-- STORED_BODY (43 R203). -/
def execStoredBody (s : State) : Host.Outcome State Fault Refusal :=
  finish s (do
    let s1 ← storedBody s
    return blockEnd s1)

end Sys2Proof.Machine
end

