-- ==== Sys2Proof/Machine/TableDistance.lean ====
section
/-! DEFINITION. The distance part of a match whose distance symbol was decoded with `TBL.DT`, one meaning per DSYM row (45_dynamic_block.md R265,
43_block_processor.md R211), `len` the bits its code took. -/

namespace Sys2Proof.Machine

/-- DIST_0 (45 R265): distance symbol 0. -/
def execDist0Sym (length len : Nat) (s : State) : Host.Outcome State Fault Refusal :=
  finish s (distPart 0 len length s)

/-- DIST_1 (45 R265): distance symbol 1. -/
def execDist1Sym (length len : Nat) (s : State) : Host.Outcome State Fault Refusal :=
  finish s (distPart 1 len length s)

/-- DIST_2 (45 R265): distance symbol 2. -/
def execDist2Sym (length len : Nat) (s : State) : Host.Outcome State Fault Refusal :=
  finish s (distPart 2 len length s)

/-- DIST_3 (45 R265): distance symbol 3. -/
def execDist3Sym (length len : Nat) (s : State) : Host.Outcome State Fault Refusal :=
  finish s (distPart 3 len length s)

/-- DIST_4 (45 R265): distance symbol 4. -/
def execDist4Sym (length len : Nat) (s : State) : Host.Outcome State Fault Refusal :=
  finish s (distPart 4 len length s)

/-- DIST_5 (45 R265): distance symbol 5. -/
def execDist5Sym (length len : Nat) (s : State) : Host.Outcome State Fault Refusal :=
  finish s (distPart 5 len length s)

/-- DIST_6 (45 R265): distance symbol 6. -/
def execDist6Sym (length len : Nat) (s : State) : Host.Outcome State Fault Refusal :=
  finish s (distPart 6 len length s)

/-- DIST_7 (45 R265): distance symbol 7. -/
def execDist7Sym (length len : Nat) (s : State) : Host.Outcome State Fault Refusal :=
  finish s (distPart 7 len length s)

/-- DIST_8 (45 R265): distance symbol 8. -/
def execDist8Sym (length len : Nat) (s : State) : Host.Outcome State Fault Refusal :=
  finish s (distPart 8 len length s)

/-- DIST_9 (45 R265): distance symbol 9. -/
def execDist9Sym (length len : Nat) (s : State) : Host.Outcome State Fault Refusal :=
  finish s (distPart 9 len length s)

/-- DIST_10 (45 R265): distance symbol 10. -/
def execDist10Sym (length len : Nat) (s : State) : Host.Outcome State Fault Refusal :=
  finish s (distPart 10 len length s)

/-- DIST_11 (45 R265): distance symbol 11. -/
def execDist11Sym (length len : Nat) (s : State) : Host.Outcome State Fault Refusal :=
  finish s (distPart 11 len length s)

/-- DIST_12 (45 R265): distance symbol 12. -/
def execDist12Sym (length len : Nat) (s : State) : Host.Outcome State Fault Refusal :=
  finish s (distPart 12 len length s)

/-- DIST_13 (45 R265): distance symbol 13. -/
def execDist13Sym (length len : Nat) (s : State) : Host.Outcome State Fault Refusal :=
  finish s (distPart 13 len length s)

/-- DIST_14 (45 R265): distance symbol 14. -/
def execDist14Sym (length len : Nat) (s : State) : Host.Outcome State Fault Refusal :=
  finish s (distPart 14 len length s)

/-- DIST_15 (45 R265): distance symbol 15. -/
def execDist15Sym (length len : Nat) (s : State) : Host.Outcome State Fault Refusal :=
  finish s (distPart 15 len length s)

/-- DIST_16 (45 R265): distance symbol 16. -/
def execDist16Sym (length len : Nat) (s : State) : Host.Outcome State Fault Refusal :=
  finish s (distPart 16 len length s)

/-- DIST_17 (45 R265): distance symbol 17. -/
def execDist17Sym (length len : Nat) (s : State) : Host.Outcome State Fault Refusal :=
  finish s (distPart 17 len length s)

/-- DIST_18 (45 R265): distance symbol 18. -/
def execDist18Sym (length len : Nat) (s : State) : Host.Outcome State Fault Refusal :=
  finish s (distPart 18 len length s)

/-- DIST_19 (45 R265): distance symbol 19. -/
def execDist19Sym (length len : Nat) (s : State) : Host.Outcome State Fault Refusal :=
  finish s (distPart 19 len length s)

/-- DIST_20 (45 R265): distance symbol 20. -/
def execDist20Sym (length len : Nat) (s : State) : Host.Outcome State Fault Refusal :=
  finish s (distPart 20 len length s)

/-- DIST_21 (45 R265): distance symbol 21. -/
def execDist21Sym (length len : Nat) (s : State) : Host.Outcome State Fault Refusal :=
  finish s (distPart 21 len length s)

/-- DIST_22 (45 R265): distance symbol 22. -/
def execDist22Sym (length len : Nat) (s : State) : Host.Outcome State Fault Refusal :=
  finish s (distPart 22 len length s)

/-- DIST_23 (45 R265): distance symbol 23. -/
def execDist23Sym (length len : Nat) (s : State) : Host.Outcome State Fault Refusal :=
  finish s (distPart 23 len length s)

/-- DIST_24 (45 R265): distance symbol 24. -/
def execDist24Sym (length len : Nat) (s : State) : Host.Outcome State Fault Refusal :=
  finish s (distPart 24 len length s)

/-- DIST_25 (45 R265): distance symbol 25. -/
def execDist25Sym (length len : Nat) (s : State) : Host.Outcome State Fault Refusal :=
  finish s (distPart 25 len length s)

/-- DIST_26 (45 R265): distance symbol 26. -/
def execDist26Sym (length len : Nat) (s : State) : Host.Outcome State Fault Refusal :=
  finish s (distPart 26 len length s)

/-- DIST_27 (45 R265): distance symbol 27. -/
def execDist27Sym (length len : Nat) (s : State) : Host.Outcome State Fault Refusal :=
  finish s (distPart 27 len length s)

/-- DIST_28 (45 R265): distance symbol 28. -/
def execDist28Sym (length len : Nat) (s : State) : Host.Outcome State Fault Refusal :=
  finish s (distPart 28 len length s)

/-- DIST_29 (45 R265): distance symbol 29. -/
def execDist29Sym (length len : Nat) (s : State) : Host.Outcome State Fault Refusal :=
  finish s (distPart 29 len length s)

/-- DIST_30 (43 R211): distance symbol 30, always `InvalidDistanceCode`. -/
def execDist30Sym (length len : Nat) (s : State) : Host.Outcome State Fault Refusal :=
  finish s (distPart 30 len length s)

/-- DIST_31 (43 R211): distance symbol 31, always `InvalidDistanceCode`. -/
def execDist31Sym (length len : Nat) (s : State) : Host.Outcome State Fault Refusal :=
  finish s (distPart 31 len length s)

end Sys2Proof.Machine
end

