-- ==== Sys2Proof/Machine/TableSymbol.lean ====
section
/-! DEFINITION. A decoded literal/length symbol, one meaning per LLSYM row (45_dynamic_block.md R265; 43_block_processor.md R207 to R210), `len`
the bits its code took. -/

namespace Sys2Proof.Machine

/-- LIT (43 R207): symbol 0..255. -/
def execLit (b : Byte) (len : Nat) (s : State) : Host.Outcome State Fault Refusal :=
  finish s (literal b len s)

/-- EOB (43 R208): symbol 256. -/
def execEobSym (len : Nat) (s : State) : Host.Outcome State Fault Refusal :=
  finish s (endOfBlock len s)

/-- LEN_257 (43 R209): symbol 257. -/
def execLen257Sym (len : Nat) (s : State) : Host.Outcome State Fault Refusal :=
  finish s (matchSym 257 len s)

/-- LEN_258 (43 R209): symbol 258. -/
def execLen258Sym (len : Nat) (s : State) : Host.Outcome State Fault Refusal :=
  finish s (matchSym 258 len s)

/-- LEN_259 (43 R209): symbol 259. -/
def execLen259Sym (len : Nat) (s : State) : Host.Outcome State Fault Refusal :=
  finish s (matchSym 259 len s)

/-- LEN_260 (43 R209): symbol 260. -/
def execLen260Sym (len : Nat) (s : State) : Host.Outcome State Fault Refusal :=
  finish s (matchSym 260 len s)

/-- LEN_261 (43 R209): symbol 261. -/
def execLen261Sym (len : Nat) (s : State) : Host.Outcome State Fault Refusal :=
  finish s (matchSym 261 len s)

/-- LEN_262 (43 R209): symbol 262. -/
def execLen262Sym (len : Nat) (s : State) : Host.Outcome State Fault Refusal :=
  finish s (matchSym 262 len s)

/-- LEN_263 (43 R209): symbol 263. -/
def execLen263Sym (len : Nat) (s : State) : Host.Outcome State Fault Refusal :=
  finish s (matchSym 263 len s)

/-- LEN_264 (43 R209): symbol 264. -/
def execLen264Sym (len : Nat) (s : State) : Host.Outcome State Fault Refusal :=
  finish s (matchSym 264 len s)

/-- LEN_265 (43 R209): symbol 265. -/
def execLen265Sym (len : Nat) (s : State) : Host.Outcome State Fault Refusal :=
  finish s (matchSym 265 len s)

/-- LEN_266 (43 R209): symbol 266. -/
def execLen266Sym (len : Nat) (s : State) : Host.Outcome State Fault Refusal :=
  finish s (matchSym 266 len s)

/-- LEN_267 (43 R209): symbol 267. -/
def execLen267Sym (len : Nat) (s : State) : Host.Outcome State Fault Refusal :=
  finish s (matchSym 267 len s)

/-- LEN_268 (43 R209): symbol 268. -/
def execLen268Sym (len : Nat) (s : State) : Host.Outcome State Fault Refusal :=
  finish s (matchSym 268 len s)

/-- LEN_269 (43 R209): symbol 269. -/
def execLen269Sym (len : Nat) (s : State) : Host.Outcome State Fault Refusal :=
  finish s (matchSym 269 len s)

/-- LEN_270 (43 R209): symbol 270. -/
def execLen270Sym (len : Nat) (s : State) : Host.Outcome State Fault Refusal :=
  finish s (matchSym 270 len s)

/-- LEN_271 (43 R209): symbol 271. -/
def execLen271Sym (len : Nat) (s : State) : Host.Outcome State Fault Refusal :=
  finish s (matchSym 271 len s)

/-- LEN_272 (43 R209): symbol 272. -/
def execLen272Sym (len : Nat) (s : State) : Host.Outcome State Fault Refusal :=
  finish s (matchSym 272 len s)

/-- LEN_273 (43 R209): symbol 273. -/
def execLen273Sym (len : Nat) (s : State) : Host.Outcome State Fault Refusal :=
  finish s (matchSym 273 len s)

/-- LEN_274 (43 R209): symbol 274. -/
def execLen274Sym (len : Nat) (s : State) : Host.Outcome State Fault Refusal :=
  finish s (matchSym 274 len s)

/-- LEN_275 (43 R209): symbol 275. -/
def execLen275Sym (len : Nat) (s : State) : Host.Outcome State Fault Refusal :=
  finish s (matchSym 275 len s)

/-- LEN_276 (43 R209): symbol 276. -/
def execLen276Sym (len : Nat) (s : State) : Host.Outcome State Fault Refusal :=
  finish s (matchSym 276 len s)

/-- LEN_277 (43 R209): symbol 277. -/
def execLen277Sym (len : Nat) (s : State) : Host.Outcome State Fault Refusal :=
  finish s (matchSym 277 len s)

/-- LEN_278 (43 R209): symbol 278. -/
def execLen278Sym (len : Nat) (s : State) : Host.Outcome State Fault Refusal :=
  finish s (matchSym 278 len s)

/-- LEN_279 (43 R209): symbol 279. -/
def execLen279Sym (len : Nat) (s : State) : Host.Outcome State Fault Refusal :=
  finish s (matchSym 279 len s)

/-- LEN_280 (43 R209): symbol 280. -/
def execLen280Sym (len : Nat) (s : State) : Host.Outcome State Fault Refusal :=
  finish s (matchSym 280 len s)

/-- LEN_281 (43 R209): symbol 281. -/
def execLen281Sym (len : Nat) (s : State) : Host.Outcome State Fault Refusal :=
  finish s (matchSym 281 len s)

/-- LEN_282 (43 R209): symbol 282. -/
def execLen282Sym (len : Nat) (s : State) : Host.Outcome State Fault Refusal :=
  finish s (matchSym 282 len s)

/-- LEN_283 (43 R209): symbol 283. -/
def execLen283Sym (len : Nat) (s : State) : Host.Outcome State Fault Refusal :=
  finish s (matchSym 283 len s)

/-- LEN_284 (43 R209): symbol 284. -/
def execLen284Sym (len : Nat) (s : State) : Host.Outcome State Fault Refusal :=
  finish s (matchSym 284 len s)

/-- LEN_285 (43 R209): symbol 285. -/
def execLen285Sym (len : Nat) (s : State) : Host.Outcome State Fault Refusal :=
  finish s (matchSym 285 len s)

/-- LL_286 (43 R210): symbol 286, always `InvalidLengthCode`. -/
def execLl286Sym (len : Nat) (s : State) : Host.Outcome State Fault Refusal :=
  finish s (badLength len s)

/-- LL_287 (43 R210): symbol 287, always `InvalidLengthCode`. -/
def execLl287Sym (len : Nat) (s : State) : Host.Outcome State Fault Refusal :=
  finish s (badLength len s)

end Sys2Proof.Machine
end

