-- ==== Sys2Proof/Machine/Dispatch.lean ====
section
/-! DEFINITION. The meaning of every element, one arm per row of the opcode table: each is one direct call. -/

namespace Sys2Proof.Machine

def exec (i : Instr) (s : State) : Host.Outcome State Fault Refusal :=
  match i with
  | .hdrStored bfinal => Sys2Proof.Machine.execHdrStored bfinal s
  | .hdrFixed bfinal => Sys2Proof.Machine.execHdrFixed bfinal s
  | .hdrDynamic bfinal => Sys2Proof.Machine.execHdrDynamic bfinal s
  | .hdrReserved bfinal => Sys2Proof.Machine.execHdrReserved bfinal s
  | .storedBody => Sys2Proof.Machine.execStoredBody s
  | .dynhdr => Sys2Proof.Machine.execDynhdr s
  | .lit0to15 x => Sys2Proof.Machine.execLit0to15 x s
  | .lit16to79 x => Sys2Proof.Machine.execLit16to79 x s
  | .lit80to143 x => Sys2Proof.Machine.execLit80to143 x s
  | .lit144to159 x => Sys2Proof.Machine.execLit144to159 x s
  | .lit160to191 x => Sys2Proof.Machine.execLit160to191 x s
  | .lit192to255 x => Sys2Proof.Machine.execLit192to255 x s
  | .eobFix => Sys2Proof.Machine.execEobFix s
  | .len257Fix => Sys2Proof.Machine.execLen257Fix s
  | .len258Fix => Sys2Proof.Machine.execLen258Fix s
  | .len259Fix => Sys2Proof.Machine.execLen259Fix s
  | .len260Fix => Sys2Proof.Machine.execLen260Fix s
  | .len261Fix => Sys2Proof.Machine.execLen261Fix s
  | .len262Fix => Sys2Proof.Machine.execLen262Fix s
  | .len263Fix => Sys2Proof.Machine.execLen263Fix s
  | .len264Fix => Sys2Proof.Machine.execLen264Fix s
  | .len265Fix => Sys2Proof.Machine.execLen265Fix s
  | .len266Fix => Sys2Proof.Machine.execLen266Fix s
  | .len267Fix => Sys2Proof.Machine.execLen267Fix s
  | .len268Fix => Sys2Proof.Machine.execLen268Fix s
  | .len269Fix => Sys2Proof.Machine.execLen269Fix s
  | .len270Fix => Sys2Proof.Machine.execLen270Fix s
  | .len271Fix => Sys2Proof.Machine.execLen271Fix s
  | .len272Fix => Sys2Proof.Machine.execLen272Fix s
  | .len273Fix => Sys2Proof.Machine.execLen273Fix s
  | .len274Fix => Sys2Proof.Machine.execLen274Fix s
  | .len275Fix => Sys2Proof.Machine.execLen275Fix s
  | .len276Fix => Sys2Proof.Machine.execLen276Fix s
  | .len277Fix => Sys2Proof.Machine.execLen277Fix s
  | .len278Fix => Sys2Proof.Machine.execLen278Fix s
  | .len279Fix => Sys2Proof.Machine.execLen279Fix s
  | .len280Fix => Sys2Proof.Machine.execLen280Fix s
  | .len281Fix => Sys2Proof.Machine.execLen281Fix s
  | .len282Fix => Sys2Proof.Machine.execLen282Fix s
  | .len283Fix => Sys2Proof.Machine.execLen283Fix s
  | .len284Fix => Sys2Proof.Machine.execLen284Fix s
  | .len285Fix => Sys2Proof.Machine.execLen285Fix s
  | .ll286Fix => Sys2Proof.Machine.execLl286Fix s
  | .ll287Fix => Sys2Proof.Machine.execLl287Fix s
  | .dist0Fix length => Sys2Proof.Machine.execDist0Fix length s
  | .dist1Fix length => Sys2Proof.Machine.execDist1Fix length s
  | .dist2Fix length => Sys2Proof.Machine.execDist2Fix length s
  | .dist3Fix length => Sys2Proof.Machine.execDist3Fix length s
  | .dist4Fix length => Sys2Proof.Machine.execDist4Fix length s
  | .dist5Fix length => Sys2Proof.Machine.execDist5Fix length s
  | .dist6Fix length => Sys2Proof.Machine.execDist6Fix length s
  | .dist7Fix length => Sys2Proof.Machine.execDist7Fix length s
  | .dist8Fix length => Sys2Proof.Machine.execDist8Fix length s
  | .dist9Fix length => Sys2Proof.Machine.execDist9Fix length s
  | .dist10Fix length => Sys2Proof.Machine.execDist10Fix length s
  | .dist11Fix length => Sys2Proof.Machine.execDist11Fix length s
  | .dist12Fix length => Sys2Proof.Machine.execDist12Fix length s
  | .dist13Fix length => Sys2Proof.Machine.execDist13Fix length s
  | .dist14Fix length => Sys2Proof.Machine.execDist14Fix length s
  | .dist15Fix length => Sys2Proof.Machine.execDist15Fix length s
  | .dist16Fix length => Sys2Proof.Machine.execDist16Fix length s
  | .dist17Fix length => Sys2Proof.Machine.execDist17Fix length s
  | .dist18Fix length => Sys2Proof.Machine.execDist18Fix length s
  | .dist19Fix length => Sys2Proof.Machine.execDist19Fix length s
  | .dist20Fix length => Sys2Proof.Machine.execDist20Fix length s
  | .dist21Fix length => Sys2Proof.Machine.execDist21Fix length s
  | .dist22Fix length => Sys2Proof.Machine.execDist22Fix length s
  | .dist23Fix length => Sys2Proof.Machine.execDist23Fix length s
  | .dist24Fix length => Sys2Proof.Machine.execDist24Fix length s
  | .dist25Fix length => Sys2Proof.Machine.execDist25Fix length s
  | .dist26Fix length => Sys2Proof.Machine.execDist26Fix length s
  | .dist27Fix length => Sys2Proof.Machine.execDist27Fix length s
  | .dist28Fix length => Sys2Proof.Machine.execDist28Fix length s
  | .dist29Fix length => Sys2Proof.Machine.execDist29Fix length s
  | .dist30Fix length => Sys2Proof.Machine.execDist30Fix length s
  | .dist31Fix length => Sys2Proof.Machine.execDist31Fix length s
  | .lit b len => Sys2Proof.Machine.execLit b len s
  | .eobSym len => Sys2Proof.Machine.execEobSym len s
  | .len257Sym len => Sys2Proof.Machine.execLen257Sym len s
  | .len258Sym len => Sys2Proof.Machine.execLen258Sym len s
  | .len259Sym len => Sys2Proof.Machine.execLen259Sym len s
  | .len260Sym len => Sys2Proof.Machine.execLen260Sym len s
  | .len261Sym len => Sys2Proof.Machine.execLen261Sym len s
  | .len262Sym len => Sys2Proof.Machine.execLen262Sym len s
  | .len263Sym len => Sys2Proof.Machine.execLen263Sym len s
  | .len264Sym len => Sys2Proof.Machine.execLen264Sym len s
  | .len265Sym len => Sys2Proof.Machine.execLen265Sym len s
  | .len266Sym len => Sys2Proof.Machine.execLen266Sym len s
  | .len267Sym len => Sys2Proof.Machine.execLen267Sym len s
  | .len268Sym len => Sys2Proof.Machine.execLen268Sym len s
  | .len269Sym len => Sys2Proof.Machine.execLen269Sym len s
  | .len270Sym len => Sys2Proof.Machine.execLen270Sym len s
  | .len271Sym len => Sys2Proof.Machine.execLen271Sym len s
  | .len272Sym len => Sys2Proof.Machine.execLen272Sym len s
  | .len273Sym len => Sys2Proof.Machine.execLen273Sym len s
  | .len274Sym len => Sys2Proof.Machine.execLen274Sym len s
  | .len275Sym len => Sys2Proof.Machine.execLen275Sym len s
  | .len276Sym len => Sys2Proof.Machine.execLen276Sym len s
  | .len277Sym len => Sys2Proof.Machine.execLen277Sym len s
  | .len278Sym len => Sys2Proof.Machine.execLen278Sym len s
  | .len279Sym len => Sys2Proof.Machine.execLen279Sym len s
  | .len280Sym len => Sys2Proof.Machine.execLen280Sym len s
  | .len281Sym len => Sys2Proof.Machine.execLen281Sym len s
  | .len282Sym len => Sys2Proof.Machine.execLen282Sym len s
  | .len283Sym len => Sys2Proof.Machine.execLen283Sym len s
  | .len284Sym len => Sys2Proof.Machine.execLen284Sym len s
  | .len285Sym len => Sys2Proof.Machine.execLen285Sym len s
  | .ll286Sym len => Sys2Proof.Machine.execLl286Sym len s
  | .ll287Sym len => Sys2Proof.Machine.execLl287Sym len s
  | .dist0Sym length len => Sys2Proof.Machine.execDist0Sym length len s
  | .dist1Sym length len => Sys2Proof.Machine.execDist1Sym length len s
  | .dist2Sym length len => Sys2Proof.Machine.execDist2Sym length len s
  | .dist3Sym length len => Sys2Proof.Machine.execDist3Sym length len s
  | .dist4Sym length len => Sys2Proof.Machine.execDist4Sym length len s
  | .dist5Sym length len => Sys2Proof.Machine.execDist5Sym length len s
  | .dist6Sym length len => Sys2Proof.Machine.execDist6Sym length len s
  | .dist7Sym length len => Sys2Proof.Machine.execDist7Sym length len s
  | .dist8Sym length len => Sys2Proof.Machine.execDist8Sym length len s
  | .dist9Sym length len => Sys2Proof.Machine.execDist9Sym length len s
  | .dist10Sym length len => Sys2Proof.Machine.execDist10Sym length len s
  | .dist11Sym length len => Sys2Proof.Machine.execDist11Sym length len s
  | .dist12Sym length len => Sys2Proof.Machine.execDist12Sym length len s
  | .dist13Sym length len => Sys2Proof.Machine.execDist13Sym length len s
  | .dist14Sym length len => Sys2Proof.Machine.execDist14Sym length len s
  | .dist15Sym length len => Sys2Proof.Machine.execDist15Sym length len s
  | .dist16Sym length len => Sys2Proof.Machine.execDist16Sym length len s
  | .dist17Sym length len => Sys2Proof.Machine.execDist17Sym length len s
  | .dist18Sym length len => Sys2Proof.Machine.execDist18Sym length len s
  | .dist19Sym length len => Sys2Proof.Machine.execDist19Sym length len s
  | .dist20Sym length len => Sys2Proof.Machine.execDist20Sym length len s
  | .dist21Sym length len => Sys2Proof.Machine.execDist21Sym length len s
  | .dist22Sym length len => Sys2Proof.Machine.execDist22Sym length len s
  | .dist23Sym length len => Sys2Proof.Machine.execDist23Sym length len s
  | .dist24Sym length len => Sys2Proof.Machine.execDist24Sym length len s
  | .dist25Sym length len => Sys2Proof.Machine.execDist25Sym length len s
  | .dist26Sym length len => Sys2Proof.Machine.execDist26Sym length len s
  | .dist27Sym length len => Sys2Proof.Machine.execDist27Sym length len s
  | .dist28Sym length len => Sys2Proof.Machine.execDist28Sym length len s
  | .dist29Sym length len => Sys2Proof.Machine.execDist29Sym length len s
  | .dist30Sym length len => Sys2Proof.Machine.execDist30Sym length len s
  | .dist31Sym length len => Sys2Proof.Machine.execDist31Sym length len s
  | .clLen l len q => Sys2Proof.Machine.execClLen l len q s
  | .clRep len q => Sys2Proof.Machine.execClRep len q s
  | .clZero3 len q => Sys2Proof.Machine.execClZero3 len q s
  | .clZero11 len q => Sys2Proof.Machine.execClZero11 len q s

end Sys2Proof.Machine
end

