-- ==== Sys2Proof/Machine/Fetch.lean ====
section
/-! DEFINITION. Which element a step executes: the format is selected by `STATE` and `DYN_VALID` (43_block_processor.md R200, R216),
the row by the bits at the cursor. -/

namespace Sys2Proof.Machine

/-- The error a step raises for a value that is no row of its format. A header is three bits, so the first case cannot arise; a
symbol above the table's rows, which no table built by the machine holds, falls under the rule for large symbols (43 R210, R211;
log entry 11). -/
def rejectError : Reject → ErrCode
  | .headerWiderThanThreeBits => .invalidBlockType
  | .windowWiderThanSixteenBits => .corruptHuffmanCode
  | .noCode => .corruptHuffmanCode
  | .noSuchSymbol => .invalidLengthCode
  | .noSuchDistance => .invalidDistanceCode
  | .noSuchCodeLengthSymbol => .invalidCodeLengthTable

/-- A decoded row, or the error of its rejection. -/
def orRaise : Except Reject Instr → Except ErrCode Instr
  | .ok i => .ok i
  | .error r => .error (rejectError r)

/-- The header at the cursor: `read_bits(1)`, then `read_bits(2)` (43 R201). -/
def fetchHeader (s : State) : Except ErrCode Instr := do
  let (f, s1) ← readBits 1 s
  let (t, _) ← readBits 2 s1
  orRaise (decode .blkhdr Latches.idle (f + 2 * t))

/-- The symbol at the cursor of a fixed-Huffman block: `DECODE(TBL.FIXLL)` (43 R204). -/
def fetchFixed (s : State) : Except ErrCode Instr := do
  let (sym, len) ← decodeSym s.tblFixll s
  orRaise (orReject .noSuchSymbol (fixedBlockInstr sym len))

/-- The symbol at the cursor of a dynamic-Huffman block: `DECODE(TBL.LL)` (45 R265). -/
def fetchDynamic (s : State) : Except ErrCode Instr := do
  let (sym, len) ← decodeSym s.tblLl s
  orRaise (decode .llsym ⟨len, 0, ⟨[], 0, 0⟩⟩ sym)

/-- The element at the cursor: none when the machine is halted (43 R200). -/
def fetch (s : State) : Option (Except ErrCode Instr) :=
  match s.mode with
  | .readBlockHeader => some (fetchHeader s)
  | .stored => some (.ok .storedBody)
  | .fixedHuffman => some (fetchFixed s)
  | .dynamicHuffman => some (if s.dynValid then fetchDynamic s else .ok .dynhdr)
  | .idle => none
  | .done => none
  | .error => none

/-! ### Placing a word of the opcode table where the next step fetches (log entry 12) -/

/-- One stream bit of `IN` (20_memory.md R70). -/
def putBit (m : Memory) (k : Nat) (b : Bool) : Memory :=
  let old := memRead m (k / 8)
  let mask : Byte := (1 : Byte) <<< (k % 8)
  memWrite m (k / 8) (if b then old ||| mask else old &&& ~~~mask)

/-- Stream bits from bit number `k` on. -/
def putBits : List Bool → Nat → Memory → Memory
  | [], _, m => m
  | b :: bs, k, m => putBits bs (k + 1) (putBit m k b)

/-- `n` bits of `v`, least significant first. -/
def lsbBits (n v : Nat) : List Bool := (List.range n).map (fun i => v.testBit i)

/-- `n` bits of `v`, most significant first. -/
def msbBits (n v : Nat) : List Bool := (List.range n).map (fun i => v.testBit (n - 1 - i))

/-- A decode table in which symbol `sym` alone has a code, the one bit `0`. -/
def loneTable (sym : Nat) : DecodeTable := tableOf (List.replicate sym 0 ++ [1])

/-- The stream bits that make the next step meet the row of value `w` in format `f`. -/
def wordBits (f : Format) (w : Nat) : List Bool :=
  match f with
  | .blkhdr => lsbBits 3 w
  | .fixll => msbBits 16 w
  | .fixdist => msbBits 7 1 ++ msbBits 5 (unpad w 5)
  | .storedBody | .dynhdrBody | .llsym | .dsym | .clsym => []

/-- The selection that makes the next step read format `f`: `STATE`, `DYN_VALID` and the tables in force. -/
def selectFormat (f : Format) (w : Nat) (s : State) : State :=
  match f with
  | .blkhdr => setMode .readBlockHeader s
  | .storedBody => setMode .stored s
  | .fixll | .fixdist => setMode .fixedHuffman (setFixll fixedTable s)
  | .dynhdrBody | .clsym => setMode .dynamicHuffman (setDynValid false s)
  | .llsym => setMode .dynamicHuffman (setDynValid true (setDynTables (loneTable w) (loneTable 0) s))
  | .dsym => setMode .dynamicHuffman (setDynValid true (setDynTables (loneTable 257) (loneTable w) s))

/-- The stream at the cursor becomes `bits` followed by zeros, 64 bits in all, and `IN_SIZE` covers them. -/
def placeBits (bits : List Bool) (s : State) : State :=
  { s with
    inMem := putBits ((bits ++ List.replicate 64 false).take 64) s.bitpos s.inMem
    inSize := max s.inSize ((s.bitpos + 71) / 8) }

end Sys2Proof.Machine
end

