-- ==== Sys2Proof/Machine/Step.lean ====
section
/-! DEFINITION. One step of the machine (43_block_processor.md R200), and the state in which a given table word is fetched next. -/

namespace Sys2Proof.Machine

/-- One step: the element at the cursor is executed; an error met while it is decoded is taken; a halted machine stays as it is
(43 R200, 60 R333, R337; log entry 2). -/
def step (s : State) : Host.Outcome State Fault Refusal :=
  match fetch s with
  | none => .next s
  | some (.ok i) => exec i s
  | some (.error e) => .next (raise s e)

/-- `s` with the instruction of a table word stored where `step` fetches next, and everything selected that this takes
(log entry 12). -/
def State.withFetchWord (s : State) (nbits w : Nat) : State :=
  selectFormat (tableFormat nbits w) w (placeBits (wordBits (tableFormat nbits w) w) s)

end Sys2Proof.Machine
end

