-- ==== Sys2Proof/Machine/Assembler.lean ====
section
/-! DEFINITION. The stream notation of 30_encoding.md R125 (00_scope.md R20): the encoding function from a list of elements to
stream bits. Outside the operand ranges R125 gives, an element is written by the same formulas: DESIGN CHOICE (log entry 26). -/

namespace Sys2Proof.Machine

/-- An element of the notation (30 R125). A stored body without `nn` takes the complement of `n`. `codes` and `coded` of `dynhdr` are the code-length-code lengths in stream order and the
coded sequence as (code-length symbol, extra value). -/
inductive Element where
  | hdr (f t : Nat)
  | stored (n : Nat) (nn : Option Nat) (data : List Byte)
  | lit (v : Nat)
  | eob
  | copy (length distance : Nat)
  | sym (v : Nat)
  | dcode (v : Nat)
  | dynhdr (hlit hdist hclen : Nat) (codes : List Nat) (coded : List (Nat × Nat))
  deriving DecidableEq, Repr

/-- The code of a symbol in a table, as (code, length): the position in its bucket above the bucket's start code (30 R103). -/
def codeOf (T : DecodeTable) (sym : Nat) : Option (Nat × Nat) :=
  ((List.range' 1 15).find? (fun len => (T.symbols len).contains (BitVec.ofNat 16 sym))).map (fun len =>
    (unpad (T.padded len) len + (T.symbols len).idxOf (BitVec.ofNat 16 sym), len))

/-- `puth(code(sym), len(sym))` (30 R125). For a symbol without a code in the table R125 says nothing, and no bits are written:
DESIGN CHOICE (log entry 26). -/
def symBits (T : DecodeTable) (sym : Nat) : List Bool :=
  match codeOf T sym with
  | none => []
  | some (c, len) => msbBits len c

/-- The length symbol of a match length: the one with the largest base value not above it among 257..284, 285 for 258 (30 R125). -/
def lengthSym (length : Nat) : Nat :=
  if length = 258 then 285 else 256 + ((romLenExtra.take 28).filter (fun e => decide (e.2 ≤ length))).length

/-- The distance code of a distance: the one with the largest base value not above it (30 R125). -/
def distanceCode (distance : Nat) : Nat := (romDistExtra.filter (fun e => decide (e.2 ≤ distance))).length - 1

/-- A raw 5-bit distance code, most significant bit first (30 R125: `DCODE`, and a match with the fixed tables). -/
def rawDistBits (d : Nat) : List Bool := msbBits 5 d

/-- How a match codes its distance: the raw 5-bit field, or a table (30 R125, 43 R216). -/
def distBits (D : Option DecodeTable) (d : Nat) : List Bool :=
  match D with
  | none => rawDistBits d
  | some T => symBits T d

/-- The number of extra bits after a code-length symbol (30 R113). -/
def clExtraBits (sym : Nat) : Nat := if sym = 16 then 2 else if sym = 17 then 3 else if sym = 18 then 7 else 0

/-- `NLEN` of a stored body of `n` bytes: the one written, or the complement of `n` (30 R125). -/
def storedNlen (n : Nat) (nn : Option Nat) : Nat := nn.getD (0xffff - n)

/-- The code lengths a coded sequence stands for, after `lens` (45 R263). For a sequence R263 calls malformed R125 names no lengths:
the previous length of a first symbol 16 is 0, and a run is kept whole: DESIGN CHOICE (log entry 26). -/
def expandCl : List (Nat × Nat) → List Nat → List Nat
  | [], lens => lens
  | (sym, x) :: rest, lens =>
    expandCl rest
      (if sym < 16 then lens ++ [sym]
       else if sym = 16 then lens ++ List.replicate (3 + x) (lens.getLastD 0)
       else if sym = 17 then lens ++ List.replicate (3 + x) 0
       else lens ++ List.replicate (11 + x) 0)

/-- The 19 code-length-code lengths from their stream order (45 R262). -/
def clFromOrder (codes : List Nat) : List Nat :=
  (romClOrder.zip codes).foldl (fun cl p => cl.set p.1 p.2) (List.replicate 19 0)

/-- The bits of an element appended to `pos` bits already written, with literal/length table `L` and distances coded by `D`. -/
def elementBits (L : DecodeTable) (D : Option DecodeTable) (pos : Nat) : Element → List Bool
  | .hdr f t => lsbBits 1 f ++ lsbBits 2 t
  | .stored n nn data =>
    List.replicate ((8 - pos % 8) % 8) false ++ lsbBits 16 n ++ lsbBits 16 (storedNlen n nn) ++
      data.flatMap (fun b => lsbBits 8 b.toNat)
  | .lit v => symBits L v
  | .eob => symBits L 256
  | .copy length distance =>
    symBits L (lengthSym length) ++ lsbBits (lenExtraBits (lengthSym length)) (length - lenBase (lengthSym length)) ++
      distBits D (distanceCode distance) ++
      lsbBits (distExtraBits (distanceCode distance)) (distance - distBase (distanceCode distance))
  | .sym v => symBits L v
  | .dcode v => rawDistBits v
  | .dynhdr hlit hdist hclen codes coded =>
    lsbBits 5 hlit ++ lsbBits 5 hdist ++ lsbBits 4 hclen ++ codes.flatMap (lsbBits 3) ++
      coded.flatMap (fun p => symBits (tableOf (clFromOrder codes)) p.1 ++ lsbBits (clExtraBits p.1) p.2)

/-- The bits of a list of elements; a header selects the tables of its block, a dynamic header builds them (30 R125). After a coded
sequence of a wrong total the first `hlit + 257` lengths are of literals and lengths, and all others of distances: DESIGN CHOICE (log
entry 26). -/
def assemble (L : DecodeTable) (D : Option DecodeTable) (pos : Nat) : List Element → List Bool
  | [] => []
  | e :: rest =>
    let bits := elementBits L D pos e
    let lens := match e with
      | .dynhdr _ _ _ _ coded => expandCl coded []
      | _ => []
    match e with
    | .hdr _ _ => bits ++ assemble fixedTable none (pos + bits.length) rest
    | .dynhdr hlit _ _ _ _ =>
      bits ++ assemble (tableOf (lens.take (hlit + 257))) (some (tableOf (lens.drop (hlit + 257)))) (pos + bits.length) rest
    | _ => bits ++ assemble L D (pos + bits.length) rest

/-- Stream bits as bytes, the last one padded with zeros (30 R125): `n` bytes. -/
def packBytes (bits : List Bool) : Nat → List Byte
  | 0 => []
  | n + 1 => BitVec.ofNat 8 (bitsVal (fun k => bits.getD k false) 0 8) :: packBytes (bits.drop 8) n

/-- The bytes of a stream that begins at bit 0 (30 R125). -/
def streamBytes (es : List Element) : List Byte :=
  let bits := assemble fixedTable none 0 es
  packBytes bits ((bits.length + 7) / 8)

end Sys2Proof.Machine
end

