-- ==== Sys2Proof/Machine/Run.lean ====
section
/-! DEFINITION. Several steps, and a whole run (43_block_processor.md R214, R215). -/

namespace Sys2Proof.Machine

/-- `n` steps. Every step of this machine answers a next state (00_scope.md R19); the other arms keep the state. -/
def runSteps : Nat → State → State
  | 0, s => s
  | n + 1, s =>
    match step s with
    | .next t => runSteps n t
    | .fault _ => s
    | .refused _ => s

/-- The bound of 43 R214 on the steps of a run that begins in `s`: one more than the bits left. -/
def runBound (s : State) : Nat := 8 * s.inSize - s.bitpos + 1

/-- The whole run from a state just after `START` (43 R215). -/
def runToEnd (s : State) : State := runSteps (runBound s) s

end Sys2Proof.Machine
end

