-- ==== Sys2Proof/Machine/HostPort.lean ====
section
/-! DEFINITION. The host's moves and what it reads (10_state.md R50 to R53, 70_reset_and_hazards.md R350 to R353, R360 to R362).
None of them is part of `step`: the host acts between steps (00_scope.md R3). -/

namespace Sys2Proof.Machine

/-- The six registers of the host port (10_state.md R50). -/
inductive HostReg where
  | ctrl
  | status
  | inSize
  | startBitpos
  | bitpos
  | outLen
  deriving DecidableEq, Repr

/-- The register with a number, 0 to 5 (10_state.md R50). -/
def hostRegOf (n : Nat) : Option HostReg :=
  [HostReg.ctrl, .status, .inSize, .startBitpos, .bitpos, .outLen][n]?

/-- Reading a register, without side effect; `CTRL` reads as 0 (10_state.md R50 to R53, 70 R360). That `CTRL`, `IN_SIZE` and
`START_BITPOS` answer while the core is running too is the model's: DESIGN CHOICE (log entry 25). -/
def hostReadReg (r : HostReg) (s : State) : Nat :=
  match r with
  | .ctrl => 0
  | .status => (status s).toNat
  | .inSize => s.inSize
  | .startBitpos => s.startBitpos
  | .bitpos => s.bitpos
  | .outLen => s.outLen

/-- `START` (70 R353): six registers change; the fixed table is kept, and no byte of `OUT` is valid, since `OUT_LEN` is 0. -/
def start (s : State) : State :=
  { s with
    mode := .readBlockHeader
    err := none
    bfinal := false
    dynValid := false
    bitpos := s.startBitpos
    outLen := 0 }

/-- The premises on a new `IN_SIZE` (70 R361). -/
def inSizeOk (c : Config) (v : Nat) : Bool := decide (v ≤ c.inMax) && decide (8 * v < 2 ^ c.counterWidth)

/-- Writing a register (10_state.md R50, R51; 70 R360). `CTRL`: bit 0 starts a halted machine and nothing else has an effect. -/
def hostWriteReg (r : HostReg) (v : Nat) (s : State) : Host.Outcome State Fault Refusal :=
  match r with
  | .ctrl => .next (if v % 2 = 1 ∧ s.mode.running = false then start s else s)
  | .inSize =>
    if s.mode.running then .refused .hostWriteWhileRunning
    else if inSizeOk s.cfg v then .next { s with inSize := v }
    else .fault .premiseBroken
  | .startBitpos =>
    if s.mode.running then .refused .hostWriteWhileRunning
    else if v < 2 ^ s.cfg.counterWidth then .next { s with startBitpos := v }
    else .fault .premiseBroken
  | .status => .refused .hostWriteOfReadOnly
  | .bitpos => .refused .hostWriteOfReadOnly
  | .outLen => .refused .hostWriteOfReadOnly

/-- Writing one byte of `IN`, while halted (10_state.md R40, 70 R360). -/
def hostWriteIn (a : Nat) (b : Byte) (s : State) : Host.Outcome State Fault Refusal :=
  if s.mode.running then .refused .hostWriteWhileRunning
  else if a < s.cfg.inMax then .next { s with inMem := memWrite s.inMem a b }
  else .fault .inAddressOutOfRange

/-- Reading one byte of `OUT`, while halted (70 R360): the byte `OUT` holds. A read has no side effect, so it is idempotent
(20_memory.md R78, 10_state.md R56). The byte is meaningful below `OUT_LEN` of a run that is `Done` (10_state.md R41, R53); any other
is whatever the contents are, which are open where the spec leaves them so (93 U5, U6; log entry 14). -/
def hostReadOut (a : Nat) (s : State) : Host.Outcome Byte Fault Refusal :=
  if s.mode.running then .refused .hostReadOutWhileRunning
  else if outHas s.cfg a then .next (outRead s a)
  else .fault .outAddressOutOfRange

/-- Reset, allowed at any time (70 R350, R360): what `IN`, `OUT` and `TBL` hold after it is any contents the caller names (70 R351;
log entry 20). The parameters stay, and so does the model's own counter. -/
def hostReset (inMem outMem : Memory) (fixll clt ll dt : DecodeTable) (s : State) : State :=
  State.afterReset s.cfg inMem outMem fixll clt ll dt s.freeCount

/-- One host move after another. -/
def andThen (o : Host.Outcome State Fault Refusal) (f : State → Host.Outcome State Fault Refusal) :
    Host.Outcome State Fault Refusal :=
  match o with
  | .next s => f s
  | .fault r => .fault r
  | .refused r => .refused r

/-- Writing bytes of `IN` at consecutive addresses. -/
def hostWriteInList : List Byte → Nat → State → Host.Outcome State Fault Refusal
  | [], _, s => .next s
  | b :: bs, a, s => andThen (hostWriteIn a b s) (hostWriteInList bs (a + 1))

/-- What the host does before a run and the start itself (70 R352): the bytes, `IN_SIZE`, `START_BITPOS`, `CTRL.START`. -/
def hostLaunch (bytes : List Byte) (startBit : Nat) (s : State) : Host.Outcome State Fault Refusal :=
  andThen (hostWriteInList bytes 0 s) (fun s1 =>
    andThen (hostWriteReg .inSize bytes.length s1) (fun s2 =>
      andThen (hostWriteReg .startBitpos startBit s2) (hostWriteReg .ctrl 1)))

/-- What the host can observe at the end of a run (70 R362). -/
structure Observation where
  mode   : Mode
  err    : Option ErrCode
  bfinal : Bool
  bitpos : Nat
  outLen : Nat
  out    : List Byte
  deriving DecidableEq, Repr

/-- The observation of a state: the bytes of `OUT` count only when `Done` (70 R362). -/
def observe (s : State) : Observation :=
  ⟨s.mode, s.err, s.bfinal, s.bitpos, s.outLen, if s.mode = .done then memReadList s.outMem 0 s.outLen else []⟩

end Sys2Proof.Machine
end

