-- ==== Sys2Proof/Machine/Gzip.lean ====
section
/-! DEFINITION. The host's procedure `decompress` (46_host_gzip_container.md R290 to R298): parsing the GZIP container and driving
the core. Outside the core (00_scope.md R6); the CRC is not computed (R299). -/

namespace Sys2Proof.Machine

/-- Byte `a` of a file; every caller has checked the bound. -/
def fileByte (F : List Byte) (a : Nat) : Byte := F.getD a 0

/-- `n` bytes little-endian from offset `a` (46 R291). -/
def fileLe (F : List Byte) (a : Nat) : Nat → Nat
  | 0 => 0
  | n + 1 => (fileByte F a).toNat + 256 * fileLe F (a + 1) n

/-- A flag bit of the flags byte at offset 3 (46 R293). -/
def fileFlag (F : List Byte) (i : Nat) : Bool := (fileByte F 3).getLsbD i

/-- The least index from `p` on, among `n` bytes, that holds a zero (46 R290). -/
def findZero (F : List Byte) : Nat → Nat → Option Nat
  | _, 0 => none
  | p, n + 1 => if fileByte F p = 0 then some p else findZero F (p + 1) n

/-- EXTRA: a 2-byte length and that many bytes, all before `stop` (46 R290). -/
def skipExtra (F : List Byte) (stop p : Nat) : Except ErrCode Nat :=
  if fileFlag F 2 then
    if stop < p + 2 then .error .truncatedStream
    else if stop < p + 2 + fileLe F p 2 then .error .truncatedStream
    else .ok (p + 2 + fileLe F p 2)
  else .ok p

/-- NAME (flag 3) or COMMENT (flag 4): the bytes up to a zero before `stop`, which is consumed (46 R290, R294). -/
def readZString (F : List Byte) (flag stop p : Nat) : Except ErrCode (Option (List Byte) × Nat) :=
  if fileFlag F flag then
    match findZero F p (stop - p) with
    | none => .error .truncatedStream
    | some q => .ok (some ((F.drop p).take (q - p)), q + 1)
  else .ok (none, p)

/-- HCRC: two bytes skipped unverified (46 R290, R293). -/
def skipHcrc (F : List Byte) (stop p : Nat) : Except ErrCode Nat :=
  if fileFlag F 1 then (if stop < p + 2 then .error .truncatedStream else .ok (p + 2)) else .ok p

/-- What the container says: the optional strings, the byte at which the payload begins, the trailer's two fields (46 R295). -/
structure GzipHeader where
  name    : Option (List Byte)
  comment : Option (List Byte)
  payload : Nat
  crc32   : Nat
  usize   : Nat
  deriving DecidableEq, Repr

/-- Parsing the container (46 R290). -/
def gzipParse (F : List Byte) : Except ErrCode GzipHeader :=
  if F.length < 3 ∨ fileByte F 0 ≠ 0x1f ∨ fileByte F 1 ≠ 0x8b ∨ fileByte F 2 ≠ 0x08 then .error .invalidMagic
  else if F.length < 18 then .error .trailerMissing
  else do
    let stop := F.length - 8
    let p1 ← skipExtra F stop 10
    let (name, p2) ← readZString F 3 stop p1
    let (comment, p3) ← readZString F 4 stop p2
    let p4 ← skipHcrc F stop p3
    return ⟨name, comment, p4, fileLe F (F.length - 8) 4, fileLe F (F.length - 4) 4⟩

/-- The result of `decompress` (46 R290, R294). -/
structure GzipResult where
  name     : Option (List Byte)
  comment  : Option (List Byte)
  contents : List Byte
  deriving DecidableEq, Repr

/-- What the host returns once the core has halted: the contents when `Done`, the error named by `ERR` otherwise (46 R298). -/
def collect (h : GzipHeader) (s : State) : Except ErrCode GzipResult :=
  match s.err with
  | some e => .error e
  | none => .ok ⟨h.name, h.comment, memReadList s.outMem 0 s.outLen⟩

/-- `decompress(F)` on a halted core `s` (46 R290, R296, R298). The whole file is loaded; the host's own errors do not touch the
core; a file the core cannot hold stops the move as `hostLaunch` says. -/
def decompress (F : List Byte) (s : State) : Host.Outcome (Except ErrCode GzipResult) Fault Refusal :=
  match gzipParse F with
  | .error e => .next (.error e)
  | .ok h =>
    match hostLaunch F (8 * h.payload) s with
    | .next s1 => .next (collect h (runToEnd s1))
    | .fault r => .fault r
    | .refused r => .refused r

end Sys2Proof.Machine
end

