-- ==== Sys2Proof/Safety.lean ====
section
/-! DEFINITION. What counts as a good state and a safe run, in the terms the statements use: the invariant every step keeps, and
the relations by which results are described. -/

namespace Sys2Proof.Machine

/-- Both memories are in canonical form and list only bytes that exist: below `IN_MAX`, below `OUT_CAP` (10_state.md R40, R41;
44 R241: no byte at or beyond `OUT_CAP` is ever written). -/
abbrev MemoryInv (s : State) : Prop :=
  Memory.wf s.inMem = true ∧ memBelow s.cfg.inMax s.inMem = true ∧ Memory.wf s.outMem = true ∧ outWithin s.cfg s.outMem = true

/-- `OUT_LEN` is within `OUT_CAP` (44 R241, 70 R361). -/
abbrev CapacityInv (s : State) : Prop := exceedsCap s 0 = false

/-- `ERR` is non-zero exactly in `Error` (10_state.md R34), where `OUT_LEN` is 0 (60 R337); it never holds a code of the host's
(60 R311, R319). -/
abbrev ErrorInv (s : State) : Prop :=
  (s.mode = .error ↔ s.err ≠ none) ∧ (s.mode = .error → s.outLen = 0) ∧
    s.err ≠ some .invalidMagic ∧ s.err ≠ some .trailerMissing

/-- The cursor of a running machine is inside the input, or where `START` put it (10_state.md R32, 70 R353, R361). -/
abbrev CursorInv (s : State) : Prop :=
  s.mode.running = true → s.bitpos ≤ 8 * s.inSize ∨ s.bitpos = s.startBitpos

/-- `FIXED_VALID` means that `TBL.FIXLL` holds the fixed table, which a fixed-Huffman block has (10_state.md R38, R49; 43 R201). -/
abbrev FixedTableInv (s : State) : Prop :=
  (s.fixedValid = true → s.tblFixll = fixedTable) ∧ (s.mode = .fixedHuffman → s.fixedValid = true)

/-- A code-length array `BUILD` accepts, of a size between two bounds (41 R160, R167). -/
abbrev LengthsOk (lo hi : Nat) (lens : List Nat) : Prop :=
  lo ≤ lens.length ∧ lens.length ≤ hi ∧ ∀ l ∈ lens, l < 16

/-- The dynamic state is entered only with `DYN_SUPPORT = 1`, and while `DYN_VALID` holds there the tables are those of a header:
built from 257..288 and 1..32 code lengths (10_state.md R38; 45 R260, R262, R264). -/
def DynTablesInv (s : State) : Prop :=
  s.mode = .dynamicHuffman →
    s.cfg.dynSupport = true ∧
      (s.dynValid = true →
        ∃ L D, LengthsOk 257 288 L ∧ LengthsOk 1 32 D ∧ s.tblLl = tableOf L ∧ s.tblDt = tableOf D)

/-- The invariant every step keeps. -/
def Inv (s : State) : Prop :=
  MemoryInv s ∧ CapacityInv s ∧ ErrorInv s ∧ CursorInv s ∧ FixedTableInv s ∧ DynTablesInv s

/-- The bytes `bs` were appended to `OUT` and every other byte reads as before (10_state.md R35, R41). -/
def Appended (s t : State) (bs : List Byte) : Prop :=
  t.outLen = s.outLen + bs.length ∧
    (∀ k, k < bs.length → outRead t (s.outLen + k) = bs.getD k 0) ∧
    ∀ a, a < s.outLen ∨ s.outLen + bs.length ≤ a → outRead t a = outRead s a

/-- `COPY(length, distance)` as its closed form says it (44 R246): the last `distance` bytes repeated, `length` of them. -/
def copyBytes (s : State) (length distance : Nat) : List Byte :=
  (List.range length).map (fun i => outRead s (s.outLen - distance + i % distance))

/-- The numeric field of `n` bits at stream bit `p` of a state (20_memory.md R71). -/
def field (s : State) (p n : Nat) : Nat := bitsVal (sbit s) p n

/-- The window at stream bit `p` of a state (42 R182). -/
def windowAt (s : State) (p : Nat) : Nat := rev 16 (field s p 16)

/-- `n` bits are left at the cursor (20_memory.md R77). -/
abbrev HasBits (s : State) (n : Nat) : Prop := s.bitpos + n ≤ 8 * s.inSize

/-- Appending `n` bytes does not pass `OUT_CAP` (44 R241). -/
abbrev HasRoom (s : State) (n : Nat) : Prop := exceedsCap s n = false

/-- The match length of length symbol `sym` whose extra bits begin at stream bit `p` (30 R107). -/
def lengthAt (s : State) (sym p : Nat) : Nat := lenBase sym + field s p (lenExtraBits sym)

/-- The distance of distance code `d` whose extra bits begin at stream bit `p` (30 R109). -/
def distanceAt (s : State) (d p : Nat) : Nat := distBase d + field s p (distExtraBits d)

/-- Executing `i` in `s` consumes `bits` bits, appends the bytes `bs`, and does nothing else. -/
def Yields (i : Instr) (s : State) (bits : Nat) (bs : List Byte) : Prop :=
  ∃ t, exec i s = .next t ∧
    t = { s with bitpos := s.bitpos + bits, outLen := s.outLen + bs.length, outMem := t.outMem } ∧ Appended s t bs

/-- Executing `i` in `s` ends the block after `bits` bits, and does nothing else (43 R212). -/
def EndsBlock (i : Instr) (s : State) (bits : Nat) : Prop :=
  exec i s = .next { s with bitpos := s.bitpos + bits, mode := if s.bfinal = true then .done else .readBlockHeader }

/-- Executing `i` in `s` raises `e` (60 R330). -/
def Raises (i : Instr) (s : State) (e : ErrCode) : Prop := exec i s = .next (raise s e)

/-- A state after error entry with code `e` from `s`: what changes, and what becomes unspecified (60 R330). -/
def EntersError (s t : State) (e : ErrCode) : Prop :=
  t = { s with
    mode := .error, err := some e, outLen := 0, outMem := t.outMem,
    tblClt := t.tblClt, tblLl := t.tblLl, tblDt := t.tblDt, dynValid := t.dynValid, freeCount := t.freeCount }

/-- A finished dynamic header: the cursor at `p`, both tables built from the complete sequence, `DYN_VALID` set (45 R264). -/
def headerDone (s : State) (p nl : Nat) (lens : List Nat) : State :=
  { s with bitpos := p, tblLl := tableOf (lens.take nl), tblDt := tableOf (lens.drop nl), dynValid := true }

/-- The bits of `IN` at the cursor begin with `bits`. -/
def StreamHas (s : State) (bits : List Bool) : Prop :=
  ∀ k, k < bits.length → sbit s (s.bitpos + k) = bits.getD k false

/-- The latches of a match: its length and the bits its distance code took (10_state.md R39). -/
def matchLatches (length len : Nat) : Latches := ⟨len, length, ⟨[], 0, 0⟩⟩

/-- Two states a run cannot tell apart by its input: equal but for the bytes of `IN` at or above `IN_SIZE` (20_memory.md R77). -/
def SameInput (s t : State) : Prop :=
  (∀ a, a < s.inSize → inRead s a = inRead t a) ∧ t = { s with inMem := t.inMem }

/-- Two states equal but for the bytes of `OUT` at or above `OUT_LEN` (10_state.md R41, 93 U6). -/
def SameOutput (s t : State) : Prop :=
  (∀ a, a < s.outLen → outRead s a = outRead t a) ∧ t = { s with outMem := t.outMem }

/-- A larger execution that began in `s` answers `t` because a row executed in `u` had outcome `o`: the row's own answer, or the
row's error raised from `s` (60 R330). -/
def GoesOnAs (s : State) (o : Host.Outcome State Fault Refusal) (u t : State) : Prop :=
  (o = .next t ∧ t.mode ≠ .error) ∨ ∃ e, o = .next (raise u e) ∧ t = raise s e

/-- Two states equal but for the dynamic tables, `DYN_VALID` and the free-value counter (45 R268, 93 U7). -/
def SameButDynTables (s t : State) : Prop :=
  t = { s with tblClt := t.tblClt, tblLl := t.tblLl, tblDt := t.tblDt, freeCount := t.freeCount, dynValid := t.dynValid }

/-- The Kraft sum of the code lengths used, times `2 ^ 15`: at most `2 ^ 15` when the code is not over-subscribed (42 R186). -/
def kraft (lens : List Nat) : Nat := ((lens.filter (fun l => decide (0 < l))).map (fun l => 2 ^ (15 - l))).sum

end Sys2Proof.Machine
end

