-- ==== Sys2Proof/Certificates/Slice0/Obligations.lean ====
section
/-! DEFINITION. The statements for the provers. Each docstring names the spec's rule it formalises; a rule number without a file
name is of spec/ as a whole. `Yields`, `EndsBlock`, `Raises`, `EntersError`, `HasBits`, `HasRoom` and the other words are defined in
Sys2Proof/Safety.lean. A frame is always an equation `t = { s with … }`: every field that is not named keeps its value, and
`Appended` says it of every byte of `OUT`. -/

open Sys2Proof Sys2Proof.Machine

/-! ### Reset, the host's port -/

/-- R57, R350: what reset leaves in every register, whatever state it is asserted in and whatever the memories then hold (R351);
`State.reset` is such a state. -/
def Obligations.ResetRegisters : Prop :=
  ∀ (m out : Memory) (fixll clt ll dt : DecodeTable) (s : State),
    let r := hostReset m out fixll clt ll dt s
    r.mode = .idle ∧ r.err = none ∧ r.bfinal = false ∧ r.bitpos = 0 ∧ r.startBitpos = 0 ∧ r.inSize = 0 ∧ r.outLen = 0 ∧
      r.fixedValid = false ∧ r.dynValid = false ∧ status r = 0 ∧ r.cfg = s.cfg ∧
      (r.inMem = m ∧ r.outMem = out ∧ r.tblFixll = fixll ∧ r.tblClt = clt ∧ r.tblLl = ll ∧ r.tblDt = dt) ∧
      ∃ m' o a b c d, State.reset = hostReset m' o a b c d State.reset

/-- The invariant holds after reset, for any tables and any contents of `IN` and `OUT` (R351) in canonical form; in particular of
`State.reset`. -/
def Obligations.ResetHasInvariant : Prop :=
  Inv State.reset ∧
    ∀ (m out : Memory) (fixll clt ll dt : DecodeTable) (s : State), Memory.wf m = true → memBelow s.cfg.inMax m = true →
      Memory.wf out = true → outWithin s.cfg out = true → Inv (hostReset m out fixll clt ll dt s)

/-- The host's writes keep the invariant (R50, R51, R353, R360). -/
def Obligations.HostWritesKeepInvariant : Prop :=
  ∀ (s t : State) (r : HostReg) (v a : Nat) (b : Byte), Inv s →
    (hostWriteReg r v s = .next t → Inv t) ∧ (hostWriteIn a b s = .next t → Inv t)

/-- R353, R51: `START` on a halted core, with nothing else changed; no effect while running or when bit 0 is clear; a start too near
the end of the input fails at the first step (the spec's derivation). -/
def Obligations.StartBeginsRun : Prop :=
  ∀ (s : State) (v : Nat),
    (s.mode.running = false → v % 2 = 1 →
      hostWriteReg .ctrl v s =
        .next { s with
          mode := .readBlockHeader, err := none, bfinal := false, dynValid := false, bitpos := s.startBitpos, outLen := 0 }) ∧
    (s.mode.running = true ∨ v % 2 = 0 → hostWriteReg .ctrl v s = .next s) ∧
    (8 * s.inSize < s.startBitpos + 3 → step (start s) = .next (raise (start s) .truncatedStream))

/-- R50, R53: what the six registers read as, and what a host write does while the core is halted; a write while running is none of the
host's moves (R360, U4 of 93_implementation_defined.md; log entry 13). That the reads of `CTRL`, `IN_SIZE` and `START_BITPOS` hold while
running too is the model's choice (log entry 25). R41, R56, R360, R78 of 20_memory.md: a host read of a byte of `OUT` while halted
answers the byte `OUT` holds and changes nothing; below `OUT_LEN` of a run that is `Done` it is the byte the host observes there
(R53, R362; elsewhere log entry 14). An address `OUT` does not have faults (log entry 13). -/
def Obligations.HostPortMap : Prop :=
  ∀ (s : State) (v a : Nat) (b : Byte),
    ((List.range 7).map (fun n => (hostRegOf n).map (fun r => hostReadReg r s)) =
      [some 0, some (status s).toNat, some s.inSize, some s.startBitpos, some s.bitpos, some s.outLen, none]) ∧
    (s.mode.running = false →
      (v ≤ s.cfg.inMax → 8 * v < 2 ^ s.cfg.counterWidth → hostWriteReg .inSize v s = .next { s with inSize := v }) ∧
      (v < 2 ^ s.cfg.counterWidth → hostWriteReg .startBitpos v s = .next { s with startBitpos := v }) ∧
      (a < s.cfg.inMax → ∃ t, hostWriteIn a b s = .next t ∧ t = { s with inMem := t.inMem } ∧
        (Memory.wf s.inMem = true → inRead t a = b) ∧ ∀ x, x ≠ a → inRead t x = inRead s x)) ∧
    (s.mode.running = true →
      hostWriteReg .inSize v s = .refused .hostWriteWhileRunning ∧
      hostWriteReg .startBitpos v s = .refused .hostWriteWhileRunning ∧
      hostWriteIn a b s = .refused .hostWriteWhileRunning ∧
      hostReadOut a s = .refused .hostReadOutWhileRunning) ∧
    (s.mode.running = false → outHas s.cfg a = true →
      hostReadOut a s = .next (outRead s a) ∧ (s.mode = .done → a < s.outLen → (observe s).out[a]? = some (outRead s a))) ∧
    (s.mode.running = false → outHas s.cfg a = false → hostReadOut a s = .fault .outAddressOutOfRange) ∧
    (outHas s.cfg a = false ↔ ∃ cap, s.cfg.outCap = some cap ∧ cap ≤ a)

/-- R52, R31, R310: the composition of `STATUS`, the encoding of `STATE`, and the code of every error. -/
def Obligations.StatusComposition : Prop :=
  (∀ s : State, (status s).extractLsb' 0 3 = modeNumber s.mode ∧ (status s).getLsbD 3 = s.bfinal ∧
    (status s).extractLsb' 4 4 = errValue s.err) ∧
  [Mode.idle, .readBlockHeader, .stored, .fixedHuffman, .dynamicHuffman, .done, .error].map (fun m => (modeNumber m).toNat) =
    [0, 1, 2, 3, 4, 5, 6] ∧
  [none, some ErrCode.invalidMagic, some .invalidCodeLengthTable, some .corruptHuffmanCode, some .invalidBlockType,
      some .unsupportedDynamicHuffman, some .invalidLengthCode, some .invalidDistanceCode, some .truncatedStream,
      some .trailerMissing, some .distanceBeyondOutput, some .outputCapacityExceeded].map (fun e => (errValue e).toNat) =
    List.range 12

/-- R290: the container checks in their order, and the header of a file without optional fields (R292, R296: the payload begins at
byte 10), whose trailer is its last eight bytes (R295). -/
def Obligations.GzipHeaderChecks : Prop :=
  ∀ F : List Byte,
    (F.length < 3 ∨ F.take 3 ≠ [0x1f, 0x8b, 0x08] → gzipParse F = .error .invalidMagic) ∧
    (F.take 3 = [0x1f, 0x8b, 0x08] → F.length < 18 → gzipParse F = .error .trailerMissing) ∧
    (F.take 3 = [0x1f, 0x8b, 0x08] → 18 ≤ F.length → (F.getD 3 0) &&& 0x1e = 0 →
      gzipParse F = .ok ⟨none, none, 10, fileLe F (F.length - 8) 4, fileLe F (F.length - 4) 4⟩)

/-! ### The step -/

/-- R200, R201, R203, R204, R261, R265: what a step executes. The header, the window or the decoded symbol at the cursor is decoded
by the opcode table and executed; nothing is added around it. R182, R184, R188, R331 (c): a symbol that cannot be decoded raises,
`TruncatedStream` at the strict peek before anything, else `CorruptHuffmanCode`. A halted machine stands still (log entry 2). -/
def Obligations.StepRunsDecoded : Prop :=
  ∀ (s : State) (i : Instr) (x : Latches) (sym len : Nat),
    (s.mode = .readBlockHeader → HasBits s 3 → decode .blkhdr x (field s s.bitpos 3) = .ok i → step s = exec i s) ∧
    (s.mode = .stored → step s = exec .storedBody s) ∧
    (s.mode = .fixedHuffman → s.tblFixll = fixedTable → HasBits s 16 →
      decode .fixll x (windowAt s s.bitpos) = .ok i → step s = exec i s) ∧
    (s.mode = .dynamicHuffman → s.dynValid = false → step s = exec .dynhdr s) ∧
    (s.mode = .dynamicHuffman → s.dynValid = true → HasBits s 16 →
      decodeWindow s.tblLl (windowAt s s.bitpos) = .ok (sym, len) → decode .llsym ⟨len, x.length, x.q⟩ sym = .ok i →
      step s = exec i s) ∧
    (s.mode = .fixedHuffman ∨ (s.mode = .dynamicHuffman ∧ s.dynValid = true) → ¬ HasBits s 16 →
      step s = .next (raise s .truncatedStream)) ∧
    (s.mode = .fixedHuffman → HasBits s 16 → ∀ e, decodeWindow s.tblFixll (windowAt s s.bitpos) = .error e →
      e = .corruptHuffmanCode ∧ step s = .next (raise s .corruptHuffmanCode)) ∧
    (s.mode = .dynamicHuffman → s.dynValid = true → HasBits s 16 →
      ∀ e, decodeWindow s.tblLl (windowAt s s.bitpos) = .error e →
        e = .corruptHuffmanCode ∧ step s = .next (raise s .corruptHuffmanCode)) ∧
    (s.mode.running = false → step s = .next s)

/-- R209, R216 (and log entry 1): the distance part of a match is the row of FIXDIST, or in a dynamic block of DSYM, that the
opcode table gives for the bits after the length's extra bits. If that row answers `t`, so does the match; if it raises, the match
raises the same error from the state before it. -/
def Obligations.MatchRunsDistanceRow : Prop :=
  ∀ (k c d len length : Nat) (i : Instr) (s s1 s2 t : State),
    k < 29 → consume c s = .ok s1 → readLength (257 + k) s1 = .ok (length, s2) → GoesOnAs s (exec i s2) s2 t →
    (∀ row, lengthFixRows[k]? = some row → c = (if k < 23 then 7 else 8) →
      decode .fixdist (matchLatches length 0) (pad (rev 5 (field s2 s2.bitpos 5)) 5) = .ok i → exec row s = .next t) ∧
    (∀ mk, lengthSymRows[k]? = some mk → s.mode = .fixedHuffman →
      decode .fixdist (matchLatches length 0) (pad (rev 5 (field s2 s2.bitpos 5)) 5) = .ok i → exec (mk c) s = .next t) ∧
    (∀ mk, lengthSymRows[k]? = some mk → s.mode ≠ .fixedHuffman → decodeSym s2.tblDt s2 = .ok (d, len) →
      decode .dsym (matchLatches length len) d = .ok i → exec (mk c) s = .next t)

/-- R261, R263, R330 (and log entry 1): a dynamic header, and every code-length symbol that leaves its sequence incomplete, goes on
with the row of CLSYM that the opcode table gives for the symbol decoded next: it answers what that row answers, or raises the same
error from its own state. -/
def Obligations.HeaderRunsCodeLengthRows : Prop :=
  ∀ (s s1 t : State) (j : Instr) (nl nd sym len : Nat) (lens : List Nat),
    decodeSym s1.tblClt s1 = .ok (sym, len) → decode .clsym ⟨len, 0, ⟨lens, nl, nd⟩⟩ sym = .ok j → lens.length < nl + nd →
    GoesOnAs s (exec j s1) s1 t →
    (∀ cl s0, readDynFields s = .ok (nl, nd, cl, s0) → s1 = setClt (tableOf cl) s0 → lens = [] →
      exec .dynhdr s = .next t) ∧
    (∀ l c lens0, lens = lens0 ++ [l.toNat] → consume c s = .ok s1 → exec (.clLen l c ⟨lens0, nl, nd⟩) s = .next t) ∧
    (∀ c lens0 s0, consume c s = .ok s0 → clRepeat (nl + nd) lens0 s0 = .ok (lens, s1) →
      exec (.clRep c ⟨lens0, nl, nd⟩) s = .next t) ∧
    (∀ c lens0 s0, consume c s = .ok s0 → clZeros 3 3 (nl + nd) lens0 s0 = .ok (lens, s1) →
      exec (.clZero3 c ⟨lens0, nl, nd⟩) s = .next t) ∧
    (∀ c lens0 s0, consume c s = .ok s0 → clZeros 11 7 (nl + nd) lens0 s0 = .ok (lens, s1) →
      exec (.clZero11 c ⟨lens0, nl, nd⟩) s = .next t)

/-! ### Encodings -/

/-- R126: a few values written out from the table's encodings decode to the elements they stand for. -/
def Obligations.DecodedWords : Prop :=
  ∀ x : Latches,
    decode .blkhdr x 0b011 = .ok (.hdrFixed true) ∧ decode .blkhdr x 0b100 = .ok (.hdrDynamic false) ∧
    decode .storedBody x 0 = .ok .storedBody ∧ decode .dynhdrBody x 0 = .ok .dynhdr ∧
    decode .fixll x 0b0011011011111111 = .ok (.lit0to15 6) ∧ decode .fixll x 0b1100100010101010 = .ok (.lit144to159 1) ∧
    decode .fixll x 0b0000000111111111 = .ok .eobFix ∧ decode .fixll x 0b0000001000000000 = .ok .len257Fix ∧
    decode .fixll x 0b1100010100000000 = .ok .len285Fix ∧ decode .fixll x 0b1100011011111111 = .ok .ll286Fix ∧
    decode .fixdist x 0b0010100000000000 = .ok (.dist5Fix x.length) ∧
    decode .fixdist x 0b1111011111111111 = .ok (.dist30Fix x.length) ∧
    decode .llsym x 0b001100001 = .ok (.lit 97 x.len) ∧ decode .llsym x 0b100000000 = .ok (.eobSym x.len) ∧
    decode .llsym x 0b100011101 = .ok (.len285Sym x.len) ∧ decode .dsym x 0b11101 = .ok (.dist29Sym x.length x.len) ∧
    decode .clsym x 0b00111 = .ok (.clLen 7 x.len x.q) ∧ decode .clsym x 0b10010 = .ok (.clZero11 x.len x.q)

/-- Decode and encode agree: every well-formed element, with every operand at every value, decodes from its own encoding. -/
def Obligations.DecodeEncodeAgree : Prop :=
  ∀ i : Instr, i.wf = true → decode i.format i.latches (encode i) = .ok i

/-- R126: a decoded row matches, `value &&& mask = match`, and is of the format asked for; every value a format can hold decodes. -/
def Obligations.DecodeMatchesTable : Prop :=
  ∀ (f : Format) (x : Latches) (v : Nat),
    (∀ i, decode f x v = .ok i → v &&& i.row.1 = i.row.2 ∧ i.format = f) ∧
    (v < (match f with
      | .blkhdr => 8
      | .storedBody | .dynhdrBody => 1
      | .fixll | .fixdist => 2 ^ 16
      | .llsym => 288
      | .dsym => 32
      | .clsym => 19) → ∃ i, decode f x v = .ok i)

/-- R126: within one format no value matches two rows. -/
def Obligations.RowsDisjoint : Prop :=
  ∀ (i j : Instr) (v : Nat), i.format = j.format → v &&& i.row.1 = i.row.2 → v &&& j.row.1 = j.row.2 → i.row = j.row

/-! ### The bit cursor -/

/-- R140, R141, R143: what a peek and a read of 0 to 16 bits return, bit by bit, what they change, and when they raise. -/
def Obligations.PeekAndReadBits : Prop :=
  ∀ (n : Nat) (s : State) (width : n ≤ 16),
    (HasBits s n → ∃ v, peekBits n s width = .ok v ∧ readBits n s width = .ok (v, { s with bitpos := s.bitpos + n }) ∧
      ∀ i, v.testBit i = (decide (i < n) && (inRead s ((s.bitpos + i) / 8)).getLsbD ((s.bitpos + i) % 8))) ∧
    (¬ HasBits s n → peekBits n s width = .error .truncatedStream ∧ readBits n s width = .error .truncatedStream)

/-- R74 (the spec's derivation): reading `n` bits and then `m` bits is reading `n + m` bits, low part first. -/
def Obligations.MixedWidthReads : Prop :=
  ∀ (n m v : Nat) (s t : State) (width : n + m ≤ 16),
    readBits (n + m) s width = .ok (v, t) ↔
      ∃ a b u, readBits n s (Nat.le_trans (Nat.le_add_right n m) width) = .ok (a, u) ∧
        readBits m u (Nat.le_trans (Nat.le_add_left m n) width) = .ok (b, t) ∧ v = a + b * 2 ^ n

/-- R142: `align_to_byte`. -/
def Obligations.AlignToByte : Prop :=
  ∀ s : State,
    let t := alignToByte s
    t = { s with bitpos := t.bitpos } ∧ t.bitpos % 8 = 0 ∧ s.bitpos ≤ t.bitpos ∧ t.bitpos < s.bitpos + 8 ∧
      (s.bitpos % 8 = 0 → t = s) ∧ (s.bitpos ≤ 8 * s.inSize → t.bitpos ≤ 8 * s.inSize)

/-- R16, R17, R182: bit reversal, padding, and the window, bit 15 of which is the first stream bit. -/
def Obligations.ReversalPaddingWindow : Prop :=
  (∀ n v : Nat, rev n v < 2 ^ n ∧ ∀ i, i < n → (rev n v).testBit i = v.testBit (n - 1 - i)) ∧
  (∀ c len : Nat, 1 ≤ len → len ≤ 15 → c < 2 ^ len → unpad (pad c len) len = c) ∧
  (∀ (s : State) (p i : Nat), i < 16 → (windowAt s p).testBit (15 - i) = sbit s (p + i))

/-- R73 (the spec's derivation): a 16-bit numeric field at a byte boundary is little-endian. -/
def Obligations.LenLittleEndian : Prop :=
  ∀ (s : State) (a : Nat), field s (8 * a) 16 = (inRead s a).toNat + 256 * (inRead s (a + 1)).toNat

/-! ### The table builder -/

/-- R167, R160: on its operands `BUILD` raises exactly when some code length is 16 or more, and then builds nothing; the operands are
at most 288 code lengths of 8 bits. -/
def Obligations.BuildRejects : Prop :=
  ∀ lens : List Nat,
    ((∃ l, l ∈ lens ∧ 16 ≤ l) → build lens = .error .invalidCodeLengthTable) ∧
    (lens.length ≤ 288 → (∀ l, l ∈ lens → l < 16) → build lens = .ok (tableOf lens)) ∧
    (buildInput lens = true ↔ lens.length ≤ 288 ∧ ∀ l, l ∈ lens → l < 256)

/-- R162, R163, R43 (a), (b), (d): which symbols a bucket holds, in which order, and how many. -/
def Obligations.BuildBuckets : Prop :=
  ∀ lens : List Nat, lens.length ≤ maxSym →
    (∀ len, 1 ≤ len → len ≤ 15 →
      (∀ sym, sym ∈ ((tableOf lens).symbols len).map BitVec.toNat ↔ lens[sym]? = some len) ∧
      (((tableOf lens).symbols len).map BitVec.toNat).Pairwise (fun a b => a < b) ∧
      (tableOf lens).count len = lens.count len) ∧
    (tableOf lens).bucket 0 = ⟨[], 0⟩ ∧
    ((List.range' 1 15).map (fun len => (tableOf lens).count len)).sum ≤ lens.length

/-- R164, R165: the start codes, by their closed sum, satisfy the recurrence; the padded code is the start code left-justified in
16 bits. -/
def Obligations.BuildStartCodes : Prop :=
  ∀ (lens : List Nat) (len : Nat), 1 ≤ len → len ≤ 15 →
    startCode lens len = ((List.range' 1 (len - 1)).map (fun l => lens.count l * 2 ^ (len - l))).sum ∧
    startCode lens (len + 1) = (startCode lens len + lens.count len) * 2 ∧
    (tableOf lens).padded len = (startCode lens len * 2 ^ (16 - len)) % 2 ^ 16

/-- R166: `last` is the largest populated length, or 0. -/
def Obligations.LastPopulated : Prop :=
  ∀ T : DecodeTable, T.last ≤ 15 ∧ (T.last = 0 ∨ 0 < T.count T.last) ∧ ∀ len, T.last < len → len ≤ 15 → T.count len = 0

/-- R45, R46, R47, R48: the shape of the read-only tables (each base follows from the entry before it, but for symbol 285), the ranges
of a length and a distance, the code lengths of the fixed alphabet, and the order of the code-length-code lengths. -/
def Obligations.RomTables : Prop :=
  romLenExtra.length = 29 ∧ romDistExtra.length = 30 ∧
  (∀ (s : State) (k p : Nat), k < 29 → 3 ≤ lengthAt s (257 + k) p ∧ lengthAt s (257 + k) p ≤ 258) ∧
  (∀ (s : State) (d p : Nat), d < 30 → 1 ≤ distanceAt s d p ∧ distanceAt s d p ≤ 32768) ∧
  (∀ k, k < 27 → lenBase (257 + k + 1) = lenBase (257 + k) + 2 ^ lenExtraBits (257 + k)) ∧
  (∀ d, d < 29 → distBase (d + 1) = distBase d + 2 ^ distExtraBits d) ∧
  (∀ sym, sym < 288 → romFixedLengths.getD sym 0 = if sym < 144 then 8 else if sym < 256 then 9 else if sym < 280 then 7 else 8) ∧
  romClOrder = [16, 17, 18, 0, 8, 7, 9, 6, 10, 5, 11, 4, 12, 3, 13, 2, 14, 1, 15]

/-- R49 (the spec's derivation): the content of `TBL.FIXLL`. -/
def Obligations.FixedTableContents : Prop :=
  build romFixedLengths = .ok fixedTable ∧
  fixedTable.symbols 7 = (List.range' 256 24).map (BitVec.ofNat 16) ∧
  fixedTable.symbols 8 = (List.range 144 ++ List.range' 280 8).map (BitVec.ofNat 16) ∧
  fixedTable.symbols 9 = (List.range' 144 112).map (BitVec.ofNat 16) ∧
  (∀ len, len < 16 → len ≠ 7 → len ≠ 8 → len ≠ 9 → fixedTable.bucket len = ⟨[], 0⟩) ∧
  fixedTable.padded 7 = 0 ∧ fixedTable.padded 8 = 0x3000 ∧ fixedTable.padded 9 = 0xC800 ∧ fixedTable.last = 9

/-! ### The symbol decoder -/

/-- R180, R182, R184, R188: `DECODE` on any table: the strict peek comes first, the result is a symbol of a bucket, the only other
outcome is `CorruptHuffmanCode`, and the empty table gives nothing else (R185). -/
def Obligations.DecodeStaysInTable : Prop :=
  ∀ (T : DecodeTable) (s : State) (w : Nat),
    (¬ HasBits s 16 → decodeSym T s = .error .truncatedStream) ∧
    (HasBits s 16 → decodeSym T s = decodeWindow T (windowAt s s.bitpos)) ∧
    (decodeWindow T w = .error .corruptHuffmanCode ∨
      ∃ len sym, 1 ≤ len ∧ len ≤ 15 ∧ sym ∈ T.symbols len ∧ decodeWindow T w = .ok (sym.toNat, len)) ∧
    (T.last = 0 → decodeWindow T w = .error .corruptHuffmanCode)

/-- R104, R187 (the spec's derivations): the fixed table decodes every window, by the ranges of the code. -/
def Obligations.FixedCodeDecodes : Prop :=
  ∀ w : Nat, w < 2 ^ 16 →
    decodeWindow fixedTable w = .ok
      (if w < 0x3000 then (256 + w / 2 ^ 9, 7)
       else if w < 0xC000 then (w / 2 ^ 8 - 48, 8)
       else if w < 0xC800 then (280 + (w / 2 ^ 8 - 192), 8)
       else (144 + (w / 2 ^ 7 - 400), 9))

/-- R186 (the spec's derivation): with a table that is not over-subscribed the decoder returns the symbol whose canonical code is a
prefix of the window, raises when there is none, and never raises when the code is complete. -/
def Obligations.CanonicalCodeDecodes : Prop :=
  ∀ (lens : List Nat) (w : Nat), lens.length ≤ maxSym → (∀ l, l ∈ lens → l < 16) → kraft lens ≤ 2 ^ 15 → w < 2 ^ 16 →
    (∀ len idx, 1 ≤ len → len ≤ 15 → idx < lens.count len → unpad w len = startCode lens len + idx →
      decodeWindow (tableOf lens) w = .ok ((((tableOf lens).symbols len).getD idx 0).toNat, len)) ∧
    ((∀ len idx, 1 ≤ len → len ≤ 15 → idx < lens.count len → unpad w len ≠ startCode lens len + idx) →
      decodeWindow (tableOf lens) w = .error .corruptHuffmanCode) ∧
    (kraft lens = 2 ^ 15 → ∃ r, decodeWindow (tableOf lens) w = .ok r)

/-! ### The reconstructor -/

/-- R241, R243, R245, and the closed form R246: `COPY`, its two errors in their order, and the capacity test. -/
def Obligations.CopyResult : Prop :=
  ∀ (length distance : Nat) (s : State),
    (exceedsCap s length = true ↔ ∃ cap, s.cfg.outCap = some cap ∧ cap < s.outLen + length) ∧
    (s.outLen < distance → copy length distance s = .error .distanceBeyondOutput) ∧
    (distance ≤ s.outLen → exceedsCap s length = true → copy length distance s = .error .outputCapacityExceeded) ∧
    (MemoryInv s → 1 ≤ distance → distance ≤ s.outLen → HasRoom s length →
      ∃ t, copy length distance s = .ok t ∧ t = { s with outLen := s.outLen + length, outMem := t.outMem } ∧
        Appended s t (copyBytes s length distance) ∧ MemoryInv t)

/-! ### Headers and bodies -/

/-- R201, R205, R206: the four block headers (HDR_STORED, HDR_FIXED, HDR_DYNAMIC, HDR_RESERVED), what each writes, and their errors
in order. -/
def Obligations.HeaderRows : Prop :=
  ∀ (f : Bool) (s : State),
    (HasBits s 3 →
      exec (.hdrStored f) s = .next { s with bitpos := s.bitpos + 3, bfinal := f, mode := .stored } ∧
      exec (.hdrFixed f) s =
        .next { s with
          bitpos := s.bitpos + 3, bfinal := f, mode := .fixedHuffman, fixedValid := true,
          tblFixll := if s.fixedValid = true then s.tblFixll else fixedTable } ∧
      (s.cfg.dynSupport = true →
        exec (.hdrDynamic f) s =
          .next { s with bitpos := s.bitpos + 3, bfinal := f, mode := .dynamicHuffman, dynValid := false }) ∧
      (s.cfg.dynSupport = false → Raises (.hdrDynamic f) s .unsupportedDynamicHuffman) ∧
      Raises (.hdrReserved f) s .invalidBlockType) ∧
    (¬ HasBits s 3 →
      Raises (.hdrStored f) s .truncatedStream ∧ Raises (.hdrFixed f) s .truncatedStream ∧
      Raises (.hdrDynamic f) s .truncatedStream ∧ Raises (.hdrReserved f) s .truncatedStream ∧
      (s.mode = .readBlockHeader → step s = .next (raise s .truncatedStream)))

/-- R203, R102, R247: the stored body (STORED_BODY): the copy, where it ends, and its errors in order. `a` is the byte after the
length fields of an aligned cursor. -/
def Obligations.StoredBodyStep : Prop :=
  ∀ s : State,
    let a := (s.bitpos + 7) / 8 + 4
    let n := field s (8 * ((s.bitpos + 7) / 8)) 16
    (MemoryInv s → a + n ≤ s.inSize → HasRoom s n →
      ∃ t, exec .storedBody s = .next t ∧
        t = { s with
          bitpos := 8 * (a + n), outLen := s.outLen + n, outMem := t.outMem,
          mode := if s.bfinal = true then .done else .readBlockHeader } ∧
        Appended s t ((List.range n).map (fun k => inRead s (a + k)))) ∧
    (s.inSize < a + n → Raises .storedBody s .truncatedStream) ∧
    (a + n ≤ s.inSize → exceedsCap s n = true → Raises .storedBody s .outputCapacityExceeded)

/-- R102, R115, R203: the padding bits, NLEN, and everything else in `IN` but LEN and the data have no influence on a stored body. -/
def Obligations.StoredBodyIgnores : Prop :=
  ∀ (s t : State) (m : Memory),
    let b := (s.bitpos + 7) / 8
    let n := field s (8 * b) 16
    (∀ x, x = b ∨ x = b + 1 ∨ (b + 4 ≤ x ∧ x < b + 4 + n) → memRead m x = inRead s x) →
      exec .storedBody s = .next t → exec .storedBody { s with inMem := m } = .next { t with inMem := m }

/-! ### Symbols -/

/-- R207: the literals (LIT_0_15, LIT_16_79, LIT_80_143, LIT_144_159, LIT_160_191, LIT_192_255 of FIXLL, and LIT of LLSYM): one byte,
the symbol itself. -/
def Obligations.LiteralRows : Prop :=
  ∀ s : State, MemoryInv s → HasRoom s 1 →
    (HasBits s 8 →
      (∀ x, Yields (.lit0to15 x) s 8 [BitVec.ofNat 8 x.toNat]) ∧
      (∀ x, Yields (.lit16to79 x) s 8 [BitVec.ofNat 8 (16 + x.toNat)]) ∧
      (∀ x, Yields (.lit80to143 x) s 8 [BitVec.ofNat 8 (80 + x.toNat)])) ∧
    (HasBits s 9 →
      (∀ x, Yields (.lit144to159 x) s 9 [BitVec.ofNat 8 (144 + x.toNat)]) ∧
      (∀ x, Yields (.lit160to191 x) s 9 [BitVec.ofNat 8 (160 + x.toNat)]) ∧
      (∀ x, Yields (.lit192to255 x) s 9 [BitVec.ofNat 8 (192 + x.toNat)])) ∧
    (∀ b len, HasBits s len → Yields (.lit b len) s len [b])

/-- R242, R241: a literal that does not fit in `OUT`; and a code that passes the end of `IN` (log entry 10), which comes first. -/
def Obligations.LiteralErrors : Prop :=
  ∀ (s : State) (x : BitVec 4) (y : BitVec 6) (z : BitVec 5) (b : Byte) (len : Nat),
    (exceedsCap s 1 = true →
      (HasBits s 8 →
        Raises (.lit0to15 x) s .outputCapacityExceeded ∧ Raises (.lit16to79 y) s .outputCapacityExceeded ∧
        Raises (.lit80to143 y) s .outputCapacityExceeded) ∧
      (HasBits s 9 →
        Raises (.lit144to159 x) s .outputCapacityExceeded ∧ Raises (.lit160to191 z) s .outputCapacityExceeded ∧
        Raises (.lit192to255 y) s .outputCapacityExceeded) ∧
      (HasBits s len → Raises (.lit b len) s .outputCapacityExceeded)) ∧
    (¬ HasBits s 8 →
      Raises (.lit0to15 x) s .truncatedStream ∧ Raises (.lit16to79 y) s .truncatedStream ∧
      Raises (.lit80to143 y) s .truncatedStream) ∧
    (¬ HasBits s 9 →
      Raises (.lit144to159 x) s .truncatedStream ∧ Raises (.lit160to191 z) s .truncatedStream ∧
      Raises (.lit192to255 y) s .truncatedStream) ∧
    (¬ HasBits s len → Raises (.lit b len) s .truncatedStream)

/-- R208, R212: the end-of-block symbol (EOB of FIXLL and of LLSYM) performs the block-end transition and nothing else. -/
def Obligations.EndOfBlockRows : Prop :=
  ∀ (s : State) (len : Nat), (HasBits s 7 → EndsBlock .eobFix s 7) ∧ (HasBits s len → EndsBlock (.eobSym len) s len)

/-- R210: the length symbols 286 and 287 (LL_286, LL_287 of FIXLL and of LLSYM), and any larger symbol a table could hold, raise
`InvalidLengthCode` before anything after their code is read. -/
def Obligations.InvalidLengthSymbols : Prop :=
  ∀ (s : State) (sym len : Nat),
    (HasBits s 8 → Raises .ll286Fix s .invalidLengthCode ∧ Raises .ll287Fix s .invalidLengthCode) ∧
    (HasBits s len → Raises (.ll286Sym len) s .invalidLengthCode ∧ Raises (.ll287Sym len) s .invalidLengthCode) ∧
    (s.mode = .dynamicHuffman → s.dynValid = true → HasBits s 16 →
      decodeWindow s.tblLl (windowAt s s.bitpos) = .ok (sym, len) → 286 ≤ sym →
      step s = .next (raise s .invalidLengthCode))

/-- R209, R105 to R109: a match of the fixed code (LEN_257 to LEN_285 of FIXLL): the four fields in their order, and the copy. `p1`,
`p2`, `p3`, `p4` are where the fields after the length symbol begin and the last one ends. -/
def Obligations.MatchFixedCode : Prop :=
  ∀ (k : Nat) (row : Instr) (s : State), k < 29 → lengthFixRows[k]? = some row → MemoryInv s →
    let p1 := s.bitpos + (if k < 23 then 7 else 8)
    let p2 := p1 + lenExtraBits (257 + k)
    let d := rev 5 (field s p2 5)
    let p3 := p2 + 5
    let p4 := p3 + distExtraBits d
    let length := lengthAt s (257 + k) p1
    let distance := distanceAt s d p3
    d < 30 → p4 ≤ 8 * s.inSize → distance ≤ s.outLen → HasRoom s length →
      Yields row s (p4 - s.bitpos) (copyBytes s length distance)

/-- R265, R209, R216: a match whose length symbol took `c` bits (LEN_257 to LEN_285 of LLSYM): in a fixed-Huffman block the distance
code is the raw 5-bit field, otherwise the symbol decoded with `TBL.DT`. -/
def Obligations.MatchDecodedSymbol : Prop :=
  ∀ (k c : Nat) (mk : Nat → Instr) (s : State), k < 29 → lengthSymRows[k]? = some mk → MemoryInv s →
    let p1 := s.bitpos + c
    let p2 := p1 + lenExtraBits (257 + k)
    let length := lengthAt s (257 + k) p1
    HasRoom s length →
    (s.mode = .fixedHuffman →
      let d := rev 5 (field s p2 5)
      let p4 := p2 + 5 + distExtraBits d
      d < 30 → p4 ≤ 8 * s.inSize → distanceAt s d (p2 + 5) ≤ s.outLen →
        Yields (mk c) s (p4 - s.bitpos) (copyBytes s length (distanceAt s d (p2 + 5)))) ∧
    (s.mode ≠ .fixedHuffman → ∀ d len,
      p2 + 16 ≤ 8 * s.inSize → decodeWindow s.tblDt (windowAt s p2) = .ok (d, len) →
      let p4 := p2 + len + distExtraBits d
      d < 30 → p4 ≤ 8 * s.inSize → distanceAt s d (p2 + len) ≤ s.outLen →
        Yields (mk c) s (p4 - s.bitpos) (copyBytes s length (distanceAt s d (p2 + len))))

/-- R331 (c), R209, R211, R245, R241: the error of a match, in the order the stream is consumed, for the fixed code and for a
dynamic block; `e` is the first one met. -/
def Obligations.MatchErrorOrder : Prop :=
  ∀ (k c : Nat) (s : State) (e : ErrCode), k < 29 →
    (∀ row, lengthFixRows[k]? = some row →
      let p1 := s.bitpos + (if k < 23 then 7 else 8)
      let p2 := p1 + lenExtraBits (257 + k)
      let d := rev 5 (field s p2 5)
      (if 8 * s.inSize < p2 + 5 then e = .truncatedStream
       else if 30 ≤ d then e = .invalidDistanceCode
       else if 8 * s.inSize < p2 + 5 + distExtraBits d then e = .truncatedStream
       else if s.outLen < distanceAt s d (p2 + 5) then e = .distanceBeyondOutput
       else exceedsCap s (lengthAt s (257 + k) p1) = true ∧ e = .outputCapacityExceeded) → Raises row s e) ∧
    (∀ mk, lengthSymRows[k]? = some mk → s.mode ≠ .fixedHuffman →
      let p1 := s.bitpos + c
      let p2 := p1 + lenExtraBits (257 + k)
      (if 8 * s.inSize < p2 + 16 then e = .truncatedStream
       else match decodeWindow s.tblDt (windowAt s p2) with
        | .error e1 => e = e1
        | .ok (d, len) =>
          if 30 ≤ d then e = .invalidDistanceCode
          else if 8 * s.inSize < p2 + len + distExtraBits d then e = .truncatedStream
          else if s.outLen < distanceAt s d (p2 + len) then e = .distanceBeyondOutput
          else exceedsCap s (lengthAt s (257 + k) p1) = true ∧ e = .outputCapacityExceeded) → Raises (mk c) s e)

/-- R108, R109, R209: the distance rows 0 to 29 (DIST_0 to DIST_29 of FIXDIST and of DSYM) in a match of the given length: the extra
bits and the copy. -/
def Obligations.DistanceRows : Prop :=
  ∀ (d length : Nat) (s : State), d < 30 → MemoryInv s → HasRoom s length →
    (∀ mk, distFixRows[d]? = some mk → HasBits s (5 + distExtraBits d) → distanceAt s d (s.bitpos + 5) ≤ s.outLen →
      Yields (mk length) s (5 + distExtraBits d) (copyBytes s length (distanceAt s d (s.bitpos + 5)))) ∧
    (∀ mk len, distSymRows[d]? = some mk → HasBits s (len + distExtraBits d) →
      distanceAt s d (s.bitpos + len) ≤ s.outLen →
      Yields (mk length len) s (len + distExtraBits d) (copyBytes s length (distanceAt s d (s.bitpos + len))))

/-- R211: distance codes 30 and 31 (DIST_30, DIST_31 of FIXDIST and of DSYM) raise `InvalidDistanceCode` before any extra bit is
read. That they are instructions of their own, whose error entry keeps the cursor at the distance code, is the model's choice (log
entry 1); inside a match the cursor is restored to the length symbol (MatchRunsDistanceRow, MatchErrorOrder). -/
def Obligations.InvalidDistanceCodes : Prop :=
  ∀ (s : State) (length len : Nat),
    (HasBits s 5 → Raises (.dist30Fix length) s .invalidDistanceCode ∧ Raises (.dist31Fix length) s .invalidDistanceCode) ∧
    (HasBits s len →
      Raises (.dist30Sym length len) s .invalidDistanceCode ∧ Raises (.dist31Sym length len) s .invalidDistanceCode)

/-! ### The dynamic header -/

/-- R262, R117: the fixed fields of a dynamic header, and the order of the code-length-code lengths. -/
def Obligations.DynHeaderFields : Prop :=
  ∀ s : State,
    let n := field s (s.bitpos + 10) 4 + 4
    (HasBits s (14 + 3 * n) →
      ∃ cl, readDynFields s =
          .ok (field s s.bitpos 5 + 257, field s (s.bitpos + 5) 5 + 1, cl, { s with bitpos := s.bitpos + 14 + 3 * n }) ∧
        cl.length = 19 ∧
        (∀ i, i < n → cl.getD (romClOrder.getD i 0) 0 = field s (s.bitpos + 14 + 3 * i) 3) ∧
        (∀ i, n ≤ i → i < 19 → cl.getD (romClOrder.getD i 0) 0 = 0)) ∧
    (¬ HasBits s (14 + 3 * n) → readDynFields s = .error .truncatedStream ∧ Raises .dynhdr s .truncatedStream)

/-- R261, R264: the dynamic header (DYNHDR) once its fields are read and its sequence of code lengths is complete: the three tables
are built, and nothing else but the cursor and `DYN_VALID` changes. -/
def Obligations.DynHeaderBuildsTables : Prop :=
  ∀ (s s1 s2 : State) (nl nd : Nat) (cl lens : List Nat),
    readDynFields s = .ok (nl, nd, cl, s1) →
    clLoop (nl + nd) (nl + nd) [] (setClt (tableOf cl) s1) = .ok (lens, s2) →
      lens.length = nl + nd ∧ (∀ l, l ∈ lens → l < 16) ∧ s.bitpos + 26 ≤ s2.bitpos ∧ s2.bitpos ≤ 8 * s.inSize ∧
      exec .dynhdr s =
        .next { s with
          bitpos := s2.bitpos, tblClt := tableOf cl, tblLl := tableOf (lens.take nl), tblDt := tableOf (lens.drop nl),
          dynValid := true }

/-- R263, R266, R330: a dynamic header (DYNHDR) whose coded sequence is malformed raises from the state before the header, with the
cursor at the first bit of HLIT; the error is one of three; and the step does the same. A first symbol that does not decode
raises the error of its decoding, and a sequence that begins with a repeat is malformed. -/
def Obligations.DynHeaderErrors : Prop :=
  ∀ (s s1 : State) (nl nd len : Nat) (cl : List Nat) (e : ErrCode),
    readDynFields s = .ok (nl, nd, cl, s1) →
    let u := setClt (tableOf cl) s1
    (clLoop (nl + nd) (nl + nd) [] u = .error e →
      Raises .dynhdr s e ∧ (e = .truncatedStream ∨ e = .corruptHuffmanCode ∨ e = .invalidCodeLengthTable) ∧
      (s.mode = .dynamicHuffman → s.dynValid = false → step s = .next (raise s e))) ∧
    (decodeSym u.tblClt u = .error e → Raises .dynhdr s e) ∧
    (decodeSym u.tblClt u = .ok (16, len) → Raises .dynhdr s .invalidCodeLengthTable)

/-- R263, R264: the code-length symbols (CL_LEN, CL_REP, CL_ZERO3, CL_ZERO11) when they complete the sequence of `nl + nd` lengths
(log entry 1): what each appends, and the tables built from the whole. `nl` and `nd` are within the operands of `BUILD`. -/
def Obligations.CodeLengthRowsComplete : Prop :=
  ∀ (s : State) (q : ClSeq) (len : Nat), (∀ l, l ∈ q.lens → l < 16) → q.nl ≤ 288 → q.nd ≤ 288 →
    (∀ l : BitVec 4, HasBits s len → q.lens.length + 1 = q.nl + q.nd →
      exec (.clLen l len q) s = .next (headerDone s (s.bitpos + len) q.nl (q.lens ++ [l.toNat]))) ∧
    (∀ v, q.lens.getLast? = some v → HasBits s (len + 2) →
      q.lens.length + (3 + field s (s.bitpos + len) 2) = q.nl + q.nd →
      exec (.clRep len q) s =
        .next (headerDone s (s.bitpos + len + 2) q.nl (q.lens ++ List.replicate (3 + field s (s.bitpos + len) 2) v))) ∧
    (HasBits s (len + 3) → q.lens.length + (3 + field s (s.bitpos + len) 3) = q.nl + q.nd →
      exec (.clZero3 len q) s =
        .next (headerDone s (s.bitpos + len + 3) q.nl (q.lens ++ List.replicate (3 + field s (s.bitpos + len) 3) 0))) ∧
    (HasBits s (len + 7) → q.lens.length + (11 + field s (s.bitpos + len) 7) = q.nl + q.nd →
      exec (.clZero11 len q) s =
        .next (headerDone s (s.bitpos + len + 7) q.nl (q.lens ++ List.replicate (11 + field s (s.bitpos + len) 7) 0)))

/-- R263: the two malformations of a sequence, and that the extra bits are read before the overflow check but after the check for a
previous length, for the rows executed alone: error entry from the row's own state is the model's choice (log entry 1), and that a
code which does not fit the input raises is log entry 10. Inside a header: HeaderRunsCodeLengthRows, DynHeaderErrors. -/
def Obligations.CodeLengthErrors : Prop :=
  ∀ (s : State) (q : ClSeq) (len : Nat),
    (q.lens = [] → HasBits s len → Raises (.clRep len q) s .invalidCodeLengthTable) ∧
    (q.lens ≠ [] → ¬ HasBits s (len + 2) → Raises (.clRep len q) s .truncatedStream) ∧
    (q.lens ≠ [] → HasBits s (len + 2) → q.nl + q.nd < q.lens.length + (3 + field s (s.bitpos + len) 2) →
      Raises (.clRep len q) s .invalidCodeLengthTable) ∧
    (¬ HasBits s (len + 3) → Raises (.clZero3 len q) s .truncatedStream) ∧
    (HasBits s (len + 3) → q.nl + q.nd < q.lens.length + (3 + field s (s.bitpos + len) 3) →
      Raises (.clZero3 len q) s .invalidCodeLengthTable) ∧
    (¬ HasBits s (len + 7) → Raises (.clZero11 len q) s .truncatedStream) ∧
    (HasBits s (len + 7) → q.nl + q.nd < q.lens.length + (11 + field s (s.bitpos + len) 7) →
      Raises (.clZero11 len q) s .invalidCodeLengthTable)

/-! ### Errors -/

/-- R330, R310, R311, R319: error entry, for every element and every step: the state before it with `STATE`, `ERR`, `OUT_LEN` changed
and the listed contents unspecified; the code is never one of the host's. For a row that begins inside an element (FIXDIST, DSYM,
CLSYM) the state kept is the one at the row, not the one before the step: the model's choice (log entry 1). StepErrorEntry is
the rule for steps alone. -/
def Obligations.ErrorEntry : Prop :=
  ∀ (s t : State) (i : Instr), s.mode ≠ .error → t.mode = .error → (exec i s = .next t ∨ step s = .next t) →
    ∃ e, EntersError s t e ∧ e ≠ .invalidMagic ∧ e ≠ .trailerMissing

/-- R330: a step that raises, from any state and for any cause: every field is named that may differ, `BITPOS` and `BFINAL` are not
among them, and a step that enters `Error` is exactly one that raises. -/
def Obligations.StepErrorEntry : Prop :=
  ∀ s t : State, s.mode ≠ .error → step s = .next t →
    (t.mode = .error → ∃ e, EntersError s t e) ∧
    (t.mode ≠ .error → t.err = s.err ∧ s.outLen ≤ t.outLen ∧ t.freeCount = s.freeCount)

/-- R312, R313, R315, R321: which errors a configuration and a block type rule out. -/
def Obligations.ErrorsByConfiguration : Prop :=
  ∀ (s t : State) (e : ErrCode), Inv s → s.mode ≠ .error → step s = .next t → t.err = some e →
    (s.mode = .fixedHuffman → e ≠ .corruptHuffmanCode) ∧
    (s.cfg.dynSupport = false → e ≠ .corruptHuffmanCode ∧ e ≠ .invalidCodeLengthTable) ∧
    (s.cfg.dynSupport = true → e ≠ .unsupportedDynamicHuffman) ∧
    (s.cfg.outCap = none → e ≠ .outputCapacityExceeded)

/-- R200, R337: a halted machine (`Idle`, `Done`, `Error`) stays as it is for as long as the host does nothing; the model gives it
steps that change nothing (log entry 2). -/
def Obligations.HaltedStays : Prop :=
  ∀ (s : State) (n : Nat), (s.mode = .idle ∨ s.mode = .done ∨ s.mode = .error → runSteps n s = s) ∧
    (s.mode.running = false ↔ s.mode = .idle ∨ s.mode = .done ∨ s.mode = .error)

/-! ### Whole-machine rules -/

/-- The headline invariant: every step keeps it, from every state that has it. -/
def Obligations.StepKeepsInvariant : Prop :=
  ∀ s t : State, Inv s → step s = .next t → Inv t

/-- R19, R214 (the spec's derivation): every step of a running machine answers a next state, raises or advances the cursor by the
least of its element, to at most the end of the input, and appends at most what its element can. That a halted machine, to which R200
gives no step, answers a next state too is the model's choice (log entry 2). -/
def Obligations.StepProgress : Prop :=
  ∀ s : State, ∃ t, step s = .next t ∧
    (s.mode.running = true → t.mode ≠ .error → (s.mode = .fixedHuffman → s.tblFixll = fixedTable) →
      t.bitpos ≤ 8 * s.inSize ∧
      (s.mode = .readBlockHeader → t.bitpos = s.bitpos + 3 ∧ t.outLen = s.outLen) ∧
      (s.mode = .stored → s.bitpos + 32 ≤ t.bitpos ∧ t.outLen ≤ s.outLen + 65535) ∧
      (s.mode = .fixedHuffman → s.bitpos + 7 ≤ t.bitpos ∧ t.bitpos ≤ s.bitpos + 31 ∧ t.outLen ≤ s.outLen + 258) ∧
      (s.mode = .dynamicHuffman → s.dynValid = false → s.bitpos + 26 ≤ t.bitpos ∧ t.outLen = s.outLen) ∧
      (s.mode = .dynamicHuffman → s.dynValid = true →
        s.bitpos + 1 ≤ t.bitpos ∧ t.bitpos ≤ s.bitpos + 48 ∧ t.outLen ≤ s.outLen + 258))

/-- R214, R215 (the spec's derivation): every run ends, in `Done` or `Error`, within the bound, and stays there: R200 gives a halted
machine no step, and that further steps of the model change nothing is log entry 2. -/
def Obligations.RunTerminates : Prop :=
  ∀ s : State, s.mode.running = true →
    ((runToEnd s).mode = .done ∨ (runToEnd s).mode = .error) ∧ ∀ n, runBound s ≤ n → runSteps n s = runToEnd s

/-- R36, R37, R40, R85: no step writes `IN`, `IN_SIZE`, `START_BITPOS` or a parameter. -/
def Obligations.InputUntouched : Prop :=
  ∀ s t : State, step s = .next t →
    t.inMem = s.inMem ∧ t.inSize = s.inSize ∧ t.startBitpos = s.startBitpos ∧ t.cfg = s.cfg

/-- R33, R38, R212, R213: who writes the flags: `BFINAL` the header alone; `FIXED_VALID` is never cleared and its table never
disturbed; `Done` is entered from a block with `BFINAL = 1` and the next header from one with `BFINAL = 0`; a dynamic block is
entered with `DYN_VALID = 0`. -/
def Obligations.FlagWriters : Prop :=
  ∀ s t : State, step s = .next t →
    (s.mode ≠ .readBlockHeader → t.bfinal = s.bfinal) ∧
    (s.mode = .readBlockHeader → t.mode ≠ .error → t.bfinal = sbit s s.bitpos) ∧
    (s.fixedValid = true → t.fixedValid = true ∧ t.tblFixll = s.tblFixll) ∧
    (t.mode = .done → s.mode ≠ .done → s.bfinal = true ∧ s.mode ≠ .readBlockHeader ∧ t.err = s.err) ∧
    (t.mode = .readBlockHeader → s.mode ≠ .readBlockHeader → s.bfinal = false) ∧
    (t.mode = .dynamicHuffman → s.mode ≠ .dynamicHuffman → t.dynValid = false ∧ s.cfg.dynSupport = true)

/-- R35, R41, R82: the output grows only by append; only error entry shortens it, to nothing. -/
def Obligations.OutputGrowsByAppend : Prop :=
  ∀ s t : State, MemoryInv s → step s = .next t →
    (t.mode ≠ .error ∨ s.mode = .error → ∃ bs, Appended s t bs) ∧ (t.mode = .error → s.mode ≠ .error → t.outLen = 0)

/-- R77, R215: what a run shows the host depends on `IN` only below `IN_SIZE`. -/
def Obligations.InputBeyondSizeUnseen : Prop :=
  ∀ (s s' : State) (n : Nat), SameInput s s' → observe (runSteps n s) = observe (runSteps n s')

/-- R41 and U6 of 93_implementation_defined.md: the bytes of `OUT` at or above `OUT_LEN`, which have no defined value, are never seen
in a run, neither by the host nor by a copy. -/
def Obligations.DeadOutputUnseen : Prop :=
  ∀ (s s' : State) (n : Nat), SameOutput s s' → Memory.wf s.outMem = true → Memory.wf s'.outMem = true →
    observe (runSteps n s) = observe (runSteps n s')

/-- R268, R364, and U7 of 93_implementation_defined.md: outside a dynamic block the dynamic tables and `DYN_VALID`, which error entry
leaves unspecified, are never seen. The contents of `OUT`, which it leaves unspecified too, are `DeadOutputUnseen`'s. -/
def Obligations.DeadTablesUnseen : Prop :=
  ∀ (s s' : State) (n : Nat), SameButDynTables s s' → s.mode ≠ .dynamicHuffman →
    observe (runSteps n s) = observe (runSteps n s')

/-- R125, R209, R246: a match written in the stream notation, `MATCH L D`, at the cursor of a fixed-Huffman block makes the step copy
`L` bytes from distance `D`, for every length 3..258 and distance 1..32768. -/
def Obligations.AssembledMatchCopies : Prop :=
  ∀ (L D : Nat) (s : State), 3 ≤ L → L ≤ 258 → 1 ≤ D → D ≤ 32768 →
    s.mode = .fixedHuffman → s.tblFixll = fixedTable → MemoryInv s → HasBits s 16 →
    let bits := elementBits fixedTable none 0 (.copy L D)
    StreamHas s bits → HasBits s bits.length → D ≤ s.outLen → HasRoom s L →
      ∃ t, step s = .next t ∧
        t = { s with bitpos := s.bitpos + bits.length, outLen := s.outLen + L, outMem := t.outMem } ∧
        Appended s t (copyBytes s L D)
end

