-- ==== Sys2Proof/Laws/Memory.lean ====
section
/-! SUPPORT. What reads and writes of a byte memory do, and that every operation keeps the canonical form. -/

namespace Sys2Proof.Machine

theorem memRead_write_other (m : Memory) (a b : Nat) (v : Byte) (h : b ≠ a) :
    memRead (memWrite m a v) b = memRead m b := by
  induction m with
  | nil =>
    simp only [memWrite]
    split <;> simp [memRead, Ne.symm h]
  | cons c m ih =>
    obtain ⟨k, x⟩ := c
    simp only [memWrite]
    split
    · simp only [memRead, ih]
    · by_cases hk : k = a <;> by_cases hv : v = memDefault <;> simp [hk, hv, memRead, Ne.symm h]

theorem memRead_of_wfFrom {lo a : Nat} {m : Memory} (h : memWfFrom lo m = true) (ha : a < lo) :
    memRead m a = memDefault := by
  induction m generalizing lo with
  | nil => rfl
  | cons c m ih =>
    obtain ⟨k, x⟩ := c
    simp only [memWfFrom, Bool.and_eq_true, decide_eq_true_eq] at h
    have : k ≠ a := by omega
    simp only [memRead, this, if_false]
    exact ih h.2 (by omega)

theorem memWfFrom_mono {lo lo' : Nat} {m : Memory} (h : memWfFrom lo m = true) (hl : lo' ≤ lo) :
    memWfFrom lo' m = true := by
  cases m with
  | nil => rfl
  | cons c m =>
    obtain ⟨k, x⟩ := c
    simp only [memWfFrom, Bool.and_eq_true, decide_eq_true_eq] at h ⊢
    exact ⟨⟨by omega, h.1.2⟩, h.2⟩

theorem memRead_write_same_from {lo a : Nat} {m : Memory} (v : Byte) (h : memWfFrom lo m = true) :
    memRead (memWrite m a v) a = v := by
  induction m generalizing lo with
  | nil =>
    simp only [memWrite]
    split <;> simp_all [memRead]
  | cons c m ih =>
    obtain ⟨k, x⟩ := c
    simp only [memWfFrom, Bool.and_eq_true, decide_eq_true_eq] at h
    simp only [memWrite]
    split
    · have : k ≠ a := by omega
      simp only [memRead, this, if_false]
      exact ih h.2
    · by_cases hv : v = memDefault
      · by_cases hk : k = a
        · simp only [hk, hv, if_true]
          exact memRead_of_wfFrom h.2 (by omega)
        · simp only [hk, hv, if_true, if_false, memRead]
          exact memRead_of_wfFrom h.2 (by omega)
      · simp [hv, memRead]

theorem memRead_write_same {m : Memory} (a : Nat) (v : Byte) (h : Memory.wf m = true) :
    memRead (memWrite m a v) a = v :=
  memRead_write_same_from v h

theorem memWfFrom_write {lo a : Nat} {m : Memory} (v : Byte) (h : memWfFrom lo m = true) (ha : lo ≤ a) :
    memWfFrom lo (memWrite m a v) = true := by
  induction m generalizing lo with
  | nil =>
    simp only [memWrite]
    split <;> simp_all [memWfFrom]
  | cons c m ih =>
    obtain ⟨k, x⟩ := c
    simp only [memWfFrom, Bool.and_eq_true, decide_eq_true_eq] at h
    simp only [memWrite]
    split
    · simp only [memWfFrom, Bool.and_eq_true, decide_eq_true_eq]
      exact ⟨h.1, ih h.2 (by omega)⟩
    · by_cases hk : k = a <;> by_cases hv : v = memDefault <;>
        simp only [hk, hv, if_true, if_false, memWfFrom, Bool.and_eq_true, decide_eq_true_eq, ne_eq, not_false_eq_true]
      · exact memWfFrom_mono h.2 (by omega)
      · exact ⟨⟨ha, trivial⟩, hk ▸ h.2⟩
      · exact ⟨h.1, h.2⟩
      · exact ⟨⟨ha, trivial⟩, ⟨by omega, h.1.2⟩, h.2⟩

/-- A write keeps the canonical form. -/
theorem wf_memWrite {m : Memory} (a : Nat) (v : Byte) (h : Memory.wf m = true) : Memory.wf (memWrite m a v) = true :=
  memWfFrom_write v h (Nat.zero_le a)

theorem wf_memWriteList {m : Memory} (a : Nat) (bs : List Byte) (h : Memory.wf m = true) :
    Memory.wf (memWriteList m a bs) = true := by
  induction bs generalizing m a with
  | nil => exact h
  | cons b bs ih => exact ih (a + 1) (wf_memWrite a b h)

/-- A write keeps every listed address among those that satisfy `p`. -/
theorem all_memWrite {p : Nat → Bool} {a : Nat} {m : Memory} (v : Byte) (h : m.all (fun c => p c.1) = true) (ha : p a = true) :
    (memWrite m a v).all (fun c => p c.1) = true := by
  induction m with
  | nil =>
    simp only [memWrite]
    split <;> simp [ha]
  | cons c m ih =>
    obtain ⟨k, x⟩ := c
    simp only [List.all_cons, Bool.and_eq_true] at h
    simp only [memWrite]
    split
    · simp only [List.all_cons, Bool.and_eq_true]
      exact ⟨h.1, ih h.2⟩
    · by_cases hk : k = a <;> by_cases hv : v = memDefault <;>
        simp only [hk, hv, if_true, if_false, List.all_cons, Bool.and_eq_true]
      · exact h.2
      · exact ⟨ha, h.2⟩
      · exact h
      · exact ⟨ha, h⟩

theorem memBelow_write {n a : Nat} {m : Memory} (v : Byte) (h : memBelow n m = true) (ha : a < n) :
    memBelow n (memWrite m a v) = true :=
  all_memWrite (p := fun k => decide (k < n)) v h (by simpa using ha)

theorem outWithin_write {c : Config} {a : Nat} {m : Memory} (v : Byte) (h : outWithin c m = true) (ha : outHas c a = true) :
    outWithin c (memWrite m a v) = true :=
  all_memWrite (p := outHas c) v h ha

/-- The memory of any cells is in canonical form. -/
theorem wf_memOf (cells : List Host.Cell) : Memory.wf (memOf cells) = true := by
  induction cells with
  | nil => rfl
  | cons c cells ih => exact wf_memWrite c.1 c.2 ih

/-- The memory of cells `OUT` has lists only such cells. -/
theorem outWithin_memOf (c : Config) (cells : List Host.Cell) :
    outWithin c (memOf (cells.filter (fun cell => outHas c cell.1))) = true := by
  induction cells with
  | nil => rfl
  | cons d cells ih =>
    rw [List.filter_cons]
    split
    · exact outWithin_write d.2 ih ‹_›
    · exact ih

/-- A memory in canonical form is determined by its reads: equal memories are equal data. -/
theorem memory_ext {lo : Nat} {m m' : Memory} (h : memWfFrom lo m = true) (h' : memWfFrom lo m' = true)
    (hr : ∀ a, memRead m a = memRead m' a) : m = m' := by
  induction m generalizing lo m' with
  | nil =>
    cases m' with
    | nil => rfl
    | cons c m' =>
      obtain ⟨k, x⟩ := c
      simp only [memWfFrom, Bool.and_eq_true, decide_eq_true_eq] at h'
      have := hr k
      simp only [memRead, if_true] at this
      exact absurd this.symm h'.1.2
  | cons c m ih =>
    obtain ⟨k, x⟩ := c
    simp only [memWfFrom, Bool.and_eq_true, decide_eq_true_eq] at h
    cases m' with
    | nil =>
      have := hr k
      simp only [memRead, if_true] at this
      exact absurd this h.1.2
    | cons c' m' =>
      obtain ⟨k', x'⟩ := c'
      simp only [memWfFrom, Bool.and_eq_true, decide_eq_true_eq] at h'
      have hk : k = k' := by
        rcases Nat.lt_trichotomy k k' with hlt | heq | hgt
        · have := hr k
          simp only [memRead, if_true, show k' ≠ k by omega, if_false] at this
          rw [memRead_of_wfFrom h'.2 (by omega)] at this
          exact absurd this h.1.2
        · exact heq
        · have := hr k'
          simp only [memRead, if_true, show k ≠ k' by omega, if_false] at this
          rw [memRead_of_wfFrom h.2 (by omega)] at this
          exact absurd this.symm h'.1.2
      subst hk
      have hx : x = x' := by simpa [memRead] using hr k
      subst hx
      congr 1
      refine ih h.2 h'.2 (fun a => ?_)
      by_cases ha : a = k
      · subst ha
        rw [memRead_of_wfFrom h.2 (by omega), memRead_of_wfFrom h'.2 (by omega)]
      · have := hr a
        simpa [memRead, Ne.symm ha] using this

@[simp] theorem memReadList_length (m : Memory) (a n : Nat) : (memReadList m a n).length = n := by
  induction n generalizing a with
  | zero => rfl
  | succ n ih => simp [memReadList, ih]

end Sys2Proof.Machine
end

