-- ==== Sys2Proof/Laws/State.lean ====
section
/-! SUPPORT. Every field of every state update, one lemma each, so that no later proof unfolds a record update. -/

namespace Sys2Proof.Machine

@[simp] theorem setBitpos_mode (v : Nat) (s : State) : (setBitpos v s).mode = s.mode := rfl
@[simp] theorem setBitpos_err (v : Nat) (s : State) : (setBitpos v s).err = s.err := rfl
@[simp] theorem setBitpos_bfinal (v : Nat) (s : State) : (setBitpos v s).bfinal = s.bfinal := rfl
@[simp] theorem setBitpos_bitpos (v : Nat) (s : State) : (setBitpos v s).bitpos = v := rfl
@[simp] theorem setBitpos_startBitpos (v : Nat) (s : State) : (setBitpos v s).startBitpos = s.startBitpos := rfl
@[simp] theorem setBitpos_inSize (v : Nat) (s : State) : (setBitpos v s).inSize = s.inSize := rfl
@[simp] theorem setBitpos_outLen (v : Nat) (s : State) : (setBitpos v s).outLen = s.outLen := rfl
@[simp] theorem setBitpos_fixedValid (v : Nat) (s : State) : (setBitpos v s).fixedValid = s.fixedValid := rfl
@[simp] theorem setBitpos_dynValid (v : Nat) (s : State) : (setBitpos v s).dynValid = s.dynValid := rfl
@[simp] theorem setBitpos_inMem (v : Nat) (s : State) : (setBitpos v s).inMem = s.inMem := rfl
@[simp] theorem setBitpos_outMem (v : Nat) (s : State) : (setBitpos v s).outMem = s.outMem := rfl
@[simp] theorem setBitpos_tblFixll (v : Nat) (s : State) : (setBitpos v s).tblFixll = s.tblFixll := rfl
@[simp] theorem setBitpos_tblClt (v : Nat) (s : State) : (setBitpos v s).tblClt = s.tblClt := rfl
@[simp] theorem setBitpos_tblLl (v : Nat) (s : State) : (setBitpos v s).tblLl = s.tblLl := rfl
@[simp] theorem setBitpos_tblDt (v : Nat) (s : State) : (setBitpos v s).tblDt = s.tblDt := rfl
@[simp] theorem setBitpos_cfg (v : Nat) (s : State) : (setBitpos v s).cfg = s.cfg := rfl
@[simp] theorem setBitpos_freeCount (v : Nat) (s : State) : (setBitpos v s).freeCount = s.freeCount := rfl

@[simp] theorem setMode_mode (m : Mode) (s : State) : (setMode m s).mode = m := rfl
@[simp] theorem setMode_err (m : Mode) (s : State) : (setMode m s).err = s.err := rfl
@[simp] theorem setMode_bfinal (m : Mode) (s : State) : (setMode m s).bfinal = s.bfinal := rfl
@[simp] theorem setMode_bitpos (m : Mode) (s : State) : (setMode m s).bitpos = s.bitpos := rfl
@[simp] theorem setMode_startBitpos (m : Mode) (s : State) : (setMode m s).startBitpos = s.startBitpos := rfl
@[simp] theorem setMode_inSize (m : Mode) (s : State) : (setMode m s).inSize = s.inSize := rfl
@[simp] theorem setMode_outLen (m : Mode) (s : State) : (setMode m s).outLen = s.outLen := rfl
@[simp] theorem setMode_fixedValid (m : Mode) (s : State) : (setMode m s).fixedValid = s.fixedValid := rfl
@[simp] theorem setMode_dynValid (m : Mode) (s : State) : (setMode m s).dynValid = s.dynValid := rfl
@[simp] theorem setMode_inMem (m : Mode) (s : State) : (setMode m s).inMem = s.inMem := rfl
@[simp] theorem setMode_outMem (m : Mode) (s : State) : (setMode m s).outMem = s.outMem := rfl
@[simp] theorem setMode_tblFixll (m : Mode) (s : State) : (setMode m s).tblFixll = s.tblFixll := rfl
@[simp] theorem setMode_tblClt (m : Mode) (s : State) : (setMode m s).tblClt = s.tblClt := rfl
@[simp] theorem setMode_tblLl (m : Mode) (s : State) : (setMode m s).tblLl = s.tblLl := rfl
@[simp] theorem setMode_tblDt (m : Mode) (s : State) : (setMode m s).tblDt = s.tblDt := rfl
@[simp] theorem setMode_cfg (m : Mode) (s : State) : (setMode m s).cfg = s.cfg := rfl
@[simp] theorem setMode_freeCount (m : Mode) (s : State) : (setMode m s).freeCount = s.freeCount := rfl

@[simp] theorem setBfinal_mode (f : Bool) (s : State) : (setBfinal f s).mode = s.mode := rfl
@[simp] theorem setBfinal_err (f : Bool) (s : State) : (setBfinal f s).err = s.err := rfl
@[simp] theorem setBfinal_bfinal (f : Bool) (s : State) : (setBfinal f s).bfinal = f := rfl
@[simp] theorem setBfinal_bitpos (f : Bool) (s : State) : (setBfinal f s).bitpos = s.bitpos := rfl
@[simp] theorem setBfinal_startBitpos (f : Bool) (s : State) : (setBfinal f s).startBitpos = s.startBitpos := rfl
@[simp] theorem setBfinal_inSize (f : Bool) (s : State) : (setBfinal f s).inSize = s.inSize := rfl
@[simp] theorem setBfinal_outLen (f : Bool) (s : State) : (setBfinal f s).outLen = s.outLen := rfl
@[simp] theorem setBfinal_fixedValid (f : Bool) (s : State) : (setBfinal f s).fixedValid = s.fixedValid := rfl
@[simp] theorem setBfinal_dynValid (f : Bool) (s : State) : (setBfinal f s).dynValid = s.dynValid := rfl
@[simp] theorem setBfinal_inMem (f : Bool) (s : State) : (setBfinal f s).inMem = s.inMem := rfl
@[simp] theorem setBfinal_outMem (f : Bool) (s : State) : (setBfinal f s).outMem = s.outMem := rfl
@[simp] theorem setBfinal_tblFixll (f : Bool) (s : State) : (setBfinal f s).tblFixll = s.tblFixll := rfl
@[simp] theorem setBfinal_tblClt (f : Bool) (s : State) : (setBfinal f s).tblClt = s.tblClt := rfl
@[simp] theorem setBfinal_tblLl (f : Bool) (s : State) : (setBfinal f s).tblLl = s.tblLl := rfl
@[simp] theorem setBfinal_tblDt (f : Bool) (s : State) : (setBfinal f s).tblDt = s.tblDt := rfl
@[simp] theorem setBfinal_cfg (f : Bool) (s : State) : (setBfinal f s).cfg = s.cfg := rfl
@[simp] theorem setBfinal_freeCount (f : Bool) (s : State) : (setBfinal f s).freeCount = s.freeCount := rfl

@[simp] theorem setDynValid_mode (v : Bool) (s : State) : (setDynValid v s).mode = s.mode := rfl
@[simp] theorem setDynValid_err (v : Bool) (s : State) : (setDynValid v s).err = s.err := rfl
@[simp] theorem setDynValid_bfinal (v : Bool) (s : State) : (setDynValid v s).bfinal = s.bfinal := rfl
@[simp] theorem setDynValid_bitpos (v : Bool) (s : State) : (setDynValid v s).bitpos = s.bitpos := rfl
@[simp] theorem setDynValid_startBitpos (v : Bool) (s : State) : (setDynValid v s).startBitpos = s.startBitpos := rfl
@[simp] theorem setDynValid_inSize (v : Bool) (s : State) : (setDynValid v s).inSize = s.inSize := rfl
@[simp] theorem setDynValid_outLen (v : Bool) (s : State) : (setDynValid v s).outLen = s.outLen := rfl
@[simp] theorem setDynValid_fixedValid (v : Bool) (s : State) : (setDynValid v s).fixedValid = s.fixedValid := rfl
@[simp] theorem setDynValid_dynValid (v : Bool) (s : State) : (setDynValid v s).dynValid = v := rfl
@[simp] theorem setDynValid_inMem (v : Bool) (s : State) : (setDynValid v s).inMem = s.inMem := rfl
@[simp] theorem setDynValid_outMem (v : Bool) (s : State) : (setDynValid v s).outMem = s.outMem := rfl
@[simp] theorem setDynValid_tblFixll (v : Bool) (s : State) : (setDynValid v s).tblFixll = s.tblFixll := rfl
@[simp] theorem setDynValid_tblClt (v : Bool) (s : State) : (setDynValid v s).tblClt = s.tblClt := rfl
@[simp] theorem setDynValid_tblLl (v : Bool) (s : State) : (setDynValid v s).tblLl = s.tblLl := rfl
@[simp] theorem setDynValid_tblDt (v : Bool) (s : State) : (setDynValid v s).tblDt = s.tblDt := rfl
@[simp] theorem setDynValid_cfg (v : Bool) (s : State) : (setDynValid v s).cfg = s.cfg := rfl
@[simp] theorem setDynValid_freeCount (v : Bool) (s : State) : (setDynValid v s).freeCount = s.freeCount := rfl

@[simp] theorem setFixll_mode (T : DecodeTable) (s : State) : (setFixll T s).mode = s.mode := rfl
@[simp] theorem setFixll_err (T : DecodeTable) (s : State) : (setFixll T s).err = s.err := rfl
@[simp] theorem setFixll_bfinal (T : DecodeTable) (s : State) : (setFixll T s).bfinal = s.bfinal := rfl
@[simp] theorem setFixll_bitpos (T : DecodeTable) (s : State) : (setFixll T s).bitpos = s.bitpos := rfl
@[simp] theorem setFixll_startBitpos (T : DecodeTable) (s : State) : (setFixll T s).startBitpos = s.startBitpos := rfl
@[simp] theorem setFixll_inSize (T : DecodeTable) (s : State) : (setFixll T s).inSize = s.inSize := rfl
@[simp] theorem setFixll_outLen (T : DecodeTable) (s : State) : (setFixll T s).outLen = s.outLen := rfl
@[simp] theorem setFixll_fixedValid (T : DecodeTable) (s : State) : (setFixll T s).fixedValid = true := rfl
@[simp] theorem setFixll_dynValid (T : DecodeTable) (s : State) : (setFixll T s).dynValid = s.dynValid := rfl
@[simp] theorem setFixll_inMem (T : DecodeTable) (s : State) : (setFixll T s).inMem = s.inMem := rfl
@[simp] theorem setFixll_outMem (T : DecodeTable) (s : State) : (setFixll T s).outMem = s.outMem := rfl
@[simp] theorem setFixll_tblFixll (T : DecodeTable) (s : State) : (setFixll T s).tblFixll = T := rfl
@[simp] theorem setFixll_tblClt (T : DecodeTable) (s : State) : (setFixll T s).tblClt = s.tblClt := rfl
@[simp] theorem setFixll_tblLl (T : DecodeTable) (s : State) : (setFixll T s).tblLl = s.tblLl := rfl
@[simp] theorem setFixll_tblDt (T : DecodeTable) (s : State) : (setFixll T s).tblDt = s.tblDt := rfl
@[simp] theorem setFixll_cfg (T : DecodeTable) (s : State) : (setFixll T s).cfg = s.cfg := rfl
@[simp] theorem setFixll_freeCount (T : DecodeTable) (s : State) : (setFixll T s).freeCount = s.freeCount := rfl

@[simp] theorem setClt_mode (T : DecodeTable) (s : State) : (setClt T s).mode = s.mode := rfl
@[simp] theorem setClt_err (T : DecodeTable) (s : State) : (setClt T s).err = s.err := rfl
@[simp] theorem setClt_bfinal (T : DecodeTable) (s : State) : (setClt T s).bfinal = s.bfinal := rfl
@[simp] theorem setClt_bitpos (T : DecodeTable) (s : State) : (setClt T s).bitpos = s.bitpos := rfl
@[simp] theorem setClt_startBitpos (T : DecodeTable) (s : State) : (setClt T s).startBitpos = s.startBitpos := rfl
@[simp] theorem setClt_inSize (T : DecodeTable) (s : State) : (setClt T s).inSize = s.inSize := rfl
@[simp] theorem setClt_outLen (T : DecodeTable) (s : State) : (setClt T s).outLen = s.outLen := rfl
@[simp] theorem setClt_fixedValid (T : DecodeTable) (s : State) : (setClt T s).fixedValid = s.fixedValid := rfl
@[simp] theorem setClt_dynValid (T : DecodeTable) (s : State) : (setClt T s).dynValid = s.dynValid := rfl
@[simp] theorem setClt_inMem (T : DecodeTable) (s : State) : (setClt T s).inMem = s.inMem := rfl
@[simp] theorem setClt_outMem (T : DecodeTable) (s : State) : (setClt T s).outMem = s.outMem := rfl
@[simp] theorem setClt_tblFixll (T : DecodeTable) (s : State) : (setClt T s).tblFixll = s.tblFixll := rfl
@[simp] theorem setClt_tblClt (T : DecodeTable) (s : State) : (setClt T s).tblClt = T := rfl
@[simp] theorem setClt_tblLl (T : DecodeTable) (s : State) : (setClt T s).tblLl = s.tblLl := rfl
@[simp] theorem setClt_tblDt (T : DecodeTable) (s : State) : (setClt T s).tblDt = s.tblDt := rfl
@[simp] theorem setClt_cfg (T : DecodeTable) (s : State) : (setClt T s).cfg = s.cfg := rfl
@[simp] theorem setClt_freeCount (T : DecodeTable) (s : State) : (setClt T s).freeCount = s.freeCount := rfl

@[simp] theorem setDynTables_mode (L D : DecodeTable) (s : State) : (setDynTables L D s).mode = s.mode := rfl
@[simp] theorem setDynTables_err (L D : DecodeTable) (s : State) : (setDynTables L D s).err = s.err := rfl
@[simp] theorem setDynTables_bfinal (L D : DecodeTable) (s : State) : (setDynTables L D s).bfinal = s.bfinal := rfl
@[simp] theorem setDynTables_bitpos (L D : DecodeTable) (s : State) : (setDynTables L D s).bitpos = s.bitpos := rfl
@[simp] theorem setDynTables_startBitpos (L D : DecodeTable) (s : State) : (setDynTables L D s).startBitpos = s.startBitpos := rfl
@[simp] theorem setDynTables_inSize (L D : DecodeTable) (s : State) : (setDynTables L D s).inSize = s.inSize := rfl
@[simp] theorem setDynTables_outLen (L D : DecodeTable) (s : State) : (setDynTables L D s).outLen = s.outLen := rfl
@[simp] theorem setDynTables_fixedValid (L D : DecodeTable) (s : State) : (setDynTables L D s).fixedValid = s.fixedValid := rfl
@[simp] theorem setDynTables_dynValid (L D : DecodeTable) (s : State) : (setDynTables L D s).dynValid = s.dynValid := rfl
@[simp] theorem setDynTables_inMem (L D : DecodeTable) (s : State) : (setDynTables L D s).inMem = s.inMem := rfl
@[simp] theorem setDynTables_outMem (L D : DecodeTable) (s : State) : (setDynTables L D s).outMem = s.outMem := rfl
@[simp] theorem setDynTables_tblFixll (L D : DecodeTable) (s : State) : (setDynTables L D s).tblFixll = s.tblFixll := rfl
@[simp] theorem setDynTables_tblClt (L D : DecodeTable) (s : State) : (setDynTables L D s).tblClt = s.tblClt := rfl
@[simp] theorem setDynTables_tblLl (L D : DecodeTable) (s : State) : (setDynTables L D s).tblLl = L := rfl
@[simp] theorem setDynTables_tblDt (L D : DecodeTable) (s : State) : (setDynTables L D s).tblDt = D := rfl
@[simp] theorem setDynTables_cfg (L D : DecodeTable) (s : State) : (setDynTables L D s).cfg = s.cfg := rfl
@[simp] theorem setDynTables_freeCount (L D : DecodeTable) (s : State) : (setDynTables L D s).freeCount = s.freeCount := rfl

@[simp] theorem appendByte_mode (b : Byte) (s : State) : (appendByte b s).mode = s.mode := rfl
@[simp] theorem appendByte_err (b : Byte) (s : State) : (appendByte b s).err = s.err := rfl
@[simp] theorem appendByte_bfinal (b : Byte) (s : State) : (appendByte b s).bfinal = s.bfinal := rfl
@[simp] theorem appendByte_bitpos (b : Byte) (s : State) : (appendByte b s).bitpos = s.bitpos := rfl
@[simp] theorem appendByte_startBitpos (b : Byte) (s : State) : (appendByte b s).startBitpos = s.startBitpos := rfl
@[simp] theorem appendByte_inSize (b : Byte) (s : State) : (appendByte b s).inSize = s.inSize := rfl
@[simp] theorem appendByte_outLen (b : Byte) (s : State) : (appendByte b s).outLen = s.outLen + 1 := rfl
@[simp] theorem appendByte_fixedValid (b : Byte) (s : State) : (appendByte b s).fixedValid = s.fixedValid := rfl
@[simp] theorem appendByte_dynValid (b : Byte) (s : State) : (appendByte b s).dynValid = s.dynValid := rfl
@[simp] theorem appendByte_inMem (b : Byte) (s : State) : (appendByte b s).inMem = s.inMem := rfl
@[simp] theorem appendByte_outMem (b : Byte) (s : State) : (appendByte b s).outMem = memWrite s.outMem s.outLen b := rfl
@[simp] theorem appendByte_tblFixll (b : Byte) (s : State) : (appendByte b s).tblFixll = s.tblFixll := rfl
@[simp] theorem appendByte_tblClt (b : Byte) (s : State) : (appendByte b s).tblClt = s.tblClt := rfl
@[simp] theorem appendByte_tblLl (b : Byte) (s : State) : (appendByte b s).tblLl = s.tblLl := rfl
@[simp] theorem appendByte_tblDt (b : Byte) (s : State) : (appendByte b s).tblDt = s.tblDt := rfl
@[simp] theorem appendByte_cfg (b : Byte) (s : State) : (appendByte b s).cfg = s.cfg := rfl
@[simp] theorem appendByte_freeCount (b : Byte) (s : State) : (appendByte b s).freeCount = s.freeCount := rfl

@[simp] theorem alignToByte_mode (s : State) : (alignToByte s).mode = s.mode := rfl
@[simp] theorem alignToByte_err (s : State) : (alignToByte s).err = s.err := rfl
@[simp] theorem alignToByte_bfinal (s : State) : (alignToByte s).bfinal = s.bfinal := rfl
@[simp] theorem alignToByte_bitpos (s : State) : (alignToByte s).bitpos = 8 * ((s.bitpos + 7) / 8) := rfl
@[simp] theorem alignToByte_startBitpos (s : State) : (alignToByte s).startBitpos = s.startBitpos := rfl
@[simp] theorem alignToByte_inSize (s : State) : (alignToByte s).inSize = s.inSize := rfl
@[simp] theorem alignToByte_outLen (s : State) : (alignToByte s).outLen = s.outLen := rfl
@[simp] theorem alignToByte_fixedValid (s : State) : (alignToByte s).fixedValid = s.fixedValid := rfl
@[simp] theorem alignToByte_dynValid (s : State) : (alignToByte s).dynValid = s.dynValid := rfl
@[simp] theorem alignToByte_inMem (s : State) : (alignToByte s).inMem = s.inMem := rfl
@[simp] theorem alignToByte_outMem (s : State) : (alignToByte s).outMem = s.outMem := rfl
@[simp] theorem alignToByte_tblFixll (s : State) : (alignToByte s).tblFixll = s.tblFixll := rfl
@[simp] theorem alignToByte_tblClt (s : State) : (alignToByte s).tblClt = s.tblClt := rfl
@[simp] theorem alignToByte_tblLl (s : State) : (alignToByte s).tblLl = s.tblLl := rfl
@[simp] theorem alignToByte_tblDt (s : State) : (alignToByte s).tblDt = s.tblDt := rfl
@[simp] theorem alignToByte_cfg (s : State) : (alignToByte s).cfg = s.cfg := rfl
@[simp] theorem alignToByte_freeCount (s : State) : (alignToByte s).freeCount = s.freeCount := rfl

@[simp] theorem blockEnd_mode (s : State) : (blockEnd s).mode = if s.bfinal then .done else .readBlockHeader := rfl
@[simp] theorem blockEnd_err (s : State) : (blockEnd s).err = s.err := rfl
@[simp] theorem blockEnd_bfinal (s : State) : (blockEnd s).bfinal = s.bfinal := rfl
@[simp] theorem blockEnd_bitpos (s : State) : (blockEnd s).bitpos = s.bitpos := rfl
@[simp] theorem blockEnd_startBitpos (s : State) : (blockEnd s).startBitpos = s.startBitpos := rfl
@[simp] theorem blockEnd_inSize (s : State) : (blockEnd s).inSize = s.inSize := rfl
@[simp] theorem blockEnd_outLen (s : State) : (blockEnd s).outLen = s.outLen := rfl
@[simp] theorem blockEnd_fixedValid (s : State) : (blockEnd s).fixedValid = s.fixedValid := rfl
@[simp] theorem blockEnd_dynValid (s : State) : (blockEnd s).dynValid = s.dynValid := rfl
@[simp] theorem blockEnd_inMem (s : State) : (blockEnd s).inMem = s.inMem := rfl
@[simp] theorem blockEnd_outMem (s : State) : (blockEnd s).outMem = s.outMem := rfl
@[simp] theorem blockEnd_tblFixll (s : State) : (blockEnd s).tblFixll = s.tblFixll := rfl
@[simp] theorem blockEnd_tblClt (s : State) : (blockEnd s).tblClt = s.tblClt := rfl
@[simp] theorem blockEnd_tblLl (s : State) : (blockEnd s).tblLl = s.tblLl := rfl
@[simp] theorem blockEnd_tblDt (s : State) : (blockEnd s).tblDt = s.tblDt := rfl
@[simp] theorem blockEnd_cfg (s : State) : (blockEnd s).cfg = s.cfg := rfl
@[simp] theorem blockEnd_freeCount (s : State) : (blockEnd s).freeCount = s.freeCount := rfl

@[simp] theorem raise_mode (s : State) (e : ErrCode) : (raise s e).mode = .error := rfl
@[simp] theorem raise_err (s : State) (e : ErrCode) : (raise s e).err = some e := rfl
@[simp] theorem raise_bfinal (s : State) (e : ErrCode) : (raise s e).bfinal = s.bfinal := rfl
@[simp] theorem raise_bitpos (s : State) (e : ErrCode) : (raise s e).bitpos = s.bitpos := rfl
@[simp] theorem raise_startBitpos (s : State) (e : ErrCode) : (raise s e).startBitpos = s.startBitpos := rfl
@[simp] theorem raise_inSize (s : State) (e : ErrCode) : (raise s e).inSize = s.inSize := rfl
@[simp] theorem raise_outLen (s : State) (e : ErrCode) : (raise s e).outLen = 0 := rfl
@[simp] theorem raise_fixedValid (s : State) (e : ErrCode) : (raise s e).fixedValid = s.fixedValid := rfl
@[simp] theorem raise_dynValid (s : State) (e : ErrCode) : (raise s e).dynValid = Config.freeDynValid s.freeCount := rfl
@[simp] theorem raise_inMem (s : State) (e : ErrCode) : (raise s e).inMem = s.inMem := rfl
@[simp] theorem raise_outMem (s : State) (e : ErrCode) : (raise s e).outMem = freeOutMem s := rfl
@[simp] theorem raise_tblFixll (s : State) (e : ErrCode) : (raise s e).tblFixll = s.tblFixll := rfl
@[simp] theorem raise_tblClt (s : State) (e : ErrCode) : (raise s e).tblClt = Config.freeClt s.freeCount := rfl
@[simp] theorem raise_tblLl (s : State) (e : ErrCode) : (raise s e).tblLl = Config.freeLl s.freeCount := rfl
@[simp] theorem raise_tblDt (s : State) (e : ErrCode) : (raise s e).tblDt = Config.freeDt s.freeCount := rfl
@[simp] theorem raise_cfg (s : State) (e : ErrCode) : (raise s e).cfg = s.cfg := rfl
@[simp] theorem raise_freeCount (s : State) (e : ErrCode) : (raise s e).freeCount = s.freeCount + 1 := rfl

@[simp] theorem start_mode (s : State) : (start s).mode = .readBlockHeader := rfl
@[simp] theorem start_err (s : State) : (start s).err = none := rfl
@[simp] theorem start_bfinal (s : State) : (start s).bfinal = false := rfl
@[simp] theorem start_bitpos (s : State) : (start s).bitpos = s.startBitpos := rfl
@[simp] theorem start_startBitpos (s : State) : (start s).startBitpos = s.startBitpos := rfl
@[simp] theorem start_inSize (s : State) : (start s).inSize = s.inSize := rfl
@[simp] theorem start_outLen (s : State) : (start s).outLen = 0 := rfl
@[simp] theorem start_fixedValid (s : State) : (start s).fixedValid = s.fixedValid := rfl
@[simp] theorem start_dynValid (s : State) : (start s).dynValid = false := rfl
@[simp] theorem start_inMem (s : State) : (start s).inMem = s.inMem := rfl
@[simp] theorem start_outMem (s : State) : (start s).outMem = s.outMem := rfl
@[simp] theorem start_tblFixll (s : State) : (start s).tblFixll = s.tblFixll := rfl
@[simp] theorem start_tblClt (s : State) : (start s).tblClt = s.tblClt := rfl
@[simp] theorem start_tblLl (s : State) : (start s).tblLl = s.tblLl := rfl
@[simp] theorem start_tblDt (s : State) : (start s).tblDt = s.tblDt := rfl
@[simp] theorem start_cfg (s : State) : (start s).cfg = s.cfg := rfl
@[simp] theorem start_freeCount (s : State) : (start s).freeCount = s.freeCount := rfl

end Sys2Proof.Machine
end

