-- ==== Sys2Proof/Laws/Ops.lean ====
section
/-! SUPPORT. One lemma per shared operation that says everything it can do. -/

namespace Sys2Proof.Machine

/-- A bind of two operations answers when both do. -/
theorem bind_ok {α β : Type} {x : Except ErrCode α} {f : α → Except ErrCode β} {b : β} :
    (x >>= f) = .ok b ↔ ∃ a, x = .ok a ∧ f a = .ok b := by
  cases x <;> simp [bind, Except.bind]

/-- A bind of two operations raises when the first does, or the second does on the first's answer. -/
theorem bind_error {α β : Type} {x : Except ErrCode α} {f : α → Except ErrCode β} {e : ErrCode} :
    (x >>= f) = .error e ↔ x = .error e ∨ ∃ a, x = .ok a ∧ f a = .error e := by
  cases x <;> simp [bind, Except.bind]

@[simp] theorem ok_bind {α β : Type} (a : α) (f : α → Except ErrCode β) : ((Except.ok a : Except ErrCode α) >>= f) = f a := rfl

@[simp] theorem error_bind {α β : Type} (e : ErrCode) (f : α → Except ErrCode β) :
    ((Except.error e : Except ErrCode α) >>= f) = .error e := rfl

@[simp] theorem pure_ok {α : Type} (a : α) : (pure a : Except ErrCode α) = .ok a := rfl

/-! ### Bits -/

theorem bitsVal_lt (bit : Nat → Bool) (p n : Nat) : bitsVal bit p n < 2 ^ n := by
  induction n generalizing p with
  | zero => simp [bitsVal]
  | succ n ih =>
    have := ih (p + 1)
    have hb : (bit p).toNat ≤ 1 := Bool.toNat_le (bit p)
    simp only [bitsVal, Nat.pow_succ]
    omega

theorem bitsVal_one (bit : Nat → Bool) (p : Nat) : bitsVal bit p 1 = (bit p).toNat := by simp [bitsVal]

/-- A numeric field splits low part first (20_memory.md R74). -/
theorem bitsVal_add (bit : Nat → Bool) (p n m : Nat) :
    bitsVal bit p (n + m) = bitsVal bit p n + 2 ^ n * bitsVal bit (p + n) m := by
  induction n generalizing p with
  | zero => simp [bitsVal]
  | succ n ih =>
    rw [show n + 1 + m = (n + m) + 1 by omega]
    simp only [bitsVal, ih (p + 1), Nat.pow_succ, show p + 1 + n = p + (n + 1) by omega]
    ring

theorem bitsVal_congr {f g : Nat → Bool} {p n : Nat} (h : ∀ k, p ≤ k → k < p + n → f k = g k) :
    bitsVal f p n = bitsVal g p n := by
  induction n generalizing p with
  | zero => rfl
  | succ n ih =>
    simp only [bitsVal]
    rw [h p (by omega) (by omega), ih (fun k hk hk' => h k (by omega) (by omega))]

theorem rev_lt (n v : Nat) : rev n v < 2 ^ n := by
  induction n generalizing v with
  | zero => simp [rev]
  | succ n ih =>
    have := ih (v / 2)
    have h2 : v % 2 < 2 := Nat.mod_lt _ (by omega)
    have : v % 2 * 2 ^ n ≤ 1 * 2 ^ n := Nat.mul_le_mul_right _ (by omega)
    simp only [rev, Nat.pow_succ]
    omega

/-! ### The cursor -/

theorem sbit_setBitpos (v : Nat) (s : State) : sbit (setBitpos v s) = sbit s := rfl

theorem peekBits_ok {n : Nat} {s : State} {width : n ≤ 16} {v : Nat} :
    peekBits n s width = .ok v ↔ s.bitpos + n ≤ 8 * s.inSize ∧ v = bitsVal (sbit s) s.bitpos n := by
  unfold peekBits
  split
  · simp [*, eq_comm]
  · simp [*]

theorem peekBits_error {n : Nat} {s : State} {width : n ≤ 16} {e : ErrCode} :
    peekBits n s width = .error e ↔ 8 * s.inSize < s.bitpos + n ∧ e = .truncatedStream := by
  unfold peekBits
  split
  · simp; omega
  · simp only [Except.error.injEq]
    constructor
    · rintro rfl; exact ⟨by omega, rfl⟩
    · rintro ⟨-, rfl⟩; rfl

theorem readBits_ok {n : Nat} {s t : State} {v : Nat} {width : n ≤ 16} :
    readBits n s width = .ok (v, t) ↔
      s.bitpos + n ≤ 8 * s.inSize ∧ v = bitsVal (sbit s) s.bitpos n ∧ t = setBitpos (s.bitpos + n) s := by
  simp only [readBits, bind_ok, peekBits_ok, pure_ok, Except.ok.injEq, Prod.mk.injEq]
  constructor
  · rintro ⟨a, ⟨h, rfl⟩, rfl, rfl⟩; exact ⟨h, rfl, rfl⟩
  · rintro ⟨h, rfl, rfl⟩; exact ⟨_, ⟨h, rfl⟩, rfl, rfl⟩

theorem readBits_eq {n : Nat} {s : State} {width : n ≤ 16} (h : s.bitpos + n ≤ 8 * s.inSize) :
    readBits n s width = .ok (bitsVal (sbit s) s.bitpos n, setBitpos (s.bitpos + n) s) :=
  readBits_ok.2 ⟨h, rfl, rfl⟩

theorem readBits_error {n : Nat} {s : State} {e : ErrCode} {width : n ≤ 16} :
    readBits n s width = .error e ↔ 8 * s.inSize < s.bitpos + n ∧ e = .truncatedStream := by
  simp only [readBits, bind_error, peekBits_error, pure_ok, reduceCtorEq, and_false, exists_false, or_false]

theorem consume_ok {n : Nat} {s t : State} :
    consume n s = .ok t ↔ s.bitpos + n ≤ 8 * s.inSize ∧ t = setBitpos (s.bitpos + n) s := by
  unfold consume
  split <;> simp [*, eq_comm]

theorem consume_eq {n : Nat} {s : State} (h : s.bitpos + n ≤ 8 * s.inSize) :
    consume n s = .ok (setBitpos (s.bitpos + n) s) :=
  consume_ok.2 ⟨h, rfl⟩

theorem consume_error {n : Nat} {s : State} {e : ErrCode} :
    consume n s = .error e ↔ 8 * s.inSize < s.bitpos + n ∧ e = .truncatedStream := by
  unfold consume
  split
  · simp; omega
  · simp only [Except.error.injEq]
    constructor
    · rintro rfl; exact ⟨by omega, rfl⟩
    · rintro ⟨-, rfl⟩; rfl

theorem decodeSym_eq (T : DecodeTable) (s : State) :
    decodeSym T s =
      if s.bitpos + 16 ≤ 8 * s.inSize then decodeWindow T (rev 16 (bitsVal (sbit s) s.bitpos 16))
      else .error .truncatedStream := by
  unfold decodeSym window peekBits
  by_cases h : s.bitpos + 16 ≤ 8 * s.inSize
  · simp only [if_pos h, ok_bind, pure_ok]
  · simp only [if_neg h, error_bind]

theorem decodeSym_ok {T : DecodeTable} {s : State} {sym len : Nat} :
    decodeSym T s = .ok (sym, len) ↔
      s.bitpos + 16 ≤ 8 * s.inSize ∧ decodeWindow T (rev 16 (bitsVal (sbit s) s.bitpos 16)) = .ok (sym, len) := by
  rw [decodeSym_eq]
  by_cases h : s.bitpos + 16 ≤ 8 * s.inSize
  · rw [if_pos h]; exact (and_iff_right h).symm
  · rw [if_neg h]; exact ⟨fun h' => by simp at h', fun h' => absurd h'.1 h⟩

theorem decodeWindow_len {T : DecodeTable} {w sym len : Nat} (h : decodeWindow T w = .ok (sym, len)) :
    1 ≤ len ∧ len ≤ 15 := by
  unfold decodeWindow at h
  split at h
  · simp at h
  · rename_i l hl
    have hm := List.mem_of_find?_eq_some hl
    split at h
    · simp only [Except.ok.injEq, Prod.mk.injEq] at h
      rw [← h.2]
      have := List.mem_range'.1 hm
      obtain ⟨i, hi, rfl⟩ := this
      omega
    · simp at h

theorem decodeWindow_error {T : DecodeTable} {w : Nat} {e : ErrCode} (h : decodeWindow T w = .error e) :
    e = .corruptHuffmanCode := by
  unfold decodeWindow at h
  split at h
  · simpa using h.symm
  · split at h
    · simp at h
    · simpa using h.symm

theorem decodeSym_error {T : DecodeTable} {s : State} {e : ErrCode} (h : decodeSym T s = .error e) :
    (8 * s.inSize < s.bitpos + 16 ∧ e = .truncatedStream) ∨
      (s.bitpos + 16 ≤ 8 * s.inSize ∧ e = .corruptHuffmanCode) := by
  rw [decodeSym_eq] at h
  by_cases hb : s.bitpos + 16 ≤ 8 * s.inSize
  · rw [if_pos hb] at h
    exact .inr ⟨hb, decodeWindow_error h⟩
  · rw [if_neg hb, Except.error.injEq] at h
    exact .inl ⟨by omega, h.symm⟩

/-! ### Appending to OUT -/

theorem exceedsCap_congr {s t : State} (n m : Nat) (hc : t.cfg = s.cfg) (hn : t.outLen + m = s.outLen + n) :
    exceedsCap t m = exceedsCap s n := by
  unfold exceedsCap
  rw [hc]
  cases s.cfg.outCap with
  | none => rfl
  | some c => simp only [hn]

/-- Everything an append loop leaves alone: all but the bytes of `OUT` and `OUT_LEN`. -/
theorem copyLoop_eq (d n : Nat) (s : State) :
    copyLoop d n s = { s with outMem := (copyLoop d n s).outMem, outLen := s.outLen + n } := by
  induction n generalizing s with
  | zero => rfl
  | succ n ih =>
    rw [copyLoop, ih]
    simp [appendByte, Nat.add_assoc, Nat.add_comm 1 n]

theorem storedLoop_eq (a n : Nat) (s : State) :
    storedLoop a n s = { s with outMem := (storedLoop a n s).outMem, outLen := s.outLen + n } := by
  induction n generalizing a s with
  | zero => rfl
  | succ n ih =>
    rw [storedLoop, ih]
    simp [appendByte, Nat.add_assoc, Nat.add_comm 1 n]

@[simp] theorem copyLoop_outLen (d n : Nat) (s : State) : (copyLoop d n s).outLen = s.outLen + n := by
  rw [copyLoop_eq]

@[simp] theorem storedLoop_outLen (a n : Nat) (s : State) : (storedLoop a n s).outLen = s.outLen + n := by
  rw [storedLoop_eq]

/-- The next byte of `OUT` exists when an append fits. -/
theorem outHas_of_room {s : State} {n : Nat} (h : exceedsCap s (n + 1) = false) : outHas s.cfg s.outLen = true := by
  unfold exceedsCap at h
  unfold outHas
  cases hc : s.cfg.outCap with
  | none => rfl
  | some cap => simp only [hc, decide_eq_false_iff_not, decide_eq_true_eq] at h ⊢; omega

/-- What an append that fits keeps: the canonical form of `OUT`, and that it lists only bytes it has. -/
theorem outInv_append {s : State} {n : Nat} (b : Byte) (hc : exceedsCap s (n + 1) = false) (h : Memory.wf s.outMem = true)
    (hb : outWithin s.cfg s.outMem = true) :
    Memory.wf (appendByte b s).outMem = true ∧ outWithin (appendByte b s).cfg (appendByte b s).outMem = true ∧
      exceedsCap (appendByte b s) n = false :=
  ⟨wf_memWrite _ _ h, outWithin_write b hb (outHas_of_room hc),
    (exceedsCap_congr (s := s) (t := appendByte b s) (n + 1) n rfl (by rw [appendByte_outLen]; omega)).trans hc⟩

theorem outInv_copyLoop {s : State} (d n : Nat) (hc : exceedsCap s n = false) (h : Memory.wf s.outMem = true)
    (hb : outWithin s.cfg s.outMem = true) :
    Memory.wf (copyLoop d n s).outMem = true ∧ outWithin (copyLoop d n s).cfg (copyLoop d n s).outMem = true := by
  induction n generalizing s with
  | zero => exact ⟨h, hb⟩
  | succ n ih =>
    obtain ⟨h1, h2, h3⟩ := outInv_append (outRead s (s.outLen - d)) hc h hb
    exact ih h3 h1 h2

theorem outInv_storedLoop {s : State} (a n : Nat) (hc : exceedsCap s n = false) (h : Memory.wf s.outMem = true)
    (hb : outWithin s.cfg s.outMem = true) :
    Memory.wf (storedLoop a n s).outMem = true ∧ outWithin (storedLoop a n s).cfg (storedLoop a n s).outMem = true := by
  induction n generalizing a s with
  | zero => exact ⟨h, hb⟩
  | succ n ih =>
    obtain ⟨h1, h2, h3⟩ := outInv_append (inRead s a) hc h hb
    exact ih (a + 1) h3 h1 h2

/-- The contents of `OUT` after error entry, whatever the free value is. -/
theorem outInv_free (s : State) : Memory.wf (freeOutMem s) = true ∧ outWithin s.cfg (freeOutMem s) = true :=
  ⟨wf_memOf _, outWithin_memOf _ _⟩

/-- A byte below `OUT_LEN` reads the same after an append. -/
theorem outRead_append_of_lt {s : State} {a : Nat} (b : Byte) (h : a < s.outLen) :
    outRead (appendByte b s) a = outRead s a :=
  memRead_write_other _ _ _ _ (by omega)

theorem outRead_copyLoop_of_lt {s : State} {a : Nat} (d n : Nat) (h : a < s.outLen) :
    outRead (copyLoop d n s) a = outRead s a := by
  induction n generalizing s with
  | zero => rfl
  | succ n ih =>
    rw [copyLoop, ih (s := appendByte _ s) (Nat.lt_succ_of_lt h), outRead_append_of_lt _ h]

theorem outRead_storedLoop_of_lt {s : State} {x : Nat} (a n : Nat) (h : x < s.outLen) :
    outRead (storedLoop a n s) x = outRead s x := by
  induction n generalizing a s with
  | zero => rfl
  | succ n ih =>
    rw [storedLoop, ih (s := appendByte _ s) _ (Nat.lt_succ_of_lt h), outRead_append_of_lt _ h]

theorem outRead_copyLoop_of_ge {s : State} {a : Nat} (d n : Nat) (h : s.outLen + n ≤ a) :
    outRead (copyLoop d n s) a = outRead s a := by
  induction n generalizing s with
  | zero => rfl
  | succ n ih =>
    rw [copyLoop, ih (s := appendByte _ s) (by rw [appendByte_outLen]; omega)]
    exact memRead_write_other _ _ _ _ (by omega)

theorem outRead_storedLoop_of_ge {s : State} {x : Nat} (a n : Nat) (h : s.outLen + n ≤ x) :
    outRead (storedLoop a n s) x = outRead s x := by
  induction n generalizing a s with
  | zero => rfl
  | succ n ih =>
    rw [storedLoop, ih (s := appendByte _ s) _ (by rw [appendByte_outLen]; omega)]
    exact memRead_write_other _ _ _ _ (by omega)

theorem emit_ok {b : Byte} {s t : State} : emit b s = .ok t ↔ exceedsCap s 1 = false ∧ t = appendByte b s := by
  unfold emit
  cases exceedsCap s 1 <;> simp [eq_comm (a := t)]

theorem emit_error {b : Byte} {s : State} {e : ErrCode} :
    emit b s = .error e ↔ exceedsCap s 1 = true ∧ e = .outputCapacityExceeded := by
  unfold emit
  cases exceedsCap s 1 <;> simp [eq_comm (a := e)]

theorem copy_ok {length distance : Nat} {s t : State} :
    copy length distance s = .ok t ↔
      distance ≤ s.outLen ∧ exceedsCap s length = false ∧ t = copyLoop distance length s := by
  unfold copy
  by_cases hd : s.outLen < distance
  · simp [hd, Nat.not_le.2 hd]
  · cases exceedsCap s length <;> simp [hd, Nat.not_lt.1 hd, eq_comm (a := t)]

theorem copy_error {length distance : Nat} {s : State} {e : ErrCode} (h : copy length distance s = .error e) :
    e = .distanceBeyondOutput ∨ e = .outputCapacityExceeded := by
  unfold copy at h
  split at h
  · exact .inl (by simpa using h.symm)
  · split at h
    · exact .inr (by simpa using h.symm)
    · simp at h

/-! ### The outcome of a step -/

/-- A step answers the state its meaning gives, or error entry from the state before it. -/
theorem finish_cases {s t : State} {r : Except ErrCode State} (h : finish s r = .next t) :
    r = .ok t ∨ ∃ e, r = .error e ∧ t = raise s e := by
  cases r with
  | ok u => simp only [finish, Host.Outcome.next.injEq] at h; exact .inl (h ▸ rfl)
  | error e => simp only [finish, Host.Outcome.next.injEq] at h; exact .inr ⟨e, rfl, h.symm⟩

/-- Every meaning answers a next state (00_scope.md R19). -/
theorem finish_next (s : State) (r : Except ErrCode State) : ∃ t, finish s r = .next t := by
  cases r <;> exact ⟨_, rfl⟩

end Sys2Proof.Machine
end

