-- ==== Sys2Proof/Laws/Operands.lean ====
section
/-! SUPPORT. What the operand reads and the shared meanings answer. -/

namespace Sys2Proof.Machine

@[simp] theorem setBitpos_setBitpos (p q : Nat) (s : State) : setBitpos p (setBitpos q s) = setBitpos p s := rfl

@[simp] theorem setBitpos_self (s : State) : setBitpos s.bitpos s = s := rfl

/-- Only the cursor moved, forward, and inside the input unless it stood still. -/
def Advanced (s t : State) : Prop :=
  t = setBitpos t.bitpos s ∧ s.bitpos ≤ t.bitpos ∧ (t.bitpos = s.bitpos ∨ t.bitpos ≤ 8 * s.inSize)

theorem Advanced.refl (s : State) : Advanced s s := ⟨rfl, Nat.le_refl _, .inl rfl⟩

theorem Advanced.trans {s t u : State} (h : Advanced s t) (h' : Advanced t u) : Advanced s u := by
  obtain ⟨ht, hle, hb⟩ := h
  obtain ⟨hu, hle', hb'⟩ := h'
  rw [ht] at hu hle' hb'
  simp only [setBitpos_setBitpos, setBitpos_bitpos, setBitpos_inSize] at hu hle' hb'
  exact ⟨hu, by omega, by omega⟩

theorem advanced_setBitpos {s : State} {p : Nat} (h : s.bitpos ≤ p) (hp : p ≤ 8 * s.inSize) :
    Advanced s (setBitpos p s) :=
  ⟨rfl, h, .inr hp⟩

theorem readBits_advanced {n : Nat} {s t : State} {v : Nat} {width : n ≤ 16} (h : readBits n s width = .ok (v, t)) : Advanced s t := by
  obtain ⟨hb, -, rfl⟩ := readBits_ok.1 h
  exact advanced_setBitpos (by omega) hb

theorem consume_advanced {n : Nat} {s t : State} (h : consume n s = .ok t) : Advanced s t := by
  obtain ⟨hb, rfl⟩ := consume_ok.1 h
  exact advanced_setBitpos (by omega) hb

-- Without this, unification unfolds a field of literal width bit by bit.
seal bitsVal rev

/-! ### Headers -/

theorem headerRead_ok {f : Bool} {s t : State} :
    headerRead f s = .ok t ↔ s.bitpos + 3 ≤ 8 * s.inSize ∧ t = setBfinal f (setBitpos (s.bitpos + 3) s) := by
  simp only [headerRead, bind_ok, consume_ok, pure_ok, Except.ok.injEq]
  constructor
  · rintro ⟨_, ⟨h, rfl⟩, rfl⟩; exact ⟨h, rfl⟩
  · rintro ⟨h, rfl⟩; exact ⟨_, ⟨h, rfl⟩, rfl⟩

theorem headerRead_eq {f : Bool} {s : State} (h : s.bitpos + 3 ≤ 8 * s.inSize) :
    headerRead f s = .ok (setBfinal f (setBitpos (s.bitpos + 3) s)) :=
  headerRead_ok.2 ⟨h, rfl⟩

theorem romFixedLengths_lt : ∀ l ∈ romFixedLengths, l < 16 := by
  simp only [romFixedLengths, List.mem_append, List.mem_replicate]
  rintro l (((h | h) | h) | h) <;> omega

/-- The buckets of a table made by `BUILD` (41 R162, R163, R165). -/
theorem tableOf_bucket (lens : List Nat) {len : Nat} (h : len < 16) :
    (tableOf lens).bucket len = ⟨bucketSymbols lens len, BitVec.ofNat 16 (pad (startCode lens len) len)⟩ := by
  change ((List.range 16).map (fun l =>
    (⟨bucketSymbols lens l, BitVec.ofNat 16 (pad (startCode lens l) l)⟩ : Bucket))).getD len ⟨[], 0⟩ = _
  rw [List.getD_eq_getElem?_getD, List.getElem?_map, List.getElem?_range h]
  rfl

theorem romFixedLengths_length : romFixedLengths.length ≤ maxSym := by decide +kernel

/-- `BUILD` answers exactly for at most `MAX_SYM` code lengths, all below 16, and then their table (41 R160, R161, R167). -/
theorem build_ok {lens : List Nat} {T : DecodeTable} :
    build lens = .ok T ↔ lens.length ≤ maxSym ∧ (∀ l ∈ lens, l < 16) ∧ T = tableOf lens := by
  have key : (buildInput lens = false ∨ lens.any (fun l => decide (16 ≤ l)) = true) ↔
      ¬ (lens.length ≤ maxSym ∧ ∀ l ∈ lens, l < 16) := by
    by_cases h : ∀ l ∈ lens, l < 16
    · have h8 : lens.all (fun l => decide (l < 2 ^ clW)) = true := by
        simp only [List.all_eq_true, decide_eq_true_eq]
        exact fun l hl => lt_trans (h l hl) (by decide)
      have h16 : lens.any (fun l => decide (16 ≤ l)) = false := by
        simpa using h
      simp only [buildInput, h8, h16, Bool.and_true, decide_eq_false_iff_not, Bool.false_eq_true, or_false]
      exact ⟨fun hn h' => hn h'.1, fun hn h' => hn ⟨h', h⟩⟩
    · have h16 : lens.any (fun l => decide (16 ≤ l)) = true := by
        simpa using h
      simp [h16, h]
  unfold build
  by_cases h : lens.length ≤ maxSym ∧ ∀ l ∈ lens, l < 16
  · rw [if_neg (by rw [key]; exact not_not.2 h)]
    simp only [Except.ok.injEq]
    exact ⟨fun hT => ⟨h.1, h.2, hT.symm⟩, fun hT => hT.2.2.symm⟩
  · rw [if_pos (key.2 h)]
    simp only [reduceCtorEq, false_iff]
    exact fun h' => h ⟨h'.1, h'.2.1⟩

theorem build_eq {lens : List Nat} (hn : lens.length ≤ maxSym) (h : ∀ l ∈ lens, l < 16) : build lens = .ok (tableOf lens) :=
  build_ok.2 ⟨hn, h, rfl⟩

theorem build_error {lens : List Nat} {e : ErrCode} (h : build lens = .error e) : e = .invalidCodeLengthTable := by
  unfold build at h
  split at h
  · simpa using h.symm
  · simp at h

/-- Entering a fixed-Huffman block never raises (43 R217). -/
theorem enterFixed_eq (s : State) :
    enterFixed s = .ok (setMode .fixedHuffman (if s.fixedValid then s else setFixll fixedTable s)) := by
  unfold enterFixed
  split
  · rfl
  · rw [build_eq romFixedLengths_length romFixedLengths_lt]
    rfl

theorem enterDynamic_ok {s t : State} :
    enterDynamic s = .ok t ↔
      s.cfg.dynSupport = true ∧ t = setMode .dynamicHuffman (setDynValid false s) := by
  unfold enterDynamic
  cases s.cfg.dynSupport <;> simp [eq_comm (a := t)]

/-! ### Matches and literals -/

theorem readLength_ok {sym : Nat} {s t : State} {v : Nat} :
    readLength sym s = .ok (v, t) ↔
      s.bitpos + lenExtraBits sym ≤ 8 * s.inSize ∧
        v = lenBase sym + bitsVal (sbit s) s.bitpos (lenExtraBits sym) ∧
        t = setBitpos (s.bitpos + lenExtraBits sym) s := by
  simp only [readLength, bind_ok, Prod.exists, readBits_ok, pure_ok, Except.ok.injEq, Prod.mk.injEq]
  constructor
  · rintro ⟨_, _, ⟨h, rfl, rfl⟩, rfl, rfl⟩; exact ⟨h, rfl, rfl⟩
  · rintro ⟨h, rfl, rfl⟩; exact ⟨_, _, ⟨h, rfl, rfl⟩, rfl, rfl⟩

theorem readFixedDist_ok {s t : State} {v : Nat} :
    readFixedDist s = .ok (v, t) ↔
      s.bitpos + 5 ≤ 8 * s.inSize ∧ v = rev 5 (bitsVal (sbit s) s.bitpos 5) ∧ t = setBitpos (s.bitpos + 5) s := by
  simp only [readFixedDist, bind_ok, Prod.exists, readBits_ok, pure_ok, Except.ok.injEq, Prod.mk.injEq]
  constructor
  · rintro ⟨_, _, ⟨h, rfl, rfl⟩, rfl, rfl⟩; exact ⟨h, rfl, rfl⟩
  · rintro ⟨h, h', rfl⟩; exact ⟨_, _, ⟨h, rfl, rfl⟩, h'.symm, rfl⟩

theorem readTableDist_ok {s t : State} {v : Nat} :
    readTableDist s = .ok (v, t) ↔
      ∃ len, decodeSym s.tblDt s = .ok (v, len) ∧ s.bitpos + len ≤ 8 * s.inSize ∧
        t = setBitpos (s.bitpos + len) s := by
  simp only [readTableDist, bind_ok, Prod.exists, consume_ok, pure_ok, Except.ok.injEq, Prod.mk.injEq]
  constructor
  · rintro ⟨_, len, hd, _, ⟨h, rfl⟩, rfl, rfl⟩; exact ⟨len, hd, h, rfl⟩
  · rintro ⟨len, hd, h, rfl⟩; exact ⟨_, len, hd, _, ⟨h, rfl⟩, rfl, rfl⟩

theorem readDist_advanced {s t : State} {v : Nat} (h : readDist s = .ok (v, t)) : Advanced s t := by
  unfold readDist at h
  split at h
  · obtain ⟨hb, -, rfl⟩ := readFixedDist_ok.1 h
    exact advanced_setBitpos (by omega) hb
  · obtain ⟨len, -, hb, rfl⟩ := readTableDist_ok.1 h
    exact advanced_setBitpos (by omega) hb

theorem matchTail_ok {length dcode : Nat} {s t : State} :
    matchTail length dcode s = .ok t ↔
      dcode < 30 ∧ s.bitpos + distExtraBits dcode ≤ 8 * s.inSize ∧
        distBase dcode + bitsVal (sbit s) s.bitpos (distExtraBits dcode) ≤ s.outLen ∧ exceedsCap s length = false ∧
        t = copyLoop (distBase dcode + bitsVal (sbit s) s.bitpos (distExtraBits dcode)) length
          (setBitpos (s.bitpos + distExtraBits dcode) s) := by
  unfold matchTail
  by_cases hd : 30 ≤ dcode
  · rw [if_pos hd]
    simp; omega
  · rw [if_neg hd]
    simp only [bind_ok, Prod.exists, readBits_ok, copy_ok]
    constructor
    · rintro ⟨_, _, ⟨h, rfl, rfl⟩, h1, h2, rfl⟩
      exact ⟨by omega, h, h1, h2, rfl⟩
    · rintro ⟨-, h, h1, h2, rfl⟩
      exact ⟨_, _, ⟨h, rfl, rfl⟩, h1, h2, rfl⟩

/-- What any match does: the cursor moves, then a copy of the length. -/
theorem matchTail_copies {length dcode : Nat} {s t : State} (h : matchTail length dcode s = .ok t) :
    ∃ u distance, Advanced s u ∧ distance ≤ u.outLen ∧ exceedsCap u length = false ∧ t = copyLoop distance length u := by
  obtain ⟨-, hb, hd, hc, rfl⟩ := matchTail_ok.1 h
  exact ⟨_, _, advanced_setBitpos (by omega) hb, hd, hc, rfl⟩

theorem matchFixed_ok {sym len : Nat} {s t : State} :
    matchFixed sym len s = .ok t ↔
      s.bitpos + len + lenExtraBits sym + 5 ≤ 8 * s.inSize ∧
        matchTail (lenBase sym + bitsVal (sbit s) (s.bitpos + len) (lenExtraBits sym))
          (rev 5 (bitsVal (sbit s) (s.bitpos + len + lenExtraBits sym) 5))
          (setBitpos (s.bitpos + len + lenExtraBits sym + 5) s) = .ok t := by
  constructor
  · intro h
    simp only [matchFixed, bind_ok, Prod.exists] at h
    obtain ⟨s1, h1, v, s2, h2, d, s3, h3, ht⟩ := h
    obtain ⟨-, e1⟩ := consume_ok.1 h1
    obtain ⟨-, ev, e2⟩ := readLength_ok.1 h2
    obtain ⟨hb, ed, e3⟩ := readFixedDist_ok.1 h3
    subst e3 e2 e1 ev ed
    simp only [setBitpos_bitpos, setBitpos_inSize, sbit_setBitpos, setBitpos_setBitpos] at hb ht
    exact ⟨hb, ht⟩
  · rintro ⟨h, ht⟩
    have h1 : consume len s = .ok (setBitpos (s.bitpos + len) s) := consume_eq (by omega)
    have h2 := (readLength_ok (sym := sym) (s := setBitpos (s.bitpos + len) s)).2
      ⟨by simp only [setBitpos_bitpos, setBitpos_inSize]; omega, rfl, rfl⟩
    have h3 := (readFixedDist_ok (s := setBitpos (s.bitpos + len + lenExtraBits sym) s)).2
      ⟨by simp only [setBitpos_bitpos, setBitpos_inSize]; omega, rfl, rfl⟩
    simp only [setBitpos_bitpos, sbit_setBitpos, setBitpos_setBitpos] at h2 h3
    rw [matchFixed, h1, ok_bind, h2, ok_bind]
    simp only
    rw [h3, ok_bind]
    exact ht

theorem matchFixed_copies {sym len : Nat} {s t : State} (h : matchFixed sym len s = .ok t) :
    ∃ u length distance, Advanced s u ∧ s.bitpos + len + 5 ≤ u.bitpos ∧ distance ≤ u.outLen ∧
      exceedsCap u length = false ∧ t = copyLoop distance length u := by
  obtain ⟨hb, ht⟩ := matchFixed_ok.1 h
  obtain ⟨u, d, ha, h1, h2, rfl⟩ := matchTail_copies ht
  have h0 : Advanced s (setBitpos (s.bitpos + len + lenExtraBits sym + 5) s) := advanced_setBitpos (by omega) hb
  refine ⟨u, _, d, h0.trans ha, ?_, h1, h2, rfl⟩
  have := ha.2.1
  rw [setBitpos_bitpos] at this
  omega

theorem matchSym_copies {sym len : Nat} {s t : State} (h : matchSym sym len s = .ok t) :
    ∃ u length distance, Advanced s u ∧ s.bitpos + len ≤ u.bitpos ∧ u.bitpos ≤ 8 * s.inSize ∧ distance ≤ u.outLen ∧
      exceedsCap u length = false ∧ t = copyLoop distance length u := by
  simp only [matchSym, bind_ok, Prod.exists] at h
  obtain ⟨s1, h1, v, s2, h2, d, s3, h3, h4⟩ := h
  obtain ⟨u, x, hu, hd, hc, rfl⟩ := matchTail_copies h4
  obtain ⟨hb1, rfl⟩ := consume_ok.1 h1
  have a1 : Advanced s (setBitpos (s.bitpos + len) s) := advanced_setBitpos (by omega) hb1
  have a2 : Advanced (setBitpos (s.bitpos + len) s) s2 := by
    obtain ⟨hb, -, rfl⟩ := readLength_ok.1 h2
    exact advanced_setBitpos (by omega) hb
  have a4 := (a2.trans (readDist_advanced h3)).trans hu
  have hle := a4.2.1
  have hin := a4.2.2
  rw [setBitpos_bitpos] at hle hin
  rw [setBitpos_inSize] at hin
  exact ⟨u, v, x, a1.trans a4, hle, by omega, hd, hc, rfl⟩

theorem distPart_ok {dcode len length : Nat} {s t : State} :
    distPart dcode len length s = .ok t ↔
      s.bitpos + len ≤ 8 * s.inSize ∧ matchTail length dcode (setBitpos (s.bitpos + len) s) = .ok t := by
  simp only [distPart, bind_ok, consume_ok]
  constructor
  · rintro ⟨_, ⟨h, rfl⟩, ht⟩; exact ⟨h, ht⟩
  · rintro ⟨h, ht⟩; exact ⟨_, ⟨h, rfl⟩, ht⟩

theorem literal_ok {b : Byte} {len : Nat} {s t : State} :
    literal b len s = .ok t ↔
      s.bitpos + len ≤ 8 * s.inSize ∧ exceedsCap s 1 = false ∧ t = appendByte b (setBitpos (s.bitpos + len) s) := by
  simp only [literal, bind_ok, consume_ok, emit_ok]
  constructor
  · rintro ⟨_, ⟨h, rfl⟩, hc, rfl⟩; exact ⟨h, hc, rfl⟩
  · rintro ⟨h, hc, rfl⟩; exact ⟨_, ⟨h, rfl⟩, hc, rfl⟩

theorem endOfBlock_ok {len : Nat} {s t : State} :
    endOfBlock len s = .ok t ↔
      s.bitpos + len ≤ 8 * s.inSize ∧ t = blockEnd (setBitpos (s.bitpos + len) s) := by
  simp only [endOfBlock, bind_ok, consume_ok, pure_ok, Except.ok.injEq]
  constructor
  · rintro ⟨_, ⟨h, rfl⟩, rfl⟩; exact ⟨h, rfl⟩
  · rintro ⟨h, rfl⟩; exact ⟨_, ⟨h, rfl⟩, rfl⟩

/-- A bad length symbol never answers (43 R210). -/
theorem badLength_ne_ok {len : Nat} {s t : State} : badLength len s ≠ .ok t := by
  simp [badLength, bind_ok]

/-! ### The coded code lengths -/

theorem appendRun_ok {tot r v : Nat} {lens lens' : List Nat} :
    appendRun tot r v lens = .ok lens' ↔ lens.length + r ≤ tot ∧ lens' = lens ++ List.replicate r v := by
  unfold appendRun
  split
  · simp; omega
  · simp [eq_comm (a := lens')]; omega

/-- One code-length symbol: the cursor advances, the sequence grows by at least one and stays within `tot`, its new elements are
below 16 when the old ones are (45 R263). -/
theorem clSymbol_ok {sym tot : Nat} {lens lens' : List Nat} {s t : State} (hl : lens.length < tot)
    (h : clSymbol sym tot lens s = .ok (lens', t)) :
    Advanced s t ∧ lens.length < lens'.length ∧ lens'.length ≤ tot ∧
      ((∀ l ∈ lens, l < 16) → ∀ l ∈ lens', l < 16) := by
  have zeros : ∀ base n (width : n ≤ 16), 0 < base → clZeros base n tot lens s width = .ok (lens', t) →
      Advanced s t ∧ lens.length < lens'.length ∧ lens'.length ≤ tot ∧
        ((∀ l ∈ lens, l < 16) → ∀ l ∈ lens', l < 16) := by
    intro base n width hb hz
    simp only [clZeros, bind_ok, Prod.exists, appendRun_ok, pure_ok, Except.ok.injEq, Prod.mk.injEq] at hz
    obtain ⟨x, u, hr, _, ⟨hle, rfl⟩, rfl, rfl⟩ := hz
    refine ⟨readBits_advanced hr, by simp; omega, by simpa using hle, fun ha l hm => ?_⟩
    rcases List.mem_append.1 hm with hm | hm
    · exact ha l hm
    · have := List.eq_of_mem_replicate hm
      omega
  unfold clSymbol at h
  split at h
  · simp only [Except.ok.injEq, Prod.mk.injEq] at h
    obtain ⟨rfl, rfl⟩ := h
    refine ⟨Advanced.refl _, by simp, by simpa using hl, fun ha l hm => ?_⟩
    rcases List.mem_append.1 hm with hm | hm
    · exact ha l hm
    · have := List.eq_of_mem_singleton hm
      omega
  · split at h
    · unfold clRepeat at h
      split at h
      · simp at h
      · rename_i v hv
        simp only [bind_ok, Prod.exists, appendRun_ok, pure_ok, Except.ok.injEq, Prod.mk.injEq] at h
        obtain ⟨x, u, hr, _, ⟨hle, rfl⟩, rfl, rfl⟩ := h
        refine ⟨readBits_advanced hr, by simp, by simpa using hle, fun ha l hm => ?_⟩
        rcases List.mem_append.1 hm with hm | hm
        · exact ha l hm
        · rw [List.eq_of_mem_replicate hm]
          exact ha v (List.mem_of_getLast? hv)
    · split at h
      · exact zeros 3 3 (by decide) (by omega) h
      · exact zeros 11 7 (by decide) (by omega) h

/-- The loop of the coded lengths ends with exactly `tot` of them (45 R261). -/
theorem clLoop_ok {tot k : Nat} {lens lens' : List Nat} {s t : State} (hk : tot ≤ lens.length + k)
    (hl : lens.length ≤ tot) (h : clLoop tot k lens s = .ok (lens', t)) :
    Advanced s t ∧ lens'.length = tot ∧ ((∀ l ∈ lens, l < 16) → ∀ l ∈ lens', l < 16) := by
  induction k generalizing lens s with
  | zero =>
    simp only [clLoop, Except.ok.injEq, Prod.mk.injEq] at h
    obtain ⟨rfl, rfl⟩ := h
    exact ⟨Advanced.refl _, by omega, id⟩
  | succ k ih =>
    rw [clLoop] at h
    split at h
    · rename_i hlt
      simp only [bind_ok, Prod.exists] at h
      obtain ⟨sym, len, -, s1, hc, lens1, s2, hs, hrec⟩ := h
      obtain ⟨a1, g1, g2, m1⟩ := clSymbol_ok hlt hs
      obtain ⟨a2, g3, m2⟩ := ih (by omega) g2 hrec
      exact ⟨((consume_advanced hc).trans a1).trans a2, g3, m2 ∘ m1⟩
    · simp only [Except.ok.injEq, Prod.mk.injEq] at h
      obtain ⟨rfl, rfl⟩ := h
      exact ⟨Advanced.refl _, by omega, id⟩

theorem buildDynamic_ok {nl nd : Nat} {lens : List Nat} {s t : State} (h : buildDynamic nl nd lens s = .ok t) :
    (∀ l ∈ lens.take nl, l < 16) ∧ (∀ l ∈ (lens.drop nl).take nd, l < 16) ∧
      t = setDynValid true (setDynTables (tableOf (lens.take nl)) (tableOf ((lens.drop nl).take nd)) s) := by
  simp only [buildDynamic, bind_ok, build_ok, pure_ok, Except.ok.injEq] at h
  obtain ⟨_, ⟨-, h1, rfl⟩, _, ⟨-, h2, rfl⟩, rfl⟩ := h
  exact ⟨h1, h2, rfl⟩

/-- The rest of a dynamic header from a sequence within bounds: the two tables come from `nl` and `nd` lengths below 16
(45 R264). -/
theorem finishLengths_ok {nl nd : Nat} {lens : List Nat} {s t : State} (hl : lens.length ≤ nl + nd)
    (h : finishLengths nl nd lens s = .ok t) :
    ∃ u L D, Advanced s u ∧ L.length = nl ∧ D.length = nd ∧ (∀ l ∈ L, l < 16) ∧ (∀ l ∈ D, l < 16) ∧
      t = setDynValid true (setDynTables (tableOf L) (tableOf D) u) := by
  simp only [finishLengths, bind_ok, Prod.exists] at h
  obtain ⟨lens', u, hc, hb⟩ := h
  obtain ⟨ha, hlen, -⟩ := clLoop_ok (by omega) hl hc
  obtain ⟨h1, h2, rfl⟩ := buildDynamic_ok hb
  exact ⟨u, _, _, ha, by simp; omega, by simp; omega, h1, h2, rfl⟩

/-- The same from any sequence: the tables come from some code lengths below 16. -/
theorem finishLengths_any {nl nd : Nat} {lens : List Nat} {s t : State} (h : finishLengths nl nd lens s = .ok t) :
    ∃ u L D, Advanced s u ∧ t = setDynValid true (setDynTables (tableOf L) (tableOf D) u) := by
  by_cases hl : lens.length ≤ nl + nd
  · obtain ⟨u, L, D, ha, -, -, -, -, rfl⟩ := finishLengths_ok hl h
    exact ⟨u, L, D, ha, rfl⟩
  · simp only [finishLengths, bind_ok, Prod.exists] at h
    obtain ⟨lens', u, hc, hb⟩ := h
    obtain ⟨h1, h2, rfl⟩ := buildDynamic_ok hb
    refine ⟨u, _, _, ?_, rfl⟩
    cases hn : nl + nd with
    | zero =>
      rw [hn] at hc
      simp only [clLoop, Except.ok.injEq, Prod.mk.injEq] at hc
      exact hc.2 ▸ Advanced.refl _
    | succ k =>
      rw [hn, clLoop, if_neg (by omega)] at hc
      simp only [Except.ok.injEq, Prod.mk.injEq] at hc
      exact hc.2 ▸ Advanced.refl _

theorem readClLengths_ok {order cl cl' : List Nat} {s t : State} (h : readClLengths order cl s = .ok (cl', t)) :
    Advanced s t ∧ t.bitpos = s.bitpos + 3 * order.length ∧ cl'.length = cl.length ∧
      ((∀ l ∈ cl, l < 16) → ∀ l ∈ cl', l < 16) := by
  induction order generalizing cl s with
  | nil =>
    simp only [readClLengths, Except.ok.injEq, Prod.mk.injEq] at h
    obtain ⟨rfl, rfl⟩ := h
    exact ⟨Advanced.refl _, rfl, rfl, id⟩
  | cons sym order ih =>
    simp only [readClLengths, bind_ok, Prod.exists] at h
    obtain ⟨v, s1, hr, hrec⟩ := h
    obtain ⟨a, hb, hlen, hm⟩ := ih hrec
    have hv : v < 8 := by
      obtain ⟨-, rfl, -⟩ := readBits_ok.1 hr
      exact bitsVal_lt _ _ 3
    have hp : s1.bitpos = s.bitpos + 3 := by
      obtain ⟨-, -, rfl⟩ := readBits_ok.1 hr
      rfl
    refine ⟨(readBits_advanced hr).trans a, by rw [hb, hp, List.length_cons]; omega, by simpa using hlen, fun ha => hm ?_⟩
    intro l hl
    rcases List.mem_or_eq_of_mem_set hl with hl | rfl
    · exact ha l hl
    · omega

/-- The fixed fields of a dynamic header: 26 bits at least, counts in range, 19 lengths below 16 (45 R262). -/
theorem readDynFields_ok {s t : State} {nl nd : Nat} {cl : List Nat}
    (h : readDynFields s = .ok (nl, nd, cl, t)) :
    Advanced s t ∧ s.bitpos + 26 ≤ t.bitpos ∧ 257 ≤ nl ∧ nl ≤ 288 ∧ 1 ≤ nd ∧ nd ≤ 32 ∧ cl.length = 19 ∧
      ∀ l ∈ cl, l < 16 := by
  simp only [readDynFields, bind_ok, Prod.exists, pure_ok, Except.ok.injEq, Prod.mk.injEq] at h
  obtain ⟨v1, s1, h1, v2, s2, h2, v3, s3, h3, c, s4, h4, rfl, rfl, rfl, rfl⟩ := h
  obtain ⟨a4, hp, hlen, hm⟩ := readClLengths_ok h4
  have b1 : v1 < 2 ^ 5 := by obtain ⟨-, rfl, -⟩ := readBits_ok.1 h1; exact bitsVal_lt _ _ _
  have b2 : v2 < 2 ^ 5 := by obtain ⟨-, rfl, -⟩ := readBits_ok.1 h2; exact bitsVal_lt _ _ _
  have b3 : v3 < 2 ^ 4 := by obtain ⟨-, rfl, -⟩ := readBits_ok.1 h3; exact bitsVal_lt _ _ _
  have p1 : s1.bitpos = s.bitpos + 5 := by obtain ⟨-, -, rfl⟩ := readBits_ok.1 h1; rfl
  have p2 : s2.bitpos = s1.bitpos + 5 := by obtain ⟨-, -, rfl⟩ := readBits_ok.1 h2; rfl
  have p3 : s3.bitpos = s2.bitpos + 4 := by obtain ⟨-, -, rfl⟩ := readBits_ok.1 h3; rfl
  have hord : (romClOrder.take (v3 + 4)).length = v3 + 4 := by
    rw [List.length_take, show romClOrder.length = 19 from rfl]; omega
  refine ⟨(((readBits_advanced h1).trans (readBits_advanced h2)).trans (readBits_advanced h3)).trans a4,
    by rw [hp, hord]; omega, by omega, by omega, by omega, by omega, by simpa using hlen, hm ?_⟩
  intro l hl
  have := List.eq_of_mem_replicate hl
  omega

end Sys2Proof.Machine
end

