-- ==== Sys2Proof/Laws/Exec.lean ====
section
/-! SUPPORT. What an instruction can do, said once for all 145 rows: its outcome is `finish` of one of the shared meanings; and
what a step can do. A property of every instruction is proved per shape, not per row. -/

namespace Sys2Proof.Machine

/-- The shapes of the meanings: every arm of `exec` is one of these. -/
inductive Meaning (s : State) : Except ErrCode State → Prop where
  | hdrStored (f : Bool) : Meaning s (headerRead f s >>= fun s1 => pure (setMode .stored s1))
  | hdrFixed (f : Bool) : Meaning s (headerRead f s >>= enterFixed)
  | hdrDynamic (f : Bool) : Meaning s (headerRead f s >>= enterDynamic)
  | hdrReserved (f : Bool) : Meaning s (headerRead f s >>= fun _ => .error .invalidBlockType)
  | storedBody : Meaning s (storedBody s >>= fun s1 => pure (blockEnd s1))
  | dynHeader : Meaning s (dynHeader s)
  | literal (b : Byte) (len : Nat) : Meaning s (literal b len s)
  | endOfBlock (len : Nat) : Meaning s (endOfBlock len s)
  | badLength (len : Nat) : Meaning s (badLength len s)
  | matchFixed (sym len : Nat) : Meaning s (matchFixed sym len s)
  | matchSym (sym len : Nat) : Meaning s (matchSym sym len s)
  | distPart (dcode len length : Nat) : Meaning s (distPart dcode len length s)
  | clLen (l : BitVec 4) (len : Nat) (q : ClSeq) :
      Meaning s (consume len s >>= fun s1 => finishLengths q.nl q.nd (q.lens ++ [l.toNat]) s1)
  | clRep (len : Nat) (q : ClSeq) :
      Meaning s (consume len s >>= fun s1 => clRepeat (q.nl + q.nd) q.lens s1 >>= fun p => finishLengths q.nl q.nd p.1 p.2)
  | clZeros (base n len : Nat) (q : ClSeq) (width : n ≤ 16) :
      Meaning s (consume len s >>= fun s1 =>
        clZeros base n (q.nl + q.nd) q.lens s1 width >>= fun p => finishLengths q.nl q.nd p.1 p.2)

/-- Every row's outcome is `finish` of one of the shapes. -/
theorem exec_meaning (i : Instr) (s : State) : ∃ r, Meaning s r ∧ exec i s = finish s r := by
  cases i with
  | hdrStored f => exact ⟨_, .hdrStored f, rfl⟩
  | hdrFixed f => exact ⟨_, .hdrFixed f, rfl⟩
  | hdrDynamic f => exact ⟨_, .hdrDynamic f, rfl⟩
  | hdrReserved f => exact ⟨_, .hdrReserved f, rfl⟩
  | storedBody => exact ⟨_, .storedBody, rfl⟩
  | dynhdr => exact ⟨_, .dynHeader, rfl⟩
  | clLen l len q => exact ⟨_, .clLen l len q, rfl⟩
  | clRep len q => exact ⟨_, .clRep len q, rfl⟩
  | clZero3 len q => exact ⟨_, .clZeros 3 3 len q (by decide), rfl⟩
  | clZero11 len q => exact ⟨_, .clZeros 11 7 len q (by decide), rfl⟩
  | lit0to15 | lit16to79 | lit80to143 | lit144to159 | lit160to191 | lit192to255 | lit => exact ⟨_, .literal _ _, rfl⟩
  | eobFix | eobSym => exact ⟨_, .endOfBlock _, rfl⟩
  | ll286Fix | ll287Fix | ll286Sym | ll287Sym => exact ⟨_, .badLength _, rfl⟩
  | len257Fix | len258Fix | len259Fix | len260Fix | len261Fix | len262Fix | len263Fix | len264Fix | len265Fix |
    len266Fix | len267Fix | len268Fix | len269Fix | len270Fix | len271Fix | len272Fix | len273Fix | len274Fix |
    len275Fix | len276Fix | len277Fix | len278Fix | len279Fix | len280Fix | len281Fix | len282Fix | len283Fix |
    len284Fix | len285Fix =>
    exact ⟨_, .matchFixed _ _, rfl⟩
  | len257Sym | len258Sym | len259Sym | len260Sym | len261Sym | len262Sym | len263Sym | len264Sym | len265Sym |
    len266Sym | len267Sym | len268Sym | len269Sym | len270Sym | len271Sym | len272Sym | len273Sym | len274Sym |
    len275Sym | len276Sym | len277Sym | len278Sym | len279Sym | len280Sym | len281Sym | len282Sym | len283Sym |
    len284Sym | len285Sym =>
    exact ⟨_, .matchSym _ _, rfl⟩
  | dist0Fix | dist1Fix | dist2Fix | dist3Fix | dist4Fix | dist5Fix | dist6Fix | dist7Fix | dist8Fix | dist9Fix |
    dist10Fix | dist11Fix | dist12Fix | dist13Fix | dist14Fix | dist15Fix | dist16Fix | dist17Fix | dist18Fix |
    dist19Fix | dist20Fix | dist21Fix | dist22Fix | dist23Fix | dist24Fix | dist25Fix | dist26Fix | dist27Fix |
    dist28Fix | dist29Fix | dist30Fix | dist31Fix =>
    exact ⟨_, .distPart _ _ _, rfl⟩
  | dist0Sym | dist1Sym | dist2Sym | dist3Sym | dist4Sym | dist5Sym | dist6Sym | dist7Sym | dist8Sym | dist9Sym |
    dist10Sym | dist11Sym | dist12Sym | dist13Sym | dist14Sym | dist15Sym | dist16Sym | dist17Sym | dist18Sym |
    dist19Sym | dist20Sym | dist21Sym | dist22Sym | dist23Sym | dist24Sym | dist25Sym | dist26Sym | dist27Sym |
    dist28Sym | dist29Sym | dist30Sym | dist31Sym =>
    exact ⟨_, .distPart _ _ _, rfl⟩

/-- Every instruction answers a next state in every state (00_scope.md R19). -/
theorem exec_next (i : Instr) (s : State) : ∃ t, exec i s = .next t := by
  obtain ⟨r, -, h⟩ := exec_meaning i s
  exact h ▸ finish_next s r

/-- What a next state of an instruction is: an answer of its meaning, or error entry. -/
theorem exec_cases {i : Instr} {s t : State} (h : exec i s = .next t) :
    (∃ r, Meaning s r ∧ r = .ok t) ∨ ∃ e, t = raise s e := by
  obtain ⟨r, hm, hr⟩ := exec_meaning i s
  rcases finish_cases (hr ▸ h) with h | ⟨e, -, h⟩
  · exact .inl ⟨r, hm, h⟩
  · exact .inr ⟨e, h⟩

/-- What a step can do: stand still when halted, execute the fetched instruction, or take the error of its decoding. -/
theorem step_cases {s t : State} (h : step s = .next t) :
    (fetch s = none ∧ t = s) ∨ (∃ i, fetch s = some (.ok i) ∧ exec i s = .next t) ∨
      ∃ e, fetch s = some (.error e) ∧ t = raise s e := by
  unfold step at h
  split at h
  · exact .inl ⟨‹_›, by simpa using h.symm⟩
  · exact .inr (.inl ⟨_, ‹_›, h⟩)
  · exact .inr (.inr ⟨_, ‹_›, by simpa using h.symm⟩)

/-- The fetch finds nothing exactly when the machine is halted (43 R200). -/
theorem fetch_none {s : State} : fetch s = none ↔ s.mode.running = false := by
  unfold fetch Mode.running
  cases s.mode <;> simp

/-- What the stored body answers (43 R203). -/
theorem storedBody_ok {s t : State} (h : storedBody s = .ok t) :
    ∃ u a n, Advanced s u ∧ s.bitpos + 32 ≤ u.bitpos ∧ a = u.bitpos / 8 ∧ u.bitpos % 8 = 0 ∧ n < 2 ^ 16 ∧
      a + n ≤ s.inSize ∧ exceedsCap s n = false ∧ t = setBitpos (u.bitpos + 8 * n) (storedLoop a n u) := by
  simp only [storedBody, bind_ok, Prod.exists] at h
  obtain ⟨n, s1, h1, v, s2, h2, h3⟩ := h
  obtain ⟨b1, e1, rfl⟩ := readBits_ok.1 h1
  obtain ⟨b2, -, rfl⟩ := readBits_ok.1 h2
  have hn : n < 2 ^ 16 := e1 ▸ bitsVal_lt _ _ _
  by_cases hin : (setBitpos ((setBitpos ((alignToByte s).bitpos + 16) (alignToByte s)).bitpos + 16)
      (setBitpos ((alignToByte s).bitpos + 16) (alignToByte s))).inSize <
      (setBitpos ((setBitpos ((alignToByte s).bitpos + 16) (alignToByte s)).bitpos + 16)
        (setBitpos ((alignToByte s).bitpos + 16) (alignToByte s))).bitpos / 8 + n
  · rw [if_pos hin] at h3; cases h3
  · rw [if_neg hin] at h3
    cases hc : exceedsCap (setBitpos ((setBitpos ((alignToByte s).bitpos + 16) (alignToByte s)).bitpos + 16)
        (setBitpos ((alignToByte s).bitpos + 16) (alignToByte s))) n
    · simp only [hc, Bool.false_eq_true, if_false, Except.ok.injEq] at h3
      simp only [alignToByte, setBitpos_bitpos, setBitpos_inSize, setBitpos_setBitpos] at b2 h3 hin hc
      exact ⟨setBitpos (8 * ((s.bitpos + 7) / 8) + 16 + 16) s, _, n, advanced_setBitpos (by omega) b2,
        by simp only [setBitpos_bitpos]; omega, rfl, by simp only [setBitpos_bitpos]; omega, hn,
        by simp only [setBitpos_bitpos]; omega, hc, h3.symm⟩
    · rw [hc, if_pos rfl] at h3; cases h3

end Sys2Proof.Machine
end

