-- ==== Sys2Proof/Laws/PerInstr.lean ====
section
/-! SUPPORT. The family `TableRow`: what the opcode table says of every element's value, one lemma per row. -/

namespace Sys2Proof.Laws.TableRow

open Sys2Proof

/-- The value of an element lies in its row of spec/opcode_table.json: under the row's mask it is the row's match, and it fits
the format's field, whatever the element's data bits and latches are (30_encoding.md R126). -/
def Statement (i : Instr) : Prop := encode i &&& i.row.1 = i.row.2 ∧ encode i < 2 ^ 16

/-- Every row, by the shape of its data bits. -/
theorem every_row (i : Instr) : Statement i := by
  unfold Statement
  cases i
  case hdrStored f => cases f <;> decide
  case hdrFixed f => cases f <;> decide
  case hdrDynamic f => cases f <;> decide
  case hdrReserved f => cases f <;> decide
  case lit0to15 x => revert x; decide +kernel
  case lit16to79 x => revert x; decide +kernel
  case lit80to143 x => revert x; decide +kernel
  case lit144to159 x => revert x; decide +kernel
  case lit160to191 x => revert x; decide +kernel
  case lit192to255 x => revert x; decide +kernel
  case lit b _ => simp only [encode, Instr.row]; revert b; decide +kernel
  case clLen l _ _ => simp only [encode, Instr.row]; revert l; decide +kernel
  all_goals simp only [encode, Instr.row]; decide

theorem hdrStored (bfinal : Bool) : Statement (.hdrStored bfinal) := every_row _
theorem hdrFixed (bfinal : Bool) : Statement (.hdrFixed bfinal) := every_row _
theorem hdrDynamic (bfinal : Bool) : Statement (.hdrDynamic bfinal) := every_row _
theorem hdrReserved (bfinal : Bool) : Statement (.hdrReserved bfinal) := every_row _
theorem storedBody : Statement .storedBody := every_row _
theorem dynhdr : Statement .dynhdr := every_row _
theorem lit0to15 (x : BitVec 4) : Statement (.lit0to15 x) := every_row _
theorem lit16to79 (x : BitVec 6) : Statement (.lit16to79 x) := every_row _
theorem lit80to143 (x : BitVec 6) : Statement (.lit80to143 x) := every_row _
theorem lit144to159 (x : BitVec 4) : Statement (.lit144to159 x) := every_row _
theorem lit160to191 (x : BitVec 5) : Statement (.lit160to191 x) := every_row _
theorem lit192to255 (x : BitVec 6) : Statement (.lit192to255 x) := every_row _
theorem eobFix : Statement .eobFix := every_row _
theorem len257Fix : Statement .len257Fix := every_row _
theorem len258Fix : Statement .len258Fix := every_row _
theorem len259Fix : Statement .len259Fix := every_row _
theorem len260Fix : Statement .len260Fix := every_row _
theorem len261Fix : Statement .len261Fix := every_row _
theorem len262Fix : Statement .len262Fix := every_row _
theorem len263Fix : Statement .len263Fix := every_row _
theorem len264Fix : Statement .len264Fix := every_row _
theorem len265Fix : Statement .len265Fix := every_row _
theorem len266Fix : Statement .len266Fix := every_row _
theorem len267Fix : Statement .len267Fix := every_row _
theorem len268Fix : Statement .len268Fix := every_row _
theorem len269Fix : Statement .len269Fix := every_row _
theorem len270Fix : Statement .len270Fix := every_row _
theorem len271Fix : Statement .len271Fix := every_row _
theorem len272Fix : Statement .len272Fix := every_row _
theorem len273Fix : Statement .len273Fix := every_row _
theorem len274Fix : Statement .len274Fix := every_row _
theorem len275Fix : Statement .len275Fix := every_row _
theorem len276Fix : Statement .len276Fix := every_row _
theorem len277Fix : Statement .len277Fix := every_row _
theorem len278Fix : Statement .len278Fix := every_row _
theorem len279Fix : Statement .len279Fix := every_row _
theorem len280Fix : Statement .len280Fix := every_row _
theorem len281Fix : Statement .len281Fix := every_row _
theorem len282Fix : Statement .len282Fix := every_row _
theorem len283Fix : Statement .len283Fix := every_row _
theorem len284Fix : Statement .len284Fix := every_row _
theorem len285Fix : Statement .len285Fix := every_row _
theorem ll286Fix : Statement .ll286Fix := every_row _
theorem ll287Fix : Statement .ll287Fix := every_row _
theorem dist0Fix (length : Nat) : Statement (.dist0Fix length) := every_row _
theorem dist1Fix (length : Nat) : Statement (.dist1Fix length) := every_row _
theorem dist2Fix (length : Nat) : Statement (.dist2Fix length) := every_row _
theorem dist3Fix (length : Nat) : Statement (.dist3Fix length) := every_row _
theorem dist4Fix (length : Nat) : Statement (.dist4Fix length) := every_row _
theorem dist5Fix (length : Nat) : Statement (.dist5Fix length) := every_row _
theorem dist6Fix (length : Nat) : Statement (.dist6Fix length) := every_row _
theorem dist7Fix (length : Nat) : Statement (.dist7Fix length) := every_row _
theorem dist8Fix (length : Nat) : Statement (.dist8Fix length) := every_row _
theorem dist9Fix (length : Nat) : Statement (.dist9Fix length) := every_row _
theorem dist10Fix (length : Nat) : Statement (.dist10Fix length) := every_row _
theorem dist11Fix (length : Nat) : Statement (.dist11Fix length) := every_row _
theorem dist12Fix (length : Nat) : Statement (.dist12Fix length) := every_row _
theorem dist13Fix (length : Nat) : Statement (.dist13Fix length) := every_row _
theorem dist14Fix (length : Nat) : Statement (.dist14Fix length) := every_row _
theorem dist15Fix (length : Nat) : Statement (.dist15Fix length) := every_row _
theorem dist16Fix (length : Nat) : Statement (.dist16Fix length) := every_row _
theorem dist17Fix (length : Nat) : Statement (.dist17Fix length) := every_row _
theorem dist18Fix (length : Nat) : Statement (.dist18Fix length) := every_row _
theorem dist19Fix (length : Nat) : Statement (.dist19Fix length) := every_row _
theorem dist20Fix (length : Nat) : Statement (.dist20Fix length) := every_row _
theorem dist21Fix (length : Nat) : Statement (.dist21Fix length) := every_row _
theorem dist22Fix (length : Nat) : Statement (.dist22Fix length) := every_row _
theorem dist23Fix (length : Nat) : Statement (.dist23Fix length) := every_row _
theorem dist24Fix (length : Nat) : Statement (.dist24Fix length) := every_row _
theorem dist25Fix (length : Nat) : Statement (.dist25Fix length) := every_row _
theorem dist26Fix (length : Nat) : Statement (.dist26Fix length) := every_row _
theorem dist27Fix (length : Nat) : Statement (.dist27Fix length) := every_row _
theorem dist28Fix (length : Nat) : Statement (.dist28Fix length) := every_row _
theorem dist29Fix (length : Nat) : Statement (.dist29Fix length) := every_row _
theorem dist30Fix (length : Nat) : Statement (.dist30Fix length) := every_row _
theorem dist31Fix (length : Nat) : Statement (.dist31Fix length) := every_row _
theorem lit (b : Byte) (len : Nat) : Statement (.lit b len) := every_row _
theorem eobSym (len : Nat) : Statement (.eobSym len) := every_row _
theorem len257Sym (len : Nat) : Statement (.len257Sym len) := every_row _
theorem len258Sym (len : Nat) : Statement (.len258Sym len) := every_row _
theorem len259Sym (len : Nat) : Statement (.len259Sym len) := every_row _
theorem len260Sym (len : Nat) : Statement (.len260Sym len) := every_row _
theorem len261Sym (len : Nat) : Statement (.len261Sym len) := every_row _
theorem len262Sym (len : Nat) : Statement (.len262Sym len) := every_row _
theorem len263Sym (len : Nat) : Statement (.len263Sym len) := every_row _
theorem len264Sym (len : Nat) : Statement (.len264Sym len) := every_row _
theorem len265Sym (len : Nat) : Statement (.len265Sym len) := every_row _
theorem len266Sym (len : Nat) : Statement (.len266Sym len) := every_row _
theorem len267Sym (len : Nat) : Statement (.len267Sym len) := every_row _
theorem len268Sym (len : Nat) : Statement (.len268Sym len) := every_row _
theorem len269Sym (len : Nat) : Statement (.len269Sym len) := every_row _
theorem len270Sym (len : Nat) : Statement (.len270Sym len) := every_row _
theorem len271Sym (len : Nat) : Statement (.len271Sym len) := every_row _
theorem len272Sym (len : Nat) : Statement (.len272Sym len) := every_row _
theorem len273Sym (len : Nat) : Statement (.len273Sym len) := every_row _
theorem len274Sym (len : Nat) : Statement (.len274Sym len) := every_row _
theorem len275Sym (len : Nat) : Statement (.len275Sym len) := every_row _
theorem len276Sym (len : Nat) : Statement (.len276Sym len) := every_row _
theorem len277Sym (len : Nat) : Statement (.len277Sym len) := every_row _
theorem len278Sym (len : Nat) : Statement (.len278Sym len) := every_row _
theorem len279Sym (len : Nat) : Statement (.len279Sym len) := every_row _
theorem len280Sym (len : Nat) : Statement (.len280Sym len) := every_row _
theorem len281Sym (len : Nat) : Statement (.len281Sym len) := every_row _
theorem len282Sym (len : Nat) : Statement (.len282Sym len) := every_row _
theorem len283Sym (len : Nat) : Statement (.len283Sym len) := every_row _
theorem len284Sym (len : Nat) : Statement (.len284Sym len) := every_row _
theorem len285Sym (len : Nat) : Statement (.len285Sym len) := every_row _
theorem ll286Sym (len : Nat) : Statement (.ll286Sym len) := every_row _
theorem ll287Sym (len : Nat) : Statement (.ll287Sym len) := every_row _
theorem dist0Sym (length : Nat) (len : Nat) : Statement (.dist0Sym length len) := every_row _
theorem dist1Sym (length : Nat) (len : Nat) : Statement (.dist1Sym length len) := every_row _
theorem dist2Sym (length : Nat) (len : Nat) : Statement (.dist2Sym length len) := every_row _
theorem dist3Sym (length : Nat) (len : Nat) : Statement (.dist3Sym length len) := every_row _
theorem dist4Sym (length : Nat) (len : Nat) : Statement (.dist4Sym length len) := every_row _
theorem dist5Sym (length : Nat) (len : Nat) : Statement (.dist5Sym length len) := every_row _
theorem dist6Sym (length : Nat) (len : Nat) : Statement (.dist6Sym length len) := every_row _
theorem dist7Sym (length : Nat) (len : Nat) : Statement (.dist7Sym length len) := every_row _
theorem dist8Sym (length : Nat) (len : Nat) : Statement (.dist8Sym length len) := every_row _
theorem dist9Sym (length : Nat) (len : Nat) : Statement (.dist9Sym length len) := every_row _
theorem dist10Sym (length : Nat) (len : Nat) : Statement (.dist10Sym length len) := every_row _
theorem dist11Sym (length : Nat) (len : Nat) : Statement (.dist11Sym length len) := every_row _
theorem dist12Sym (length : Nat) (len : Nat) : Statement (.dist12Sym length len) := every_row _
theorem dist13Sym (length : Nat) (len : Nat) : Statement (.dist13Sym length len) := every_row _
theorem dist14Sym (length : Nat) (len : Nat) : Statement (.dist14Sym length len) := every_row _
theorem dist15Sym (length : Nat) (len : Nat) : Statement (.dist15Sym length len) := every_row _
theorem dist16Sym (length : Nat) (len : Nat) : Statement (.dist16Sym length len) := every_row _
theorem dist17Sym (length : Nat) (len : Nat) : Statement (.dist17Sym length len) := every_row _
theorem dist18Sym (length : Nat) (len : Nat) : Statement (.dist18Sym length len) := every_row _
theorem dist19Sym (length : Nat) (len : Nat) : Statement (.dist19Sym length len) := every_row _
theorem dist20Sym (length : Nat) (len : Nat) : Statement (.dist20Sym length len) := every_row _
theorem dist21Sym (length : Nat) (len : Nat) : Statement (.dist21Sym length len) := every_row _
theorem dist22Sym (length : Nat) (len : Nat) : Statement (.dist22Sym length len) := every_row _
theorem dist23Sym (length : Nat) (len : Nat) : Statement (.dist23Sym length len) := every_row _
theorem dist24Sym (length : Nat) (len : Nat) : Statement (.dist24Sym length len) := every_row _
theorem dist25Sym (length : Nat) (len : Nat) : Statement (.dist25Sym length len) := every_row _
theorem dist26Sym (length : Nat) (len : Nat) : Statement (.dist26Sym length len) := every_row _
theorem dist27Sym (length : Nat) (len : Nat) : Statement (.dist27Sym length len) := every_row _
theorem dist28Sym (length : Nat) (len : Nat) : Statement (.dist28Sym length len) := every_row _
theorem dist29Sym (length : Nat) (len : Nat) : Statement (.dist29Sym length len) := every_row _
theorem dist30Sym (length : Nat) (len : Nat) : Statement (.dist30Sym length len) := every_row _
theorem dist31Sym (length : Nat) (len : Nat) : Statement (.dist31Sym length len) := every_row _
theorem clLen (l : BitVec 4) (len : Nat) (q : ClSeq) : Statement (.clLen l len q) := every_row _
theorem clRep (len : Nat) (q : ClSeq) : Statement (.clRep len q) := every_row _
theorem clZero3 (len : Nat) (q : ClSeq) : Statement (.clZero3 len q) := every_row _
theorem clZero11 (len : Nat) (q : ClSeq) : Statement (.clZero11 len q) := every_row _

end Sys2Proof.Laws.TableRow
end

