-- ==== Sys2Proof/Laws/Step.lean ====
section
/-! SUPPORT. What one step can do, said once: `step_does` lists every next state, and `mayRaise` what an error can be. A property
of every step is a case analysis over `StepDoes`, not over the 145 rows. -/

namespace Sys2Proof.Machine

-- Without this, unification unfolds a field of literal width bit by bit.
seal bitsVal rev

/-- Errors of the core, by what they need: none is the host's (60 R311, R319), and four depend on the mode or a parameter
(R312, R313, R315, R321). -/
def MayRaise (s : State) (e : ErrCode) : Prop :=
  e ≠ .invalidMagic ∧ e ≠ .trailerMissing ∧
    (e = .unsupportedDynamicHuffman → s.mode = .readBlockHeader ∧ s.cfg.dynSupport = false) ∧
    (e = .corruptHuffmanCode →
      s.mode = .dynamicHuffman ∨ (s.mode = .fixedHuffman ∧ ∃ w, w < 2 ^ 16 ∧ decodeWindow s.tblFixll w = .error e)) ∧
    (e = .invalidCodeLengthTable → s.mode = .dynamicHuffman) ∧
    (e = .outputCapacityExceeded → s.cfg.outCap ≠ none)

/-- The state takes symbols: a fixed-Huffman block, or a dynamic one after its header (43 R200). -/
def InSymbols (s : State) : Prop := s.mode = .fixedHuffman ∨ (s.mode = .dynamicHuffman ∧ s.dynValid = true)

/-- The number of bits a symbol of the block in progress can take (42 R180, R187). -/
def SymbolLen (s : State) (len : Nat) : Prop :=
  1 ≤ len ∧ len ≤ 15 ∧ (s.mode = .fixedHuffman → s.tblFixll = fixedTable → 7 ≤ len ∧ len ≤ 9)

/-- The number of bits the length symbol of a match can take: 7 or 8 in the fixed code (30 R105). -/
def MatchLen (s : State) (len : Nat) : Prop := s.mode = .fixedHuffman → s.tblFixll = fixedTable → len ≤ 8

/-- The state with the header's three bits consumed and BFINAL latched. -/
def afterHeader (s : State) : State := setBfinal (sbit s s.bitpos) (setBitpos (s.bitpos + 3) s)

/-- Every next state of a step, by its cause. -/
inductive StepDoes (s : State) : State → Prop where
  | halted : s.mode.running = false → StepDoes s s
  | raised (e : ErrCode) : s.mode.running = true → MayRaise s e → StepDoes s (raise s e)
  | headerStored : s.mode = .readBlockHeader → s.bitpos + 3 ≤ 8 * s.inSize → StepDoes s (setMode .stored (afterHeader s))
  | headerFixed : s.mode = .readBlockHeader → s.bitpos + 3 ≤ 8 * s.inSize →
      StepDoes s (setMode .fixedHuffman (if s.fixedValid = true then afterHeader s else setFixll fixedTable (afterHeader s)))
  | headerDynamic : s.mode = .readBlockHeader → s.bitpos + 3 ≤ 8 * s.inSize → s.cfg.dynSupport = true →
      StepDoes s (setMode .dynamicHuffman (setDynValid false (afterHeader s)))
  | storedBody (u : State) (a n : Nat) : s.mode = .stored → Advanced s u → s.bitpos + 32 ≤ u.bitpos → a = u.bitpos / 8 →
      u.bitpos % 8 = 0 → n < 2 ^ 16 → a + n ≤ s.inSize → exceedsCap s n = false →
      StepDoes s (blockEnd (setBitpos (u.bitpos + 8 * n) (storedLoop a n u)))
  | literal (b : Byte) (len : Nat) : InSymbols s → SymbolLen s len → s.bitpos + len ≤ 8 * s.inSize →
      exceedsCap s 1 = false → StepDoes s (appendByte b (setBitpos (s.bitpos + len) s))
  | endOfBlock (len : Nat) : InSymbols s → SymbolLen s len → s.bitpos + len ≤ 8 * s.inSize →
      StepDoes s (blockEnd (setBitpos (s.bitpos + len) s))
  | copied (u : State) (len length distance : Nat) : InSymbols s → SymbolLen s len → MatchLen s len → Advanced s u →
      s.bitpos + len ≤ u.bitpos → u.bitpos ≤ 8 * s.inSize →
      u.bitpos ≤ s.bitpos + len + (if s.mode = .fixedHuffman then 23 else 33) → length ≤ 258 →
      distance ≤ s.outLen → exceedsCap s length = false → StepDoes s (copyLoop distance length u)
  | dynHeader (u : State) (cl L D : List Nat) : s.mode = .dynamicHuffman → s.dynValid = false → Advanced s u →
      s.bitpos + 26 ≤ u.bitpos → 257 ≤ L.length → L.length ≤ 288 → 1 ≤ D.length → D.length ≤ 32 →
      (∀ l ∈ L, l < 16) → (∀ l ∈ D, l < 16) →
      StepDoes s (setDynValid true (setDynTables (tableOf L) (tableOf D) (setClt (tableOf cl) u)))

/-! ### Errors -/

theorem mayRaise_of_other {s : State} {e : ErrCode}
    (h : e = .truncatedStream ∨ e = .invalidBlockType ∨ e = .invalidLengthCode ∨ e = .invalidDistanceCode ∨
      e = .distanceBeyondOutput) : MayRaise s e := by
  rcases h with rfl | rfl | rfl | rfl | rfl <;> simp [MayRaise]

theorem exceedsCap_some {s : State} {n : Nat} (h : exceedsCap s n = true) : s.cfg.outCap ≠ none := by
  intro hc
  simp [exceedsCap, hc] at h

/-- A capacity error, or one no mode rules out. -/
def SymbolError (s : State) (e : ErrCode) : Prop :=
  e = .truncatedStream ∨ e = .invalidLengthCode ∨ e = .invalidDistanceCode ∨ e = .distanceBeyondOutput ∨
    (e = .outputCapacityExceeded ∧ s.cfg.outCap ≠ none) ∨ (e = .corruptHuffmanCode ∧ s.mode = .dynamicHuffman)

theorem mayRaise_of_symbol {s : State} {e : ErrCode} (h : SymbolError s e) : MayRaise s e := by
  rcases h with h | h | h | h | ⟨rfl, h⟩ | ⟨rfl, h⟩
  · exact mayRaise_of_other (.inl h)
  · exact mayRaise_of_other (.inr (.inr (.inl h)))
  · exact mayRaise_of_other (.inr (.inr (.inr (.inl h))))
  · exact mayRaise_of_other (.inr (.inr (.inr (.inr h))))
  · simp [MayRaise, h]
  · simp [MayRaise, h]

theorem copy_raises {s u : State} {length distance : Nat} {e : ErrCode} (hc : u.cfg = s.cfg)
    (h : copy length distance u = .error e) : SymbolError s e := by
  unfold copy at h
  split at h
  · cases h; simp [SymbolError]
  · split at h
    · rename_i hx
      cases h
      exact .inr (.inr (.inr (.inr (.inl ⟨rfl, hc ▸ exceedsCap_some hx⟩))))
    · cases h

theorem matchTail_raises {s u : State} {length dcode : Nat} {e : ErrCode} (hc : u.cfg = s.cfg)
    (h : matchTail length dcode u = .error e) : SymbolError s e := by
  unfold matchTail at h
  split at h
  · cases h; simp [SymbolError]
  · rcases bind_error.1 h with h | ⟨⟨x, v⟩, hr, h⟩
    · exact .inl (readBits_error.1 h).2
    · obtain ⟨-, -, rfl⟩ := readBits_ok.1 hr
      exact copy_raises (s := s) (u := setBitpos (u.bitpos + distExtraBits dcode) u) (by rw [setBitpos_cfg]; exact hc) h

theorem readLength_raises {s u : State} {sym : Nat} {e : ErrCode} (h : readLength sym u = .error e) : SymbolError s e := by
  rcases bind_error.1 h with h | ⟨⟨x, v⟩, -, h⟩
  · exact .inl (readBits_error.1 h).2
  · cases h

theorem readFixedDist_raises {s u : State} {e : ErrCode} (h : readFixedDist u = .error e) : SymbolError s e := by
  rcases bind_error.1 h with h | ⟨⟨x, v⟩, -, h⟩
  · exact .inl (readBits_error.1 h).2
  · cases h

theorem readTableDist_raises {s u : State} {e : ErrCode} (hm : s.mode = .dynamicHuffman)
    (h : readTableDist u = .error e) : SymbolError s e := by
  rcases bind_error.1 h with h | ⟨⟨x, v⟩, -, h⟩
  · rcases decodeSym_error h with ⟨-, rfl⟩ | ⟨-, rfl⟩
    · exact .inl rfl
    · exact .inr (.inr (.inr (.inr (.inr ⟨rfl, hm⟩))))
  · rcases bind_error.1 h with h | ⟨_, -, h⟩
    · exact .inl (consume_error.1 h).2
    · cases h

theorem matchFixed_raises {s : State} {sym len : Nat} {e : ErrCode} (h : matchFixed sym len s = .error e) :
    SymbolError s e := by
  rcases bind_error.1 h with h | ⟨s1, h1, h⟩
  · exact .inl (consume_error.1 h).2
  rcases bind_error.1 h with h | ⟨⟨v, s2⟩, h2, h⟩
  · exact readLength_raises h
  rcases bind_error.1 h with h | ⟨⟨d, s3⟩, h3, h⟩
  · exact readFixedDist_raises h
  obtain ⟨-, e1⟩ := consume_ok.1 h1
  obtain ⟨-, -, e2⟩ := readLength_ok.1 h2
  obtain ⟨-, -, e3⟩ := readFixedDist_ok.1 h3
  exact matchTail_raises (by rw [e3, e2, e1]; simp only [setBitpos_cfg]) h

theorem matchSym_raises {s : State} {sym len : Nat} {e : ErrCode} (hm : InSymbols s)
    (h : matchSym sym len s = .error e) : SymbolError s e := by
  rcases bind_error.1 h with h | ⟨s1, h1, h⟩
  · exact .inl (consume_error.1 h).2
  rcases bind_error.1 h with h | ⟨⟨v, s2⟩, h2, h⟩
  · exact readLength_raises h
  obtain ⟨-, e1⟩ := consume_ok.1 h1
  obtain ⟨-, -, e2⟩ := readLength_ok.1 h2
  have hmode : s2.mode = s.mode := by rw [e2, e1]; simp only [setBitpos_mode]
  rcases bind_error.1 h with h | ⟨⟨d, s3⟩, h3, h⟩
  · unfold readDist at h
    split at h
    · exact readFixedDist_raises h
    · rename_i hn
      exact readTableDist_raises (by rcases hm with hm | hm; exacts [absurd (hmode.trans hm) hn, hm.1]) h
  have e3 := (readDist_advanced h3).1
  exact matchTail_raises (by rw [e3, e2, e1]; simp only [setBitpos_cfg]) h

theorem literal_raises {s : State} {b : Byte} {len : Nat} {e : ErrCode} (h : literal b len s = .error e) :
    SymbolError s e := by
  rcases bind_error.1 h with h | ⟨s1, h1, h⟩
  · exact .inl (consume_error.1 h).2
  obtain ⟨-, e1⟩ := consume_ok.1 h1
  obtain ⟨hx, rfl⟩ := emit_error.1 h
  exact .inr (.inr (.inr (.inr (.inl ⟨rfl, by have := exceedsCap_some hx; rwa [e1] at this⟩))))

theorem badLength_raises {s : State} {len : Nat} {e : ErrCode} (h : badLength len s = .error e) : SymbolError s e := by
  rcases bind_error.1 h with h | ⟨s1, h1, h⟩
  · exact .inl (consume_error.1 h).2
  · cases h; exact .inr (.inl rfl)

theorem endOfBlock_raises {s : State} {len : Nat} {e : ErrCode} (h : endOfBlock len s = .error e) : SymbolError s e := by
  rcases bind_error.1 h with h | ⟨s1, h1, h⟩
  · exact .inl (consume_error.1 h).2
  · cases h

/-- What a dynamic header can raise before its tables are built. -/
def HeaderError (e : ErrCode) : Prop := e = .truncatedStream ∨ e = .corruptHuffmanCode ∨ e = .invalidCodeLengthTable

theorem appendRun_raises {tot r v : Nat} {lens : List Nat} {e : ErrCode} (h : appendRun tot r v lens = .error e) :
    HeaderError e := by
  unfold appendRun at h
  split at h
  · cases h; exact .inr (.inr rfl)
  · cases h

theorem clZeros_raises {base n tot : Nat} {lens : List Nat} {s : State} {e : ErrCode} {width : n ≤ 16}
    (h : clZeros base n tot lens s width = .error e) : HeaderError e := by
  rcases bind_error.1 h with h | ⟨⟨x, s1⟩, -, h⟩
  · exact .inl (readBits_error.1 h).2
  rcases bind_error.1 h with h | ⟨_, -, h⟩
  · exact appendRun_raises h
  · cases h

theorem clSymbol_raises {sym tot : Nat} {lens : List Nat} {s : State} {e : ErrCode}
    (h : clSymbol sym tot lens s = .error e) : HeaderError e := by
  unfold clSymbol at h
  split at h
  · cases h
  split at h
  · unfold clRepeat at h
    split at h
    · cases h; exact .inr (.inr rfl)
    · rcases bind_error.1 h with h | ⟨⟨x, s1⟩, -, h⟩
      · exact .inl (readBits_error.1 h).2
      rcases bind_error.1 h with h | ⟨_, -, h⟩
      · exact appendRun_raises h
      · cases h
  split at h
  · exact clZeros_raises h
  · exact clZeros_raises h

theorem clLoop_raises {tot k : Nat} {lens : List Nat} {s : State} {e : ErrCode} (h : clLoop tot k lens s = .error e) :
    HeaderError e := by
  induction k generalizing lens s with
  | zero => cases h
  | succ k ih =>
    rw [clLoop] at h
    split at h
    · rcases bind_error.1 h with h | ⟨⟨sym, len⟩, -, h⟩
      · rcases decodeSym_error h with ⟨-, rfl⟩ | ⟨-, rfl⟩
        · exact .inl rfl
        · exact .inr (.inl rfl)
      rcases bind_error.1 h with h | ⟨s1, -, h⟩
      · exact .inl (consume_error.1 h).2
      rcases bind_error.1 h with h | ⟨⟨l1, s2⟩, -, h⟩
      · exact clSymbol_raises h
      · exact ih h
    · cases h

theorem readClLengths_raises {order cl : List Nat} {s : State} {e : ErrCode} (h : readClLengths order cl s = .error e) :
    HeaderError e := by
  induction order generalizing cl s with
  | nil => cases h
  | cons sym order ih =>
    rcases bind_error.1 h with h | ⟨⟨x, s1⟩, -, h⟩
    · exact .inl (readBits_error.1 h).2
    · exact ih h

theorem readDynFields_raises {s : State} {e : ErrCode} (h : readDynFields s = .error e) : HeaderError e := by
  rcases bind_error.1 h with h | ⟨⟨x, s1⟩, -, h⟩
  · exact .inl (readBits_error.1 h).2
  rcases bind_error.1 h with h | ⟨⟨x, s1⟩, -, h⟩
  · exact .inl (readBits_error.1 h).2
  rcases bind_error.1 h with h | ⟨⟨x, s1⟩, -, h⟩
  · exact .inl (readBits_error.1 h).2
  rcases bind_error.1 h with h | ⟨⟨x, s1⟩, -, h⟩
  · exact readClLengths_raises h
  · cases h

theorem dynHeader_raises {s : State} {e : ErrCode} (h : dynHeader s = .error e) : HeaderError e := by
  rcases bind_error.1 h with h | ⟨⟨nl, nd, cl, s1⟩, -, h⟩
  · exact readDynFields_raises h
  rcases bind_error.1 h with h | ⟨T, -, h⟩
  · exact .inr (.inr (build_error h))
  rcases bind_error.1 h with h | ⟨⟨lens, s2⟩, -, h⟩
  · exact clLoop_raises h
  rcases bind_error.1 h with h | ⟨L, -, h⟩
  · exact .inr (.inr (build_error h))
  rcases bind_error.1 h with h | ⟨D, -, h⟩
  · exact .inr (.inr (build_error h))
  · cases h

/-! ### Symbol steps -/

/-- The symbol `DECODE` answers is in the bucket of the length it answers (42 R184). -/
theorem decodeWindow_mem {T : DecodeTable} {w sym len : Nat} (h : decodeWindow T w = .ok (sym, len)) :
    ∃ x ∈ T.symbols len, x.toNat = sym := by
  unfold decodeWindow at h
  split at h
  · cases h
  · split at h
    · rename_i l _ hi
      simp only [Except.ok.injEq, Prod.mk.injEq] at h
      obtain ⟨h1, rfl⟩ := h
      have hlt : unpad w l - unpad (T.padded l) l < (T.symbols l).length := hi.2
      refine ⟨_, List.getElem_mem hlt, ?_⟩
      rw [← h1, List.getD_eq_getElem _ _ hlt]
    · cases h

/-- A symbol in a bucket has the bucket's code length (41 R162). -/
theorem mem_tableOf_symbols {lens : List Nat} {len : Nat} {x : U16} (hlen : len < 16) (h : x ∈ (tableOf lens).symbols len) :
    ∃ i, i < lens.length ∧ lens[i]? = some len ∧ x = BitVec.ofNat 16 i ∧ len ≠ 0 := by
  have hb : (tableOf lens).symbols len = bucketSymbols lens len := congrArg Bucket.symbols (tableOf_bucket lens hlen)
  rw [hb, bucketSymbols] at h
  split at h
  · cases h
  · rename_i h0
    obtain ⟨⟨l, i⟩, hp, rfl⟩ := List.mem_map.1 h
    obtain ⟨hz, hl⟩ := List.mem_filter.1 hp
    have := List.mem_zipIdx_iff_getElem?.1 hz
    simp only [beq_iff_eq] at hl
    subst hl
    exact ⟨i, (List.getElem?_eq_some_iff.1 this).1, this, rfl, h0⟩
/-- The code length of a symbol of the fixed alphabet (10_state.md R47). -/
theorem romFixedLengths_getD (sym : Nat) (h : sym < 288) :
    romFixedLengths.getD sym 0 = if sym < 144 then 8 else if sym < 256 then 9 else if sym < 280 then 7 else 8 := by
  have key : ∀ sym < 288,
      romFixedLengths.getD sym 0 = if sym < 144 then 8 else if sym < 256 then 9 else if sym < 280 then 7 else 8 := by
    decide +kernel
  exact key sym h

/-- A code of the fixed table has the length the fixed alphabet gives its symbol, 7 to 9 (10_state.md R47, R49). -/
theorem decodeWindow_fixedTable_len {w sym len : Nat} (h : decodeWindow fixedTable w = .ok (sym, len)) :
    len = romFixedLengths.getD sym 0 ∧ 7 ≤ len ∧ len ≤ 9 := by
  have hb := decodeWindow_len h
  obtain ⟨x, hx, rfl⟩ := decodeWindow_mem h
  obtain ⟨i, hi, hl, rfl, -⟩ := mem_tableOf_symbols (by omega) hx
  have hi : i < 288 := by
    simp only [romFixedLengths, List.length_append, List.length_replicate] at hi
    omega
  have hn : (BitVec.ofNat 16 i).toNat = i := by rw [BitVec.toNat_ofNat]; omega
  have hl : romFixedLengths.getD i 0 = len := by rw [List.getD_eq_getElem?_getD, hl]; rfl
  have hr := romFixedLengths_getD i hi
  rw [hn, hl]
  rw [hl] at hr
  refine ⟨rfl, ?_⟩
  split at hr
  · omega
  · split at hr
    · omega
    · split at hr <;> omega

theorem lenExtraBits_le (sym : Nat) (h : 257 ≤ sym) (h' : sym ≤ 285) : lenExtraBits sym ≤ 5 := by
  have key : ∀ k < 29, lenExtraBits (257 + k) ≤ 5 := by decide
  have := key (sym - 257) (by omega)
  rwa [show 257 + (sym - 257) = sym by omega] at this

theorem distExtraBits_le {d : Nat} (h : d < 30) : distExtraBits d ≤ 13 := by
  have key : ∀ d < 30, distExtraBits d ≤ 13 := by decide
  exact key d h

/-- A match is at most 258 bytes long (30 R107). -/
theorem matchLength_le (sym x : Nat) (h : 257 ≤ sym) (h' : sym ≤ 285) (hx : x < 2 ^ lenExtraBits sym) :
    lenBase sym + x ≤ 258 := by
  have key : ∀ k < 29, lenBase (257 + k) + 2 ^ lenExtraBits (257 + k) ≤ 259 := by decide
  have := key (sym - 257) (by omega)
  rw [show 257 + (sym - 257) = sym by omega] at this
  omega

/-- What a symbol of a block does, whichever row it is (43 R204, 45 R265). -/
inductive SymbolMeaning (s : State) (len : Nat) : Except ErrCode State → Prop where
  | literal (b : Byte) : SymbolMeaning s len (literal b len s)
  | endOfBlock : SymbolMeaning s len (endOfBlock len s)
  | badLength : SymbolMeaning s len (badLength len s)
  | matchFixed (sym : Nat) : 257 ≤ sym → sym ≤ 285 → MatchLen s len → SymbolMeaning s len (matchFixed sym len s)
  | matchSym (sym : Nat) : 257 ≤ sym → sym ≤ 285 → MatchLen s len → SymbolMeaning s len (matchSym sym len s)

theorem symbol_does {s t : State} {len : Nat} {r : Except ErrCode State} (hs : InSymbols s) (hl : SymbolLen s len)
    (hm : SymbolMeaning s len r) (h : finish s r = .next t) : StepDoes s t := by
  have hrun : s.mode.running = true := by rcases hs with h | h <;> simp [h, Mode.running]
  rcases finish_cases h with rfl | ⟨e, he, rfl⟩
  · generalize hr : Except.ok t = r at hm
    cases hm with
    | literal b =>
      obtain ⟨hb, hc, rfl⟩ := literal_ok.1 hr.symm
      exact .literal b len hs hl hb hc
    | endOfBlock =>
      obtain ⟨hb, rfl⟩ := endOfBlock_ok.1 hr.symm
      exact .endOfBlock len hs hl hb
    | badLength => exact absurd hr.symm badLength_ne_ok
    | matchFixed sym h1 h2 h8 =>
      obtain ⟨hb, ht⟩ := matchFixed_ok.1 hr.symm
      obtain ⟨hd, hb2, hdist, hc, rfl⟩ := matchTail_ok.1 ht
      simp only [setBitpos_bitpos, setBitpos_inSize, setBitpos_setBitpos] at hb2 ⊢
      have hx := lenExtraBits_le sym h1 h2
      have hy := distExtraBits_le hd
      refine .copied _ len _ _ hs hl h8 (advanced_setBitpos (by omega) hb2) (by simp only [setBitpos_bitpos]; omega)
        (by simp only [setBitpos_bitpos]; omega) ?_ (matchLength_le sym _ h1 h2 (bitsVal_lt _ _ _)) hdist hc
      rw [setBitpos_bitpos]
      split <;> omega
    | matchSym sym h1 h2 h8 =>
      have hr := hr.symm
      simp only [matchSym, bind_ok, Prod.exists] at hr
      obtain ⟨s1, g1, v, s2, g2, d, s3, g3, g4⟩ := hr
      obtain ⟨hb1, e1⟩ := consume_ok.1 g1
      obtain ⟨hb2, ev, e2⟩ := readLength_ok.1 g2
      obtain ⟨hd, hb4, hdist, hc, ht⟩ := matchTail_ok.1 g4
      generalize distBase d + bitsVal (sbit s3) s3.bitpos (distExtraBits d) = dist at hdist ht
      subst ht
      have hx := lenExtraBits_le sym h1 h2
      have hy := distExtraBits_le hd
      have a3 := readDist_advanced g3
      have hlen : v ≤ 258 := ev ▸ matchLength_le sym _ h1 h2 (bitsVal_lt _ _ _)
      have e3 := a3.1
      have p1 : s1.bitpos = s.bitpos + len := by rw [e1, setBitpos_bitpos]
      have p2 : s2.bitpos = s.bitpos + len + lenExtraBits sym := by rw [e2, setBitpos_bitpos, p1]
      have i2 : s2.inSize = s.inSize := by rw [e2, e1]; simp only [setBitpos_inSize]
      have i3 : s3.inSize = s.inSize := by rw [e3, setBitpos_inSize, i2]
      have hp3 : s3.bitpos ≤ s2.bitpos + (if s.mode = .fixedHuffman then 5 else 15) := by
        unfold readDist at g3
        have hmode : s2.mode = s.mode := by rw [e2, e1]; simp only [setBitpos_mode]
        rw [hmode] at g3
        split at g3
        · rename_i hf
          obtain ⟨-, -, e⟩ := readFixedDist_ok.1 g3
          rw [if_pos hf, e, setBitpos_bitpos]
        · rename_i hf
          obtain ⟨dl, hdl, -, e⟩ := readTableDist_ok.1 g3
          have := decodeWindow_len (decodeSym_ok.1 hdl).2
          rw [if_neg hf, e, setBitpos_bitpos]
          omega
      have hu : setBitpos (s3.bitpos + distExtraBits d) s3 = setBitpos (s3.bitpos + distExtraBits d) s := by
        rw [e3, e2, e1]; simp only [setBitpos_setBitpos]
      rw [hu]
      have hle := a3.2.1
      have hcap : exceedsCap s v = exceedsCap s3 v :=
        exceedsCap_congr (s := s3) (t := s) v v (by rw [e3, e2, e1]; simp only [setBitpos_cfg])
          (by rw [e3, e2, e1]; simp only [setBitpos_outLen])
      have hout : s3.outLen = s.outLen := by rw [e3, e2, e1]; simp only [setBitpos_outLen]
      rw [hout] at hdist
      have hadv : Advanced s (setBitpos (s3.bitpos + distExtraBits d) s) := advanced_setBitpos (by omega) (by omega)
      have hp : (setBitpos (s3.bitpos + distExtraBits d) s).bitpos = s3.bitpos + distExtraBits d := setBitpos_bitpos _ _
      generalize setBitpos (s3.bitpos + distExtraBits d) s = u at hadv hp ⊢
      refine .copied u len v dist hs hl h8 hadv (by omega) (by omega) ?_ hlen hdist (hcap.trans hc)
      by_cases hf : s.mode = .fixedHuffman
      · rw [if_pos hf] at hp3 ⊢; omega
      · rw [if_neg hf] at hp3 ⊢; omega
  · refine .raised e hrun (mayRaise_of_symbol ?_)
    generalize hr : Except.error e = r' at he
    cases he
    cases hm with
    | literal b => exact literal_raises hr.symm
    | endOfBlock => exact endOfBlock_raises hr.symm
    | badLength => exact badLength_raises hr.symm
    | matchFixed sym _ _ _ => exact matchFixed_raises hr.symm
    | matchSym sym _ _ _ => exact matchSym_raises hs hr.symm

/-! ### The step -/

theorem lengthFixRows_exec (k : Nat) (row : Instr) (s : State) (hk : k < 29) (h : lengthFixRows[k]? = some row) :
    exec row s = finish s (matchFixed (257 + k) (if k < 23 then 7 else 8) s) := by
  interval_cases k <;>
    (simp only [lengthFixRows, List.getElem?_cons_succ, List.getElem?_cons_zero, Option.some.injEq] at h; subst h; rfl)

theorem lengthSymRows_exec (k c : Nat) (mk : Nat → Instr) (s : State) (hk : k < 29) (h : lengthSymRows[k]? = some mk) :
    exec (mk c) s = finish s (matchSym (257 + k) c s) := by
  interval_cases k <;>
    (simp only [lengthSymRows, List.getElem?_cons_succ, List.getElem?_cons_zero, Option.some.injEq] at h; subst h; rfl)

/-- A symbol's LLSYM row has a symbol's meaning. -/
theorem llsymInstr_meaning {sym len : Nat} {i : Instr} (s : State) (h8 : MatchLen s len)
    (h : llsymInstr sym len = some i) :
    ∃ r, SymbolMeaning s len r ∧ exec i s = finish s r := by
  unfold llsymInstr at h
  split at h
  · cases h; exact ⟨_, .literal _, rfl⟩
  split at h
  · cases h; exact ⟨_, .endOfBlock, rfl⟩
  obtain ⟨mk, hmk, rfl⟩ := Option.map_eq_some_iff.1 h
  have hlt : sym - 257 < 31 := by
    have := (List.getElem?_eq_some_iff.1 hmk).1
    simpa [lengthSymRows] using this
  by_cases h29 : sym - 257 < 29
  · exact ⟨_, .matchSym (257 + (sym - 257)) (by omega) (by omega) h8, lengthSymRows_exec _ _ _ _ h29 hmk⟩
  · obtain hk | hk : sym - 257 = 29 ∨ sym - 257 = 30 := by omega
    all_goals
      rw [hk] at hmk
      simp only [lengthSymRows, List.getElem?_cons_succ, List.getElem?_cons_zero, Option.some.injEq] at hmk
      subst hmk
      exact ⟨_, .badLength, rfl⟩

/-- A symbol's FIXLL row has a symbol's meaning, with the code length of the fixed alphabet. -/
theorem fixllInstr_meaning {sym : Nat} {i : Instr} (s : State) (h : fixllInstr sym = some i) :
    ∃ r, SymbolMeaning s (romFixedLengths.getD sym 0) r ∧ exec i s = finish s r := by
  have hlen : sym < 288 := by
    by_contra hn
    unfold fixllInstr at h
    repeat rw [if_neg (by omega)] at h
    rw [List.getElem?_eq_none (by simp [lengthFixRows]; omega)] at h
    cases h
  have hl := romFixedLengths_getD sym hlen
  unfold fixllInstr at h
  split at h
  · cases h; rw [hl, if_pos (by omega)]; exact ⟨_, .literal _, rfl⟩
  split at h
  · cases h; rw [hl, if_pos (by omega)]; exact ⟨_, .literal _, rfl⟩
  split at h
  · cases h; rw [hl, if_pos (by omega)]; exact ⟨_, .literal _, rfl⟩
  split at h
  · cases h; rw [hl, if_neg (by omega), if_pos (by omega)]; exact ⟨_, .literal _, rfl⟩
  split at h
  · cases h; rw [hl, if_neg (by omega), if_pos (by omega)]; exact ⟨_, .literal _, rfl⟩
  split at h
  · cases h; rw [hl, if_neg (by omega), if_pos (by omega)]; exact ⟨_, .literal _, rfl⟩
  split at h
  · cases h; rw [hl, if_neg (by omega), if_neg (by omega), if_pos (by omega)]; exact ⟨_, .endOfBlock, rfl⟩
  rw [hl, if_neg (by omega), if_neg (by omega)]
  by_cases h29 : sym - 257 < 29
  · refine ⟨matchFixed (257 + (sym - 257)) (if sym < 280 then 7 else 8) s, .matchFixed _ (by omega) (by omega) ?_, ?_⟩
    · intro _ _; split <;> omega
    · have he : (if sym - 257 < 23 then 7 else 8) = if sym < 280 then 7 else 8 := by split <;> split <;> omega
      rw [lengthFixRows_exec _ _ _ h29 h, he]
  · rw [if_neg (by omega)]
    obtain hk | hk : sym - 257 = 29 ∨ sym - 257 = 30 := by omega
    all_goals
      rw [hk] at h
      simp only [lengthFixRows, List.getElem?_cons_succ, List.getElem?_cons_zero, Option.some.injEq] at h
      subst h
      exact ⟨_, .badLength, rfl⟩

theorem orRaise_orReject {why : Reject} {o : Option Instr} {r : Except ErrCode Instr}
    (h : orRaise (orReject why o) = r) : (∃ i, o = some i ∧ r = .ok i) ∨ r = .error (rejectError why) := by
  cases o <;> subst h <;> simp [orRaise, orReject]

/-- What the header at the cursor is (43 R201). -/
theorem fetchHeader_cases (s : State) :
    (s.bitpos + 3 ≤ 8 * s.inSize ∧
      ∃ i, fetchHeader s = .ok i ∧
        (i = .hdrStored (sbit s s.bitpos) ∨ i = .hdrFixed (sbit s s.bitpos) ∨ i = .hdrDynamic (sbit s s.bitpos) ∨
          i = .hdrReserved (sbit s s.bitpos))) ∨
      (8 * s.inSize < s.bitpos + 3 ∧ fetchHeader s = .error .truncatedStream) := by
  unfold fetchHeader
  by_cases h1 : s.bitpos + 1 ≤ 8 * s.inSize
  · rw [readBits_eq h1, ok_bind]
    by_cases h3 : s.bitpos + 3 ≤ 8 * s.inSize
    · refine .inl ⟨h3, ?_⟩
      have h2 : (setBitpos (s.bitpos + 1) s).bitpos + 2 ≤ 8 * (setBitpos (s.bitpos + 1) s).inSize := by
        rw [setBitpos_bitpos, setBitpos_inSize]; omega
      simp only
      rw [readBits_eq h2, ok_bind]
      simp only [setBitpos_bitpos, sbit_setBitpos]
      have e1 := bitsVal_one (sbit s) s.bitpos
      have e2 : bitsVal (sbit s) (s.bitpos + 1) 2 < 4 := bitsVal_lt _ _ 2
      rw [e1]
      generalize bitsVal (sbit s) (s.bitpos + 1) 2 = t at e2
      cases sbit s s.bitpos <;> interval_cases t <;>
        simp [decode, headerInstr, orReject, orRaise]
    · have h2 : readBits 2 (setBitpos (s.bitpos + 1) s) = .error .truncatedStream :=
        readBits_error.2 ⟨by rw [setBitpos_bitpos, setBitpos_inSize]; omega, rfl⟩
      simp only
      rw [h2]
      exact .inr ⟨by omega, rfl⟩
  · rw [readBits_error.2 ⟨by omega, rfl⟩]
    exact .inr ⟨by omega, rfl⟩

/-- What the symbol of a fixed-Huffman block is (43 R204). -/
theorem fetchFixed_cases (s : State) :
    (∃ e, fetchFixed s = .error e ∧
        (e = .truncatedStream ∨ e = .invalidLengthCode ∨
          (e = .corruptHuffmanCode ∧ ∃ w, w < 2 ^ 16 ∧ decodeWindow s.tblFixll w = .error e))) ∨
      ∃ i len r, fetchFixed s = .ok i ∧ s.bitpos + 16 ≤ 8 * s.inSize ∧ 1 ≤ len ∧ len ≤ 15 ∧
        (s.tblFixll = fixedTable → 7 ≤ len ∧ len ≤ 9) ∧ SymbolMeaning s len r ∧ exec i s = finish s r := by
  unfold fetchFixed
  cases hd : decodeSym s.tblFixll s with
  | error e =>
    rcases decodeSym_error hd with ⟨-, rfl⟩ | ⟨hb, rfl⟩
    · exact .inl ⟨_, rfl, .inl rfl⟩
    · rw [decodeSym_eq, if_pos hb] at hd
      exact .inl ⟨_, rfl, .inr (.inr ⟨rfl, _, rev_lt 16 _, hd⟩)⟩
  | ok p =>
    obtain ⟨sym, len⟩ := p
    obtain ⟨hb, hw⟩ := decodeSym_ok.1 hd
    have hl := decodeWindow_len hw
    rw [ok_bind]
    rcases orRaise_orReject (why := .noSuchSymbol) (o := fixedBlockInstr sym len) rfl with ⟨i, hi, h⟩ | h
    · refine .inr ⟨i, len, ?_⟩
      have hm : ∃ r, SymbolMeaning s len r ∧ exec i s = finish s r := by
        unfold fixedBlockInstr at hi
        split at hi
        · rename_i hlen
          rw [hlen]
          exact fixllInstr_meaning s hi
        · rename_i hlen
          exact llsymInstr_meaning s (fun _ ht => absurd (decodeWindow_fixedTable_len (ht ▸ hw)).1 hlen) hi
      obtain ⟨r, hm, he⟩ := hm
      exact ⟨r, h, hb, hl.1, hl.2, fun ht => (decodeWindow_fixedTable_len (ht ▸ hw)).2, hm, he⟩
    · exact .inl ⟨_, h, .inr (.inl rfl)⟩

/-- What the symbol of a dynamic-Huffman block is (45 R265). -/
theorem fetchDynamic_cases (s : State) (hm : s.mode = .dynamicHuffman) :
    (∃ e, fetchDynamic s = .error e ∧ (e = .truncatedStream ∨ e = .corruptHuffmanCode ∨ e = .invalidLengthCode)) ∨
      ∃ i len r, fetchDynamic s = .ok i ∧ s.bitpos + 16 ≤ 8 * s.inSize ∧ 1 ≤ len ∧ len ≤ 15 ∧ SymbolMeaning s len r ∧
        exec i s = finish s r := by
  unfold fetchDynamic
  cases hd : decodeSym s.tblLl s with
  | error e =>
    rcases decodeSym_error hd with ⟨-, rfl⟩ | ⟨-, rfl⟩
    · exact .inl ⟨_, rfl, .inl rfl⟩
    · exact .inl ⟨_, rfl, .inr (.inl rfl)⟩
  | ok p =>
    obtain ⟨sym, len⟩ := p
    obtain ⟨hb, hw⟩ := decodeSym_ok.1 hd
    have hl := decodeWindow_len hw
    rw [ok_bind]
    rcases orRaise_orReject (why := .noSuchSymbol) (o := llsymInstr sym len) rfl with ⟨i, hi, h⟩ | h
    · obtain ⟨r, hm, he⟩ := llsymInstr_meaning s (fun hf => by simp [hm] at hf) hi
      exact .inr ⟨i, len, r, h, hb, hl.1, hl.2, hm, he⟩
    · exact .inl ⟨_, h, .inr (.inr rfl)⟩

theorem header_does {s t : State} (hm : s.mode = .readBlockHeader) (h : step s = .next t) : StepDoes s t := by
  have hrun : s.mode.running = true := by simp [hm, Mode.running]
  have hstep : step s = match fetchHeader s with
      | .ok i => exec i s
      | .error e => .next (raise s e) := by
    unfold step fetch
    simp only [hm]
    cases fetchHeader s <;> rfl
  rw [hstep] at h
  rcases fetchHeader_cases s with ⟨hb, i, hf, hi⟩ | ⟨-, hf⟩
  · rw [hf] at h
    rcases hi with rfl | rfl | rfl | rfl
    · simp only [exec, execHdrStored, headerRead_eq hb, ok_bind, pure_ok, finish, Host.Outcome.next.injEq] at h
      exact h ▸ .headerStored hm hb
    · simp only [exec, execHdrFixed, headerRead_eq hb, ok_bind, enterFixed_eq, finish, Host.Outcome.next.injEq] at h
      exact h ▸ .headerFixed hm hb
    · simp only [exec, execHdrDynamic, headerRead_eq hb, ok_bind] at h
      rcases finish_cases h with h | ⟨e, he, rfl⟩
      · obtain ⟨hd, rfl⟩ := enterDynamic_ok.1 h
        exact .headerDynamic hm hb hd
      · unfold enterDynamic at he
        split at he
        · cases he
        · rename_i hd
          cases he
          exact .raised _ hrun (by simp only [MayRaise]; simpa using ⟨hm, by simpa using hd⟩)
    · simp only [exec, execHdrReserved, headerRead_eq hb, ok_bind, finish, Host.Outcome.next.injEq] at h
      exact h ▸ .raised _ hrun (mayRaise_of_other (.inr (.inl rfl)))
  · rw [hf] at h
    simp only [Host.Outcome.next.injEq] at h
    exact h ▸ .raised _ hrun (mayRaise_of_other (.inl rfl))

theorem stored_does {s t : State} (hm : s.mode = .stored) (h : step s = .next t) : StepDoes s t := by
  have hrun : s.mode.running = true := by simp [hm, Mode.running]
  have hstep : step s = exec .storedBody s := by
    unfold step fetch
    simp only [hm]
  rw [hstep] at h
  simp only [exec, execStoredBody] at h
  rcases finish_cases h with h | ⟨e, he, rfl⟩
  · simp only [bind_ok, pure_ok, Except.ok.injEq] at h
    obtain ⟨u, hu, rfl⟩ := h
    obtain ⟨v, a, n, h1, h2, h3, h4, h5, h6, h7, rfl⟩ := storedBody_ok hu
    exact .storedBody v a n hm h1 h2 h3 h4 h5 h6 h7
  · refine .raised e hrun ?_
    rcases bind_error.1 he with he | ⟨u, -, he⟩
    · rcases bind_error.1 he with he | ⟨⟨x, s1⟩, h1, he⟩
      · exact mayRaise_of_other (.inl (readBits_error.1 he).2)
      rcases bind_error.1 he with he | ⟨⟨y, s2⟩, h2, he⟩
      · exact mayRaise_of_other (.inl (readBits_error.1 he).2)
      obtain ⟨-, -, e1⟩ := readBits_ok.1 h1
      obtain ⟨-, -, e2⟩ := readBits_ok.1 h2
      simp only at he
      split at he
      · cases he; exact mayRaise_of_other (.inl rfl)
      · split at he
        · rename_i hx
          cases he
          have hc := exceedsCap_some hx
          have : s2.cfg = s.cfg := by
            rw [e2, e1]; simp only [setBitpos_cfg, alignToByte_cfg]
          rw [this] at hc
          simp [MayRaise, hc]
        · cases he
    · cases he

theorem symbols_do {s t : State} {i : Instr} {len : Nat} {r : Except ErrCode State} (hs : InSymbols s)
    (hl : SymbolLen s len) (hm : SymbolMeaning s len r) (he : exec i s = finish s r) (h : exec i s = .next t) :
    StepDoes s t :=
  symbol_does hs hl hm (he ▸ h)

theorem fixed_does {s t : State} (hm : s.mode = .fixedHuffman) (h : step s = .next t) : StepDoes s t := by
  have hrun : s.mode.running = true := by simp [hm, Mode.running]
  have hstep : step s = match fetchFixed s with
      | .ok i => exec i s
      | .error e => .next (raise s e) := by
    unfold step fetch
    simp only [hm]
    cases fetchFixed s <;> rfl
  rw [hstep] at h
  rcases fetchFixed_cases s with ⟨e, hf, he⟩ | ⟨i, len, r, hf, -, h1, h2, h3, h4, h5⟩
  · rw [hf] at h
    simp only [Host.Outcome.next.injEq] at h
    refine h ▸ .raised _ hrun ?_
    rcases he with rfl | rfl | ⟨rfl, hw⟩
    · exact mayRaise_of_other (.inl rfl)
    · exact mayRaise_of_other (.inr (.inr (.inl rfl)))
    · exact ⟨by simp, by simp, by simp, fun _ => .inr ⟨hm, hw⟩, by simp, by simp⟩
  · rw [hf] at h
    exact symbols_do (.inl hm) ⟨h1, h2, fun _ => h3⟩ h4 h5 h

theorem dynamic_does {s t : State} (hm : s.mode = .dynamicHuffman) (h : step s = .next t) : StepDoes s t := by
  have hrun : s.mode.running = true := by simp [hm, Mode.running]
  cases hv : s.dynValid with
  | true =>
    have hstep : step s = match fetchDynamic s with
        | .ok i => exec i s
        | .error e => .next (raise s e) := by
      unfold step fetch
      simp only [hm, hv, if_true]
      cases fetchDynamic s <;> rfl
    rw [hstep] at h
    rcases fetchDynamic_cases s hm with ⟨e, hf, he⟩ | ⟨i, len, r, hf, -, h1, h2, h4, h5⟩
    · rw [hf] at h
      simp only [Host.Outcome.next.injEq] at h
      refine h ▸ .raised _ hrun ?_
      rcases he with rfl | rfl | rfl
      · exact mayRaise_of_other (.inl rfl)
      · simp [MayRaise, hm]
      · exact mayRaise_of_other (.inr (.inr (.inl rfl)))
    · rw [hf] at h
      exact symbols_do (.inr ⟨hm, hv⟩) ⟨h1, h2, fun hf => by simp [hm] at hf⟩ h4 h5 h
  | false =>
    have hstep : step s = exec .dynhdr s := by
      unfold step fetch
      simp only [hm, hv, Bool.false_eq_true, if_false]
    rw [hstep] at h
    simp only [exec, execDynhdr] at h
    rcases finish_cases h with h | ⟨e, he, rfl⟩
    · simp only [dynHeader, bind_ok, Prod.exists, build_ok] at h
      obtain ⟨nl, nd, cl, s1, h1, T, ⟨-, -, hT⟩, h2⟩ := h
      obtain ⟨a1, p1, b1, b2, b3, b4, -, -⟩ := readDynFields_ok h1
      obtain ⟨u, L, D, a2, l1, l2, m1, m2, rfl⟩ := finishLengths_ok (by simp) h2
      subst hT
      obtain ⟨hu, hle, hin⟩ := a2
      have e1 := a1.1
      have hu' : u = setClt (tableOf cl) (setBitpos u.bitpos s) := by
        rw [hu, e1]; rfl
      rw [setClt_bitpos] at hle
      rw [setClt_bitpos, setClt_inSize] at hin
      have hsz : s1.inSize = s.inSize := by rw [e1]; simp only [setBitpos_inSize]
      have p2 := a1.2.2
      have hadv : Advanced s (setBitpos u.bitpos s) := advanced_setBitpos (by omega) (by omega)
      rw [hu']
      exact .dynHeader (setBitpos u.bitpos s) cl L D hm hv hadv (by rw [setBitpos_bitpos]; omega) (by omega) (by omega)
        (by omega) (by omega) m1 m2
    · refine .raised e hrun ?_
      rcases dynHeader_raises he with rfl | rfl | rfl <;> simp [MayRaise, hm]

/-- What a step can do. -/
theorem step_does {s t : State} (h : step s = .next t) : StepDoes s t := by
  cases hm : s.mode with
  | readBlockHeader => exact header_does hm h
  | stored => exact stored_does hm h
  | fixedHuffman => exact fixed_does hm h
  | dynamicHuffman => exact dynamic_does hm h
  | idle | done | error =>
    have : t = s := by simpa [step, fetch, hm] using h.symm
    rw [this]
    exact .halted (by rw [hm]; rfl)

end Sys2Proof.Machine
end

