-- ==== Sys2Proof/Tests/Slice0.lean ====
section
/-! SUPPORT. The model's own tests. Expected values are those of spec/95_test_vectors.md (the vector is named with each test) or
words written out from the encodings of spec/30_encoding.md; none comes from the model. A `witness_X` shows states and operands
that meet the hypotheses of the statement `Obligations.X`, clause by clause. -/

namespace Sys2Proof.Tests

open Sys2Proof.Machine

/-- A machine in mode `m` at bit `p` of the stream `bytes`, with output `out`, the fixed table built, `DYN_SUPPORT = 1`. -/
def machine (m : Mode) (p : Nat) (bytes out : List Byte) : State :=
  { State.reset with
    mode := m, bitpos := p, inSize := bytes.length, inMem := memWriteList [] 0 bytes, outLen := out.length
    outMem := memWriteList [] 0 out, fixedValid := true, tblFixll := fixedTable, cfg := ⟨64, 2 ^ 60, none, true⟩ }

/-- The same with `OUT_CAP = n`. -/
def withCap (n : Nat) (s : State) : State := { s with cfg := ⟨64, 2 ^ 60, some n, true⟩ }

/-- The same with `DYN_SUPPORT = 0`. -/
def noDyn (s : State) : State := { s with cfg := ⟨64, 2 ^ 60, none, false⟩ }

/-- The same inside a dynamic block with the tables `L` and `D`. -/
def withTables (L D : DecodeTable) (s : State) : State := { s with tblLl := L, tblDt := D, dynValid := true }

/-- An outcome is a next state that satisfies a test. -/
def answers (o : Host.Outcome State Fault Refusal) (P : State → Bool) : Bool :=
  match o with
  | .next t => P t
  | .fault _ => false
  | .refused _ => false

/-- The state of a next outcome. -/
def nextOf (o : Host.Outcome State Fault Refusal) : State :=
  match o with
  | .next t => t
  | .fault _ => State.reset
  | .refused _ => State.reset

/-- A next outcome is the next outcome of its state. -/
theorem eq_nextOf {o : Host.Outcome State Fault Refusal} {P : State → Bool} (h : answers o P = true) : o = .next (nextOf o) := by
  cases o <;> simp_all [answers, nextOf]

/-- An end state in the form of the vectors: `(STATE, ERR, BITPOS, OUT_LEN, BFINAL)`. -/
def ends (m : Mode) (e : Option ErrCode) (p n : Nat) (f : Bool) (t : State) : Bool :=
  t.mode == m && t.err == e && t.bitpos == p && t.outLen == n && t.bfinal == f

/-- The valid bytes of `OUT`. -/
def output (t : State) : List Byte := memReadList t.outMem 0 t.outLen

/-- What a decoder's answer is, as an option. -/
def accepted {ε α : Type} : Except ε α → Option α
  | .ok a => some a
  | .error _ => none

/-- Why a decoder refused. -/
def rejected {ε α : Type} : Except ε α → Option ε
  | .ok _ => none
  | .error e => some e

/-- A meaning that is refused raises. -/
theorem raises_of {s : State} {r : Except ErrCode State} {e : ErrCode} (h : rejected r = some e) :
    finish s r = .next (raise s e) := by
  cases r with
  | ok t => cases h
  | error e' => cases h; rfl

/-- The latches of the decode tests. -/
def latches : Latches := ⟨9, 77, ⟨[4], 257, 1⟩⟩

/-! ### Well-formedness: one ill-formed term for each check -/

theorem test_wf_codeLength :
    (Instr.lit 7 0).wf = false ∧ (Instr.lit 7 1).wf = true ∧ (Instr.lit 7 15).wf = true ∧ (Instr.lit 7 16).wf = false := by decide

theorem test_wf_matchLength :
    (Instr.dist0Fix 2).wf = false ∧ (Instr.dist0Fix 3).wf = true ∧ (Instr.dist0Fix 258).wf = true ∧
      (Instr.dist0Fix 259).wf = false ∧ (Instr.dist0Sym 2 1).wf = false ∧ (Instr.dist0Sym 3 16).wf = false := by decide

theorem test_wf_sequence :
    (Instr.clRep 1 ⟨[], 256, 1⟩).wf = false ∧ (Instr.clRep 1 ⟨[], 289, 1⟩).wf = false ∧ (Instr.clRep 1 ⟨[], 257, 0⟩).wf = false ∧
      (Instr.clRep 1 ⟨[], 257, 33⟩).wf = false ∧ (Instr.clRep 1 ⟨List.replicate 258 0, 257, 1⟩).wf = false ∧
      (Instr.clRep 1 ⟨[16], 257, 1⟩).wf = false ∧ (Instr.clRep 0 ⟨[15], 257, 1⟩).wf = false ∧
      (Instr.clRep 1 ⟨[15], 257, 1⟩).wf = true := by decide +kernel

/-! ### Decoding: every row's value, written out from its encoding -/

/-- BLKHDR (30 R101, R126): bit 0 is BFINAL, bits 2..1 are BTYPE. -/
theorem test_decode_headers :
    [0b000, 0b001, 0b010, 0b011, 0b100, 0b101, 0b110, 0b111].map (fun v => accepted (decode .blkhdr latches v)) =
      [some (.hdrStored false), some (.hdrStored true), some (.hdrFixed false), some (.hdrFixed true),
       some (.hdrDynamic false), some (.hdrDynamic true), some (.hdrReserved false), some (.hdrReserved true)] ∧
    rejected (decode .blkhdr latches 0b1000) = some .headerWiderThanThreeBits := by decide

/-- BODY (30 R126): selected by `STATE` alone. -/
theorem test_decode_bodies :
    accepted (decode .storedBody latches 0) = some .storedBody ∧ accepted (decode .dynhdrBody latches 0) =
      some .dynhdr := by decide

/-- FIXLL literals and end of block (30 R104, 95 V30): the first and the last code of each range. -/
theorem test_decode_fixed_literals :
    [0b0011000000000000, 0b0011111111111111, 0b0100000000000000, 0b0111111111111111, 0b1000000000000000, 0b1011111111111111,
     0b1100100000000000, 0b1100111111111111, 0b1101000000000000, 0b1101111111111111, 0b1110000000000000, 0b1111111111111111,
     0b0000000111111111].map (fun v => accepted (decode .fixll latches v)) =
      [some (.lit0to15 0), some (.lit0to15 15), some (.lit16to79 0), some (.lit16to79 63), some (.lit80to143 0),
       some (.lit80to143 63), some (.lit144to159 0), some (.lit144to159 15), some (.lit160to191 0), some (.lit160to191 31),
       some (.lit192to255 0), some (.lit192to255 63), some .eobFix] := by decide +kernel

/-- FIXLL length symbols 257..287 (30 R104, 95 V30): codes 0000001 to 0010111, then 11000000 to 11000111. -/
theorem test_decode_fixed_lengths :
    [0b0000001111111111, 0b0000010111111111, 0b0000011111111111, 0b0000100111111111, 0b0000101111111111, 0b0000110111111111,
    0b0000111111111111, 0b0001000111111111, 0b0001001111111111, 0b0001010111111111, 0b0001011111111111, 0b0001100111111111,
    0b0001101111111111, 0b0001110111111111, 0b0001111111111111, 0b0010000111111111, 0b0010001111111111, 0b0010010111111111,
    0b0010011111111111, 0b0010100111111111, 0b0010101111111111, 0b0010110111111111, 0b0010111111111111, 0b1100000000000000,
    0b1100000100000000, 0b1100001000000000, 0b1100001100000000, 0b1100010000000000, 0b1100010100000000, 0b1100011000000000,
    0b1100011100000000].map (fun v => accepted (decode .fixll latches v)) = lengthFixRows.map some := by decide +kernel

/-- The rows of `lengthFixRows` and `lengthSymRows` are in symbol order. -/
theorem test_length_rows :
    (lengthFixRows.take 3, lengthFixRows[28]?, lengthFixRows[29]?, lengthFixRows[30]?) =
      ([.len257Fix, .len258Fix, .len259Fix], some .len285Fix, some .ll286Fix, some .ll287Fix) ∧
    lengthSymRows.map (fun mk => mk 9) =
      [.len257Sym 9, .len258Sym 9, .len259Sym 9, .len260Sym 9, .len261Sym 9, .len262Sym 9, .len263Sym 9, .len264Sym 9,
       .len265Sym 9, .len266Sym 9, .len267Sym 9, .len268Sym 9, .len269Sym 9, .len270Sym 9, .len271Sym 9, .len272Sym 9,
       .len273Sym 9, .len274Sym 9, .len275Sym 9, .len276Sym 9, .len277Sym 9, .len278Sym 9, .len279Sym 9, .len280Sym 9,
       .len281Sym 9, .len282Sym 9, .len283Sym 9, .len284Sym 9, .len285Sym 9, .ll286Sym 9, .ll287Sym 9] := by decide

/-- FIXDIST (30 R108): the top five bits of the window; a wider value is refused. -/
theorem test_decode_fixed_distances :
    [0b0000010101010101, 0b0000110101010101, 0b0001010101010101, 0b0001110101010101, 0b0010010101010101, 0b0010110101010101,
    0b0011010101010101, 0b0011110101010101, 0b0100010101010101, 0b0100110101010101, 0b0101010101010101, 0b0101110101010101,
    0b0110010101010101, 0b0110110101010101, 0b0111010101010101, 0b0111110101010101, 0b1000010101010101, 0b1000110101010101,
    0b1001010101010101, 0b1001110101010101, 0b1010010101010101, 0b1010110101010101, 0b1011010101010101, 0b1011110101010101,
    0b1100010101010101, 0b1100110101010101, 0b1101010101010101, 0b1101110101010101, 0b1110010101010101, 0b1110110101010101,
    0b1111010101010101, 0b1111110101010101].map (fun v => accepted (decode .fixdist latches v)) =
      distFixRows.map (fun mk => some (mk 77)) ∧
      rejected (decode .fixdist latches 0x10000) = some .windowWiderThanSixteenBits ∧
      rejected (decode .fixll latches 0x10000) = some .windowWiderThanSixteenBits := by decide +kernel

/-- LLSYM (30 R112, R126). -/
theorem test_decode_symbols :
    [0b100000001, 0b100000010, 0b100000011, 0b100000100, 0b100000101, 0b100000110, 0b100000111, 0b100001000, 0b100001001, 0b100001010,
    0b100001011, 0b100001100, 0b100001101, 0b100001110, 0b100001111, 0b100010000, 0b100010001, 0b100010010, 0b100010011, 0b100010100,
    0b100010101, 0b100010110, 0b100010111, 0b100011000, 0b100011001, 0b100011010, 0b100011011, 0b100011100, 0b100011101, 0b100011110,
    0b100011111].map (fun v => accepted (decode .llsym latches v)) = lengthSymRows.map (fun mk => some (mk 9)) ∧
      accepted (decode .llsym latches 0b000000000) = some (.lit 0 9) ∧
      accepted (decode .llsym latches 0b011111111) = some (.lit 255 9) ∧
      accepted (decode .llsym latches 0b100000000) = some (.eobSym 9) ∧
      rejected (decode .llsym latches 0b100100000) = some .noSuchSymbol := by decide +kernel

/-- DSYM (30 R126). -/
theorem test_decode_distance_symbols :
    [0b00000, 0b00001, 0b00010, 0b00011, 0b00100, 0b00101, 0b00110, 0b00111, 0b01000, 0b01001, 0b01010, 0b01011,
    0b01100, 0b01101, 0b01110, 0b01111, 0b10000, 0b10001, 0b10010, 0b10011, 0b10100, 0b10101, 0b10110, 0b10111,
    0b11000, 0b11001, 0b11010, 0b11011, 0b11100, 0b11101, 0b11110, 0b11111].map (fun v => accepted (decode .dsym latches v)) =
      distSymRows.map (fun mk => some (mk 77 9)) ∧
      rejected (decode .dsym latches 0b100000) = some .noSuchDistance := by decide +kernel

/-- CLSYM (30 R113). -/
theorem test_decode_code_lengths :
    [0b00000, 0b01111, 0b10000, 0b10001, 0b10010].map (fun v => accepted (decode .clsym latches v)) =
      [some (.clLen 0 9 ⟨[4], 257, 1⟩), some (.clLen 15 9 ⟨[4], 257, 1⟩), some (.clRep 9 ⟨[4], 257, 1⟩),
       some (.clZero3 9 ⟨[4], 257, 1⟩), some (.clZero11 9 ⟨[4], 257, 1⟩)] ∧
      rejected (decode .clsym latches 0b10011) = some .noSuchCodeLengthSymbol := by decide

/-- The word decoder (log entry 12): a header, a literal window, a distance window, a symbol. -/
theorem test_decode_table_words :
    [decodeTableWord 8 0b011, decodeTableWord 16 0x9100, decodeTableWord 16 0b100000000, decodeTableWord 8 0b11101] =
      [some (.hdrFixed true), some (.lit80to143 17), some (.eobSym 1), some (.dist29Sym 3 1)] := by decide +kernel

/-- The word placed after reset is the element the next step runs (95 V10, V15). -/
theorem test_fetch_word :
    answers (step (State.reset.withFetchWord 8 0b111)) (ends .error (some .invalidBlockType) 0 0 false) = true ∧
      answers (step (State.reset.withFetchWord 16 0xc600)) (ends .error (some .invalidLengthCode) 0 0 false) = true := by
  decide +kernel

/-! ### The units, against the vectors -/

/-- V34: the stream `a5 c3 f0`. -/
theorem test_cursor_reads :
    let s := machine .stored 0 [0xa5, 0xc3, 0xf0] []
    let at_ := fun p => setBitpos p s
    [accepted (peekBits 3 s), accepted (peekBits 5 (at_ 3)), accepted (peekBits 16 (at_ 8)), accepted (peekBits 0 (at_ 24)),
     accepted (peekBits 1 (at_ 24)), accepted (peekBits 16 (at_ 4)), accepted (peekBits 5 (at_ 4)),
     accepted (peekBits 16 (at_ 9)), accepted (peekBits 15 (at_ 9))] =
      [some 5, some 20, some 0xf0c3, some 0, none, some 0x0c3a, some 0x1a, none, some 0x7861] ∧
    [3, 8, 9, 24].map (fun p => (alignToByte (at_ p)).bitpos) = [8, 8, 16, 24] := by decide

/-- V34: bit reversal. -/
theorem test_reversal : [rev 8 0x89, rev 16 0x0089, rev 5 1, rev 5 15, rev 5 30] = [0x91, 0x9100, 16, 30, 15] := by decide

/-- V20, V28: the start codes padded, and the symbols. -/
theorem test_build :
    (List.range' 1 15).map (tableOf [3, 3, 3, 3, 3, 2, 4, 4]).padded = [0, 0, 0x4000, 0xe000] ++ List.replicate 11 0 ∧
      (tableOf [3, 3, 3, 3, 3, 2, 4, 4]).symbols 3 = [0, 1, 2, 3, 4] ∧ (tableOf [3, 3, 3, 3, 3, 2, 4, 4]).last = 4 ∧
      (List.range' 1 15).map (tableOf [2, 0, 4, 4, 4, 4, 2, 2, 0, 3, 3]).padded =
        [0, 0, 0xc000, 0] ++ List.replicate 11 0x4000 := by decide +kernel

/-- V29, V23: what is rejected, and the empty array. -/
theorem test_build_errors :
    rejected (build [1, 16]) = some .invalidCodeLengthTable ∧ rejected (build [15, 15]) = none ∧ build [] = .ok emptyTable := by
  decide +kernel

/-- 42 R181 on the tables of V20, V26, V28 and V30. -/
theorem test_decode_windows :
    [accepted (decodeWindow (tableOf [3, 3, 3, 3, 3, 2, 4, 4]) 0x5fff),
     accepted (decodeWindow (tableOf [3, 3, 3, 3, 3, 2, 4, 4]) 0xefff),
     accepted (decodeWindow (tableOf [1, 2, 3, 4, 5, 6, 7, 8, 9, 10, 11, 12, 13, 14, 15, 15]) 0xfffd),
     accepted (decodeWindow (tableOf [1, 2, 3, 4, 5, 6, 7, 8, 9, 10, 11, 12, 13, 14, 15, 15]) 0xfffe),
     accepted (decodeWindow (tableOf [2, 0, 4, 4, 4, 4, 2, 2, 0, 3, 3]) 0xd000),
     accepted (decodeWindow (tableOf [2, 0, 4, 4, 4, 4, 2, 2, 0, 3, 3]) 0xbfff),
     accepted (decodeWindow fixedTable 0x9100), accepted (decodeWindow fixedTable 0xc880)] =
      [some (0, 3), some (6, 4), some (14, 15), some (15, 15), none, some (7, 2), some (97, 8), some (145, 9)] := by decide +kernel

/-- V36: the overlapping copy, and the two errors in their order. -/
theorem test_copy :
    (accepted (copy 10 3 (machine .stored 0 [] [97, 98, 99]))).map output =
        some [97, 98, 99, 97, 98, 99, 97, 98, 99, 97, 98, 99, 97] ∧
      rejected (copy 3 4 (machine .stored 0 [] [97, 98, 99])) = some .distanceBeyondOutput ∧
      (accepted (copy 4 2 (withCap 6 (machine .stored 0 [] [97, 98])))).map output = some [97, 98, 97, 98, 97, 98] ∧
      rejected (copy 5 2 (withCap 6 (machine .stored 0 [] [97, 98]))) = some .outputCapacityExceeded ∧
      rejected (copy 5 3 (withCap 6 (machine .stored 0 [] [97, 98]))) = some .distanceBeyondOutput := by decide +kernel

/-! ### Single steps, against the vectors -/

/-- V1: header and stored body. -/
theorem test_step_stored :
    answers (step (machine .readBlockHeader 0 [1, 5, 0, 0xfa, 0xff, 0x48] [])) (ends .stored none 3 0 true) = true ∧
      answers (step { machine .stored 3 [1, 5, 0, 0xfa, 0xff, 0x48, 0x65, 0x6c, 0x6c, 0x6f] [] with bfinal := true })
        (fun t => ends .done none 80 5 true t && output t == [0x48, 0x65, 0x6c, 0x6c, 0x6f]) = true := by decide +kernel

/-- V9, V3: an aligned cursor does not move; `LEN = 0`, and the block after it. -/
theorem test_step_stored_aligned :
    answers (step { machine .stored 8 [0x20, 1, 0, 0xfe, 0xff, 0x5a] [] with bfinal := true })
        (fun t => ends .done none 48 1 true t && output t == [0x5a]) = true ∧
      answers (step (machine .stored 3 [0, 0, 0, 0xff, 0xff, 3, 0, 0, 0] [])) (ends .readBlockHeader none 40 0 false) = true := by
  decide +kernel

/-- V31, V33: the stored body's errors. -/
theorem test_step_stored_errors :
    [[1], [1, 5], [1, 5, 0, 0xfa], [1, 5, 0, 0xfa, 0xff, 0x48, 0x65]].map (fun b =>
        answers (step (machine .stored 3 b [])) (ends .error (some .truncatedStream) 3 0 false)) = [true, true, true, true] ∧
      answers (step (withCap 4 (machine .stored 3 [1, 5, 0, 0xfa, 0xff, 0x48, 0x65, 0x6c, 0x6c, 0x6f] [])))
        (ends .error (some .outputCapacityExceeded) 3 0 false) = true := by decide +kernel

/-- V10, V11, V13: the header's errors; `BFINAL` and `BITPOS` keep the values before the step. -/
theorem test_step_header_errors :
    answers (step (machine .readBlockHeader 0 [7] [])) (ends .error (some .invalidBlockType) 0 0 false) = true ∧
      answers (step (noDyn (machine .readBlockHeader 0 [5, 0, 0] []))) (ends .error (some .unsupportedDynamicHuffman) 0 0 false) =
        true ∧
      answers (step (machine .readBlockHeader 6 [0xff] [])) (ends .error (some .truncatedStream) 6 0 false) = true ∧
      answers (step (machine .readBlockHeader 9 [0xff] [])) (ends .error (some .truncatedStream) 9 0 false) = true := by
  decide +kernel

/-- V4, V5: a literal, the strict peek, the end of block. -/
theorem test_step_fixed_symbols :
    answers (step (machine .fixedHuffman 3 [0x4b, 4, 0] [])) (fun t => ends .fixedHuffman none 11 1 false t && output t == [97]) =
        true ∧
      answers (step (machine .fixedHuffman 11 [0x4b, 4, 0] [97])) (ends .error (some .truncatedStream) 11 0 false) = true ∧
      answers (step { machine .fixedHuffman 11 [0x4b, 4, 0, 0, 0] [97] with bfinal := true }) (ends .done none 18 1 true) =
        true := by
  decide +kernel

/-- V6: a match longer than its distance. -/
theorem test_step_match_overlaps :
    answers (step (machine .fixedHuffman 27 [0x4b, 0x4c, 0x4a, 0x46, 0x20, 0, 0, 0] [97, 98, 99]))
      (fun t => ends .fixedHuffman none 39 13 false t &&
        output t == [97, 98, 99, 97, 98, 99, 97, 98, 99, 97, 98, 99, 97]) = true := by decide +kernel

/-- V14: extra bits are least significant bit first, of the length and of the distance. -/
theorem test_step_extra_bits :
    answers (step (machine .fixedHuffman 99
        [0x4b, 0x4c, 0x4a, 0x4e, 0x49, 0x4d, 0x4b, 0xcf, 0xc8, 0xcc, 0xca, 0xce, 0xc1, 0xca, 4, 0, 0, 0]
        [97, 98, 99, 100, 101, 102, 103, 104, 105, 106, 107, 108]))
      (fun t => ends .fixedHuffman none 115 33 false t &&
        memReadList t.outMem 12 12 == [98, 99, 100, 101, 102, 103, 104, 105, 106, 107, 108, 98]) = true := by decide +kernel

/-- V8: both encodings of length 258. -/
theorem test_step_longest_match :
    answers (step (machine .fixedHuffman 11 [0x4b, 0x1c, 5, 0, 0, 0] [97])) (ends .fixedHuffman none 24 259 false) = true ∧
      answers (step (machine .fixedHuffman 11 [0x4b, 0x1c, 0xf9, 0, 0, 0, 0] [97])) (ends .fixedHuffman none 29 259 false) =
        true := by
  decide +kernel

/-- V15 to V19: the invalid symbols, and a distance beyond the output. -/
theorem test_step_match_errors :
    answers (step (machine .fixedHuffman 3 [0x1b, 3, 0, 0, 0] [])) (ends .error (some .invalidLengthCode) 3 0 false) = true ∧
      answers (step (machine .fixedHuffman 3 [0x1b, 7, 0, 0, 0] [])) (ends .error (some .invalidLengthCode) 3 0 false) = true ∧
      answers (step (machine .fixedHuffman 11 [0x4b, 4, 0x3e, 0, 0, 0] [97])) (ends .error (some .invalidDistanceCode) 11 0 false) =
        true ∧
      answers (step (machine .fixedHuffman 11 [0x4b, 4, 0x7e, 0, 0, 0] [97])) (ends .error (some .invalidDistanceCode) 11 0 false) =
        true ∧
      answers (step (machine .fixedHuffman 11 [0x4b, 4, 0x42, 0, 0, 0] [97])) (ends .error (some .distanceBeyondOutput) 11 0 false) =
        true := by decide +kernel

/-- V37: the order of a match's errors. -/
theorem test_step_match_error_order :
    answers (step (machine .fixedHuffman 11 [0x4b, 4, 0x3e] [97])) (ends .error (some .truncatedStream) 11 0 false) = true ∧
      answers (step (machine .fixedHuffman 11 [0x4b, 4, 0x3e, 0] [97])) (ends .error (some .invalidDistanceCode) 11 0 false) =
        true ∧
      answers (step (machine .fixedHuffman 11 [0x4b, 4, 0x5e, 0] [97])) (ends .error (some .truncatedStream) 11 0 false) = true ∧
      answers (step (machine .fixedHuffman 11 [0x4b, 4, 0x5e, 0, 0] [97])) (ends .error (some .distanceBeyondOutput) 11 0 false) =
        true := by decide +kernel

/-- V33: the capacity of a match, at the bound. -/
theorem test_step_match_capacity :
    answers (step (withCap 9 (machine .fixedHuffman 11 [0x4b, 0x84, 3, 0, 0, 0] [97])))
        (ends .error (some .outputCapacityExceeded) 11 0 false) = true ∧
      answers (step (withCap 10 (machine .fixedHuffman 11 [0x4b, 0x84, 3, 0, 0, 0] [97]))) (ends .fixedHuffman none 23 10 false) =
        true := by decide +kernel

/-- The bytes of P4. -/
def p4 : List Byte := [0x0d, 0xc0, 0x81, 0, 0, 0, 0, 0x80, 0x20, 0xd6, 0xfd, 0x25, 0xae, 0x18, 0, 0]

/-- The literal/length and distance tables of P4: symbol 257 has code 0, 97 code 10, 256 code 11; distance symbol 0 has code 0. -/
def p4Tables (s : State) : State :=
  withTables (tableOf (List.replicate 97 0 ++ [2] ++ List.replicate 158 0 ++ [2, 1])) (tableOf [1]) s

/-- P4, step 2: the dynamic header. -/
theorem test_step_dynamic_header :
    answers (step (machine .dynamicHuffman 3 p4 []))
      (fun t => ends .dynamicHuffman none 103 0 false t && t.dynValid && t.tblLl.symbols 1 == [257] &&
        t.tblLl.symbols 2 == [97, 256] && t.tblLl.padded 2 == 0x8000 && t.tblDt.symbols 1 == [0] &&
        t.tblClt.symbols 1 == [18] && t.tblClt.symbols 2 == [1, 2]) = true := by decide +kernel

/-- P4, steps 3 to 5: literal, match, end of block. -/
theorem test_step_dynamic_symbols :
    answers (step (p4Tables (machine .dynamicHuffman 103 p4 [])))
        (fun t => ends .dynamicHuffman none 105 1 false t && output t == [97]) = true ∧
      answers (step (p4Tables (machine .dynamicHuffman 105 p4 [97])))
        (fun t => ends .dynamicHuffman none 107 4 false t && output t == [97, 97, 97, 97]) = true ∧
      answers (step (p4Tables { machine .dynamicHuffman 107 p4 [97] with bfinal := true })) (ends .done none 109 1 true) =
        true := by
  decide +kernel

/-- V35 (a), (b), (c): the dynamic header's errors. -/
theorem test_step_dynamic_errors :
    answers (step (machine .dynamicHuffman 3 [5, 0, 2, 0x24, 0, 0] [])) (ends .error (some .invalidCodeLengthTable) 3 0 false) =
        true ∧
      answers (step (machine .dynamicHuffman 3 [5, 0, 0x80, 0xe4, 0xff, 0x1f, 0, 0] []))
        (ends .error (some .invalidCodeLengthTable) 3 0 false) = true ∧
      answers (step (machine .dynamicHuffman 3 (p4.take 14) [])) (ends .error (some .truncatedStream) 3 0 false) = true ∧
      answers (step (p4Tables (machine .dynamicHuffman 105 (p4.take 15) [97]))) (ends .error (some .truncatedStream) 105 0 false) =
        true := by decide +kernel

/-- Single elements the streams above do not reach: the rows of code-length symbols, of distance symbols and of an invalid symbol,
on a stream of zeros and by their rules (45 R263, 43 R209 to R211). -/
theorem test_exec_rows :
    answers (exec (.clRep 1 ⟨[3], 3, 1⟩) (machine .dynamicHuffman 0 [0, 0, 0] []))
        (fun t => ends .dynamicHuffman none 3 0 false t && t.tblLl == tableOf [3, 3, 3] && t.tblDt == tableOf [3]) = true ∧
      answers (exec (.clZero3 1 ⟨[], 2, 1⟩) (machine .dynamicHuffman 0 [0, 0, 0] [])) (ends .dynamicHuffman none 4 0 false) =
        true ∧
      answers (exec (.dist1Sym 3 4) (machine .dynamicHuffman 0 [0, 0, 0] [7, 8]))
        (fun t => ends .dynamicHuffman none 4 5 false t && output t == [7, 8, 7, 8, 7]) = true ∧
      answers (exec (.dist31Fix 3) (machine .fixedHuffman 0 [0, 0, 0] [7])) (ends .error (some .invalidDistanceCode) 0 0 false) = true ∧
      answers (exec (.ll286Sym 3) (machine .dynamicHuffman 0 [0] [7])) (ends .error (some .invalidLengthCode) 0 0 false) =
        true := by
  decide +kernel

/-! ### The host's side -/

/-- 10 R52: `STATUS` of a machine in `Error` with code 8 and `BFINAL = 1`. -/
theorem test_status : status { machine .error 0 [] [] with err := some .truncatedStream, bfinal := true } = 0x8e := by decide

/-- 70 R353: the launch of V1. -/
theorem test_launch :
    answers (hostLaunch [1, 5, 0] 2 State.reset)
      (fun t => ends .readBlockHeader none 2 0 false t && t.inSize == 3 && t.inMem == [(0, 1), (1, 5)]) =
        true := by decide +kernel

/-- 10 R41, 70 R360: a byte of the output of a run that is `Done`, and an address `OUT` does not have. -/
theorem test_host_reads_out :
    (match hostReadOut 1 (machine .done 0 [] [97, 98]) with | .next b => b == 98 | _ => false) = true ∧
      (match hostReadOut 2 (withCap 2 (machine .done 0 [] [97, 98])) with | .fault r => r == .outAddressOutOfRange | _ => false) =
        true := by decide +kernel

/-- V39: the container. -/
theorem test_gzip :
    rejected (gzipParse [0x1f, 0x8b]) = some .invalidMagic ∧
      rejected (gzipParse [0x1f, 0x8b, 8, 0, 0, 0, 0, 0, 0, 0xff]) = some .trailerMissing ∧
      rejected (gzipParse [0x1f, 0x8b, 8, 8, 0, 0, 0, 0, 0, 0xff, 0x74, 0x65, 0x73, 0x74, 1, 1, 1, 1, 1, 1, 1, 1]) =
        some .truncatedStream ∧
      accepted (gzipParse ([0x1f, 0x8b, 8, 8, 0, 0, 0, 0, 0, 0xff] ++ [0x74, 0x65, 0x73, 0x74, 0x2e, 0x74, 0x78, 0x74, 0] ++
          [0, 0] ++ [0x3e, 9, 0xaf, 0xb2, 0x17, 0, 0, 0])) =
        some ⟨some [0x74, 0x65, 0x73, 0x74, 0x2e, 0x74, 0x78, 0x74], none, 19, 0xb2af093e, 23⟩ := by decide +kernel

/-- V6, P2: the notation and its bytes. -/
theorem test_assembler :
    streamBytes [.hdr 1 1, .lit 97, .lit 98, .lit 99, .copy 10 3, .eob] = [0x4b, 0x4c, 0x4a, 0x46, 0x20, 0] ∧
      streamBytes [.hdr 0 0, .stored 2 none [97, 98], .hdr 1 1, .lit 99, .sym 257, .dcode 30] =
        [0, 2, 0, 0xfd, 0xff, 0x61, 0x62, 0x4b, 6, 0x3e] := by decide +kernel

/-- 30 R125: a stored body with its own `nn` (V2), and `DCODE` as the raw five bits whatever the distance table is. -/
theorem test_assembler_raw :
    streamBytes [.hdr 1 0, .stored 5 (some 0) [0x48, 0x65, 0x6c, 0x6c, 0x6f]] =
        [1, 5, 0, 0, 0, 0x48, 0x65, 0x6c, 0x6c, 0x6f] ∧
      elementBits fixedTable (some (tableOf [1, 1])) 0 (.dcode 1) = [false, false, false, false, true] := by decide +kernel

/-- P4: a dynamic block in the notation. -/
theorem test_assembler_dynamic :
    streamBytes [.hdr 1 2,
        .dynhdr 1 0 14 [0, 0, 1, 0, 0, 0, 0, 0, 0, 0, 0, 0, 0, 0, 0, 2, 0, 2]
          [(18, 86), (2, 0), (18, 127), (18, 9), (2, 0), (1, 0), (1, 0)],
        .lit 97, .copy 3 1, .eob] = p4.take 14 := by decide +kernel

/-! ### Witnesses: the hypotheses of each statement, met -/

/-- A running machine on a stream of zero bytes. -/
def zeros (m : Mode) (p n : Nat) (out : List Byte) : State := machine m p (List.replicate n 0) out

/-- The invariant outside a dynamic block, by its decidable parts. -/
theorem inv_of_parts {s : State} (h : MemoryInv s ∧ CapacityInv s ∧ ErrorInv s ∧ CursorInv s) (hf : s.tblFixll = fixedTable)
    (hv : s.fixedValid = true) (hd : s.mode ≠ .dynamicHuffman) : Inv s :=
  ⟨h.1, h.2.1, h.2.2.1, h.2.2.2, ⟨fun _ => hf, fun _ => hv⟩, fun h => absurd h hd⟩

theorem witness_ResetHasInvariant :
    let s := withCap 6 State.reset
    Memory.wf [(0, 1), (2 ^ 60 - 1, 255)] = true ∧ memBelow s.cfg.inMax [(0, 1), (2 ^ 60 - 1, 255)] = true ∧
      Memory.wf [(5, 7)] = true ∧ outWithin s.cfg [(5, 7)] = true := by decide +kernel

theorem witness_HostWritesKeepInvariant :
    Inv State.reset ∧ hostWriteReg .ctrl 1 State.reset = .next (start State.reset) ∧
      (∃ t, hostWriteReg .inSize (2 ^ 60) State.reset = .next t) ∧ (∃ t, hostWriteReg .startBitpos (2 ^ 64 - 1) State.reset =
        .next t) ∧
      ∃ t, hostWriteIn (2 ^ 60 - 1) 0xff State.reset = .next t :=
  ⟨⟨by decide, by decide, by decide, by decide, ⟨by decide, by decide⟩, fun h => nomatch h⟩, rfl,
    ⟨_, eq_nextOf (P := fun _ => true) (by decide +kernel)⟩, ⟨_, eq_nextOf (P := fun _ => true) (by decide +kernel)⟩,
    ⟨_, eq_nextOf (P := fun _ => true) (by decide +kernel)⟩⟩

theorem witness_StartBeginsRun :
    (State.reset.mode.running = false ∧ 1 % 2 = 1) ∧ (machine .done 0 [] []).mode.running = false ∧
      (machine .stored 0 [] []).mode.running = true ∧ 2 % 2 = 0 ∧
      8 * { machine .done 0 [0] [] with startBitpos := 6 }.inSize < { machine .done 0 [0] [] with startBitpos := 6 }.startBitpos + 3 := by
  decide

theorem witness_HostPortMap :
    (State.reset.mode.running = false ∧ 2 ^ 60 ≤ State.reset.cfg.inMax ∧ 8 * 2 ^ 60 < 2 ^ State.reset.cfg.counterWidth) ∧
      2 ^ 64 - 1 < 2 ^ State.reset.cfg.counterWidth ∧ 2 ^ 60 - 1 < State.reset.cfg.inMax ∧ Memory.wf State.reset.inMem = true ∧
      (machine .stored 0 [] []).mode.running = true := by decide +kernel

/-- The last byte below `OUT_LEN`, the one at it, the last below `OUT_CAP` and the one at it; a core in `Error` is halted. -/
theorem witness_HostPortMap_reads :
    let s := withCap 3 (machine .done 0 [] [97, 98])
    (s.mode.running = false ∧ s.mode = .done ∧ outHas s.cfg 1 = true ∧ 1 < s.outLen) ∧ s.outLen ≤ 2 ∧ outHas s.cfg 2 = true ∧
      outHas s.cfg 3 = false ∧ (raise s .truncatedStream).mode.running = false ∧ (zeros .stored 0 1 []).mode.running = true :=
  ⟨⟨rfl, rfl, rfl, by decide⟩, by decide, rfl, rfl, rfl, rfl⟩

theorem witness_GzipHeaderChecks :
    [0x1f, 0x8b].length < 3 ∧ ([0x1f, 0x8b, 7] : List Byte).take 3 ≠ [0x1f, 0x8b, 0x08] ∧
      (([0x1f, 0x8b, 8] ++ List.replicate 14 0 : List Byte).take 3 = [0x1f, 0x8b, 0x08] ∧
        ([0x1f, 0x8b, 8] ++ List.replicate 14 0 : List Byte).length < 18) ∧
      ([0x1f, 0x8b, 8, 0xe1] ++ List.replicate 14 0 : List Byte).take 3 = [0x1f, 0x8b, 0x08] ∧
      18 ≤ ([0x1f, 0x8b, 8, 0xe1] ++ List.replicate 14 0 : List Byte).length ∧
      (([0x1f, 0x8b, 8, 0xe1] ++ List.replicate 14 0 : List Byte).getD 3 0) &&& 0x1e = 0 := by decide

theorem witness_StepRunsDecoded :
    (HasBits (machine .readBlockHeader 5 [0xe0] []) 3 ∧
      decode .blkhdr latches (field (machine .readBlockHeader 5 [0xe0] []) 5 3) = .ok (.hdrReserved true)) ∧
    (HasBits (zeros .fixedHuffman 0 2 []) 16 ∧ decode .fixll latches (windowAt (zeros .fixedHuffman 0 2 []) 0) = .ok .eobFix) ∧
    (zeros .dynamicHuffman 0 0 []).dynValid = false ∧ (p4Tables (machine .dynamicHuffman 103 p4 [])).dynValid = true ∧
    HasBits (p4Tables (machine .dynamicHuffman 103 p4 [])) 16 ∧
    decodeWindow (p4Tables (machine .dynamicHuffman 103 p4 [])).tblLl
      (windowAt (p4Tables (machine .dynamicHuffman 103 p4 [])) 103) = .ok (97, 2) ∧
    decode .llsym ⟨2, 0, ⟨[], 0, 0⟩⟩ 97 = .ok (.lit 97 2) ∧ Mode.running .done = false := by
  refine ⟨⟨by decide, rfl⟩, ⟨by decide, ?_⟩, rfl, rfl, by decide, ?_, rfl, rfl⟩ <;> decide +kernel

/-- The clauses of an undecodable symbol: a peek one bit short, and tables without a code. -/
theorem witness_StepRunsDecoded_undecodable :
    (¬ HasBits (zeros .fixedHuffman 1 2 []) 16 ∧ ¬ HasBits (zeros .dynamicHuffman 1 2 []) 16) ∧
    HasBits (zeros .fixedHuffman 0 2 []) 16 ∧
    rejected (decodeWindow { zeros .fixedHuffman 0 2 [] with tblFixll := emptyTable }.tblFixll 0) = some .corruptHuffmanCode ∧
    rejected (decodeWindow (withTables (tableOf [0, 1]) emptyTable (zeros .dynamicHuffman 0 2 [])).tblLl 0xffff) =
      some .corruptHuffmanCode := by decide +kernel

/-- V17: the raising half of the statement, where the distance row raises. -/
theorem witness_MatchRunsDistanceRow_raises :
    let s := machine .fixedHuffman 11 [0x4b, 4, 0x3e, 0, 0, 0] [97]
    let s2 := setBitpos 18 (setBitpos 18 s)
    consume 7 s = .ok (setBitpos 18 s) ∧ readLength (257 + 0) (setBitpos 18 s) = .ok (3, s2) ∧
      GoesOnAs s (exec (.dist30Fix 3) s2) s2 (raise s .invalidDistanceCode) ∧
      decode .fixdist (matchLatches 3 0) (pad (rev 5 (field s2 s2.bitpos 5)) 5) = .ok (.dist30Fix 3) := by
  intro s s2
  have h : exec (.dist30Fix 3) s2 = .next (raise s2 .invalidDistanceCode) := by
    change finish s2 (distPart 30 5 3 s2) = _
    exact raises_of (by decide +kernel)
  exact ⟨by decide +kernel, by decide +kernel, .inr ⟨.invalidDistanceCode, h, rfl⟩, by decide +kernel⟩

/-- V35 (a): the raising half, where the first code-length symbol repeats nothing. -/
theorem witness_HeaderRunsCodeLengthRows_raises :
    let s := machine .dynamicHuffman 3 [5, 0, 2, 0x24, 0, 0] []
    let cl := [1] ++ List.replicate 15 0 ++ [1, 0, 0]
    let s1 := setClt (tableOf cl) (setBitpos 29 s)
    accepted (readDynFields s) = some (257, 1, cl, setBitpos 29 s) ∧ accepted (decodeSym s1.tblClt s1) = some (16, 1) ∧
      GoesOnAs s (exec (.clRep 1 ⟨[], 257, 1⟩) s1) s1 (raise s .invalidCodeLengthTable) := by
  intro s cl s1
  have h : exec (.clRep 1 ⟨[], 257, 1⟩) s1 = .next (raise s1 .invalidCodeLengthTable) := by
    change finish s1 (consume 1 s1 >>= fun a => clRepeat (257 + 1) [] a >>= fun p => finishLengths 257 1 p.1 p.2) = _
    exact raises_of (by decide +kernel)
  exact ⟨by decide +kernel, by decide +kernel, .inr ⟨.invalidCodeLengthTable, h, rfl⟩⟩

/-- V35 (a), (b), and a header without any code: the loop's error and the first symbol's. -/
theorem witness_DynHeaderErrors :
    let s := machine .dynamicHuffman 3 [5, 0, 0x80, 0xe4, 0xff, 0x1f, 0, 0] []
    let cl := [1] ++ List.replicate 17 0 ++ [1]
    let u := machine .dynamicHuffman 3 (List.replicate 6 0) []
    (accepted (readDynFields s) = some (257, 1, cl, setBitpos 29 s) ∧
      rejected (clLoop 258 258 [] (setClt (tableOf cl) (setBitpos 29 s))) = some .invalidCodeLengthTable) ∧
    (accepted (readDynFields u) = some (257, 1, List.replicate 19 0, setBitpos 29 u) ∧
      rejected (decodeSym (tableOf (List.replicate 19 0)) (setBitpos 29 u)) = some .corruptHuffmanCode) ∧
    s.dynValid = false := by decide +kernel

/-- Length symbol 285 of V8 (a) at bit 11; and, in a dynamic block, length symbol 257 of P4 at bit 105. -/
theorem witness_MatchRunsDistanceRow :
    let s := machine .fixedHuffman 11 [0x4b, 0x1c, 5, 0, 0, 0] [97]
    let s1 := setBitpos 19 s
    let s2 := setBitpos 19 s1
    let u := p4Tables (machine .dynamicHuffman 105 p4 [97])
    let u1 := setBitpos 106 u
    let u2 := setBitpos 106 u1
    (consume 8 s = .ok s1 ∧ readLength (257 + 28) s1 = .ok (258, s2) ∧
      exec (.dist0Fix 258) s2 = .next (nextOf (exec (.dist0Fix 258) s2)) ∧ (nextOf (exec (.dist0Fix 258) s2)).mode ≠ .error ∧
      lengthFixRows[28]? = some .len285Fix ∧ (lengthSymRows[28]?).isSome = true ∧
      decode .fixdist (matchLatches 258 0) (pad (rev 5 (field s2 s2.bitpos 5)) 5) = .ok (.dist0Fix 258)) ∧
    (consume 1 u = .ok u1 ∧ readLength (257 + 0) u1 = .ok (3, u2) ∧
      exec (.dist0Sym 3 1) u2 = .next (nextOf (exec (.dist0Sym 3 1) u2)) ∧ (nextOf (exec (.dist0Sym 3 1) u2)).mode ≠ .error ∧
      (lengthSymRows[0]?).isSome = true ∧ u.mode ≠ .fixedHuffman ∧ decodeSym u2.tblDt u2 = .ok (0, 1) ∧
      decode .dsym (matchLatches 3 1) 0 = .ok (.dist0Sym 3 1)) := by
  intro s s1 s2 u u1 u2
  refine ⟨⟨by decide +kernel, by decide +kernel, eq_nextOf (P := fun _ => true) (by decide +kernel), by decide +kernel, rfl, rfl,
    by decide +kernel⟩, by decide +kernel, by decide +kernel, eq_nextOf (P := fun _ => true) (by decide +kernel),
    by decide +kernel, rfl, by decide +kernel, by decide +kernel, rfl⟩

/-- The code-length code in which symbol 0 alone has a code, on a stream of zeros: every symbol is completed by one more length. -/
theorem witness_HeaderRunsCodeLengthRows :
    let s := setClt (tableOf [1]) (zeros .dynamicHuffman 0 4 [])
    let j := fun lens nl => Instr.clLen 0 1 ⟨lens, nl, 1⟩
    let good := fun lens nl p => answers (exec (j lens nl) (setBitpos p s)) (fun t => t.mode == .dynamicHuffman) &&
      (accepted (decodeSym s.tblClt (setBitpos p s)) == some (0, 1)) && decide (lens.length < nl + 1)
    decode .clsym ⟨1, 0, ⟨[7], 1, 1⟩⟩ 0 = .ok (j [7] 1) ∧
    good [0] 1 1 = true ∧
    (good [7, 7, 7, 7] 4 3 = true ∧
      clRepeat 5 [7] (setBitpos 1 s) = .ok ([7, 7, 7, 7], setBitpos 3 (setBitpos 1 s))) ∧
    (good [0, 0, 0] 3 4 = true ∧ clZeros 3 3 4 [] (setBitpos 1 s) = .ok ([0, 0, 0], setBitpos 4 (setBitpos 1 s))) ∧
    good (List.replicate 11 0) 11 8 = true ∧
      clZeros 11 7 12 [] (setBitpos 1 s) = .ok (List.replicate 11 0, setBitpos 8 (setBitpos 1 s)) := by decide +kernel

/-- The dynamic header of P4 goes on with the row CL_ZERO11. -/
theorem witness_HeaderRunsCodeLengthRows_dynhdr :
    let s := machine .dynamicHuffman 3 p4 []
    let cl := [0, 2, 2] ++ List.replicate 15 0 ++ [1]
    let s1 := setClt (tableOf cl) (setBitpos 71 s)
    accepted (readDynFields s) = some (258, 1, cl, setBitpos 71 s) ∧ accepted (decodeSym s1.tblClt s1) = some (18, 1) ∧
      accepted (decode .clsym ⟨1, 0, ⟨[], 258, 1⟩⟩ 18) = some (.clZero11 1 ⟨[], 258, 1⟩) ∧
      answers (exec (.clZero11 1 ⟨[], 258, 1⟩) s1) (fun t => t.mode == .dynamicHuffman) = true := by decide +kernel

theorem witness_DecodeEncodeAgree :
    (Instr.clLen 15 15 ⟨List.replicate 319 15, 288, 32⟩).wf = true ∧ (Instr.lit192to255 63).wf = true ∧
      (Instr.dist29Sym 258 15).wf = true ∧ (Instr.hdrReserved true).wf = true ∧ (Instr.dist31Fix 3).wf = true ∧
      (Instr.lit 255 1).wf = true ∧ Instr.storedBody.wf = true := by decide +kernel

theorem witness_DecodeMatchesTable :
    accepted (decode .fixll latches 0xffff) = some (.lit192to255 63) ∧ accepted (decode .llsym latches 287) = some (.ll287Sym 9) ∧
      accepted (decode .blkhdr latches 7) = some (.hdrReserved true) := by decide +kernel

theorem witness_RowsDisjoint :
    (Instr.lit144to159 0).format = (Instr.lit144to159 15).format ∧ 0xcfff &&& (Instr.lit144to159 0).row.1 =
      (Instr.lit144to159 0).row.2 ∧
      0xcfff &&& (Instr.lit144to159 15).row.1 = (Instr.lit144to159 15).row.2 := by decide

theorem witness_PeekAndReadBits :
    16 ≤ 16 ∧    HasBits (machine .stored 8 [0xa5, 0xc3, 0xf0] []) 16 ∧ ¬ HasBits (machine .stored 9 [0xa5, 0xc3, 0xf0] []) 16 ∧
      HasBits (machine .stored 24 [0xa5, 0xc3, 0xf0] []) 0 := by decide

theorem witness_ReversalPaddingWindow : (15 < 16 ∧ 0 < 16) ∧ (1 ≤ 1 ∧ 1 ≤ 15 ∧ 1 < 2 ^ 1) ∧ 1 ≤ 15 ∧ 15 ≤ 15 ∧
  32767 < 2 ^ 15 := by decide

theorem witness_AlignToByte :
    (machine .stored 8 [0xa5] []).bitpos % 8 = 0 ∧
      (machine .stored 8 [0xa5] []).bitpos ≤ 8 * (machine .stored 8 [0xa5] []).inSize := by
  decide

theorem witness_BuildRejects :
    (∃ l, l ∈ [1, 16] ∧ 16 ≤ l) ∧ romFixedLengths.length ≤ 288 ∧ ∀ l, l ∈ [15, 0, 15] → l < 16 := by decide +kernel

theorem witness_BuildBuckets : romFixedLengths.length ≤ maxSym ∧ 1 ≤ 1 ∧ 15 ≤ 15 := by decide +kernel

theorem witness_RomTables : 28 < 29 ∧ 29 < 30 ∧ 26 < 27 ∧ 28 < 29 ∧ 287 < 288 := by decide

theorem witness_FixedTableContents : 15 < 16 ∧ 15 ≠ 7 ∧ 15 ≠ 8 ∧ 15 ≠ 9 := by decide

theorem witness_FixedCodeDecodes :
    0x2fff < 0x3000 ∧ 0xbfff < 0xC000 ∧ 0xc7ff < 0xC800 ∧ 0xffff < 2 ^ 16 ∧
      [0x2fff, 0xbfff, 0xc7ff, 0xffff].map (fun w => accepted (decodeWindow fixedTable w)) =
        [some (279, 7), some (143, 8), some (287, 8), some (255, 9)] := by decide +kernel

theorem witness_BuildStartCodes :
    (1 ≤ 15 ∧ 15 ≤ 15) ∧ startCode [3, 3, 3, 3, 3, 2, 4, 4] 4 = 14 ∧ (tableOf [3, 3, 3, 3, 3, 2, 4, 4]).padded 4 = 0xe000 := by
  decide +kernel

theorem witness_MixedWidthReads :
    let s := machine .stored 0 [0xa5, 0xc3, 0xf0] []
    readBits (3 + 5) s = .ok (0xa5, setBitpos 8 s) ∧ readBits 3 s = .ok (5, setBitpos 3 s) ∧
      readBits 5 (setBitpos 3 s) = .ok (20, setBitpos 8 s) := by decide +kernel

theorem witness_LastPopulated :
    (tableOf [15]).last = 15 ∧ (tableOf [14]).last < 15 ∧ (tableOf []).last = 0 := by decide +kernel

theorem witness_DecodeStaysInTable :
    ¬ HasBits (machine .fixedHuffman 9 [0xa5, 0xc3, 0xf0] []) 16 ∧ HasBits (machine .fixedHuffman 8 [0xa5, 0xc3, 0xf0] []) 16 ∧
      emptyTable.last = 0 := by decide +kernel

/-- The complete code of V20; and the window `ffff` in the incomplete code of V22, which no code begins. -/
theorem witness_CanonicalCodeDecodes :
    (kraft [3, 3, 3, 3, 3, 2, 4, 4] = 2 ^ 15 ∧ unpad 0xefff 4 = startCode [3, 3, 3, 3, 3, 2, 4, 4] 4 + 0 ∧
      0 < [3, 3, 3, 3, 3, 2, 4, 4].count 4) ∧
    kraft [0, 1] ≤ 2 ^ 15 ∧ (∀ l, l ∈ [0, 1] → l < 16) ∧
    ∀ len idx, 1 ≤ len → len ≤ 15 → idx < [0, 1].count len → unpad 0xffff len ≠ startCode [0, 1] len + idx := by
  refine ⟨by decide, by decide, by decide, fun len idx h1 h2 h3 => ?_⟩
  have h : ∀ n < 16, 1 ≤ n → ∀ i < [0, 1].count n, unpad 0xffff n ≠ startCode [0, 1] n + i := by decide
  exact h len (by omega) h1 idx h3

theorem witness_CopyResult :
    (machine .stored 0 [] [97]).outLen < 2 ∧
      (2 ≤ (withCap 6 (machine .stored 0 [] [97, 98])).outLen ∧ exceedsCap (withCap 6 (machine .stored 0 [] [97, 98])) 5 = true) ∧
      MemoryInv (withCap 6 (machine .stored 0 [] [97, 98])) ∧ HasRoom (withCap 6 (machine .stored 0 [] [97, 98])) 4 := by decide

theorem witness_HeaderRows :
    HasBits (machine .readBlockHeader 5 [0xff] []) 3 ∧ ¬ HasBits (machine .readBlockHeader 6 [0xff] []) 3 ∧
      (machine .readBlockHeader 5 [0xff] []).cfg.dynSupport = true ∧
        (noDyn (machine .readBlockHeader 5 [0xff] [])).cfg.dynSupport = false := by
  decide

/-- V1 with `OUT_CAP = 5`, one byte short, and with `OUT_CAP = 4`: the bounds are met exactly. -/
theorem witness_StoredBodyStep :
    let s := withCap 5 (machine .stored 3 [1, 5, 0, 0xfa, 0xff, 0x48, 0x65, 0x6c, 0x6c, 0x6f] [])
    let short := machine .stored 3 [1, 5, 0, 0xfa, 0xff, 0x48, 0x65, 0x6c, 0x6c] []
    (MemoryInv s ∧ (s.bitpos + 7) / 8 + 4 + field s (8 * ((s.bitpos + 7) / 8)) 16 = s.inSize ∧ HasRoom s 5) ∧
      short.inSize < (short.bitpos + 7) / 8 + 4 + field short (8 * ((short.bitpos + 7) / 8)) 16 ∧
      exceedsCap (withCap 4 s) 5 = true := by decide +kernel

/-- V1 and V2: streams that differ in NLEN alone. -/
theorem witness_StoredBodyIgnores :
    let s := machine .stored 3 [1, 5, 0, 0xfa, 0xff, 0x48, 0x65, 0x6c, 0x6c, 0x6f] []
    let m := memWriteList [] 0 [1, 5, 0, 0, 0, 0x48, 0x65, 0x6c, 0x6c, 0x6f]
    (∀ x, x = 1 ∨ x = 1 + 1 ∨ (1 + 4 ≤ x ∧ x < 1 + 4 + 5) → memRead m x = inRead s x) ∧ m ≠ s.inMem ∧
      answers (exec .storedBody s) (fun t => t.mode == .readBlockHeader) = true := by
  refine ⟨fun x hx => ?_, by decide, by decide +kernel⟩
  have h : ∀ n < 10, n = 1 ∨ n = 1 + 1 ∨ (1 + 4 ≤ n ∧ n < 1 + 4 + 5) →
      memRead (memWriteList [] 0 [1, 5, 0, 0, 0, 0x48, 0x65, 0x6c, 0x6c, 0x6f]) n =
        inRead (machine .stored 3 [1, 5, 0, 0xfa, 0xff, 0x48, 0x65, 0x6c, 0x6c, 0x6f] []) n := by decide
  exact h x (by omega) hx

theorem witness_LiteralRows :
    MemoryInv (withCap 2 (zeros .fixedHuffman 7 2 [97])) ∧ HasRoom (withCap 2 (zeros .fixedHuffman 7 2 [97])) 1 ∧
      HasBits (withCap 2 (zeros .fixedHuffman 8 2 [97])) 8 ∧ HasBits (withCap 2 (zeros .fixedHuffman 7 2 [97])) 9 := by decide

theorem witness_LiteralErrors :
    exceedsCap (withCap 1 (zeros .fixedHuffman 7 2 [97])) 1 = true ∧ HasBits (withCap 1 (zeros .fixedHuffman 7 2 [97])) 9 ∧
      ¬ HasBits (withCap 1 (zeros .fixedHuffman 8 2 [97])) 9 ∧ HasBits (zeros .fixedHuffman 8 2 []) 8 ∧
      ¬ HasBits (zeros .fixedHuffman 9 2 []) 8 := by decide

theorem witness_EndOfBlockRows :
    HasBits (zeros .fixedHuffman 9 2 []) 7 ∧ HasBits (zeros .dynamicHuffman 1 2 []) 15 := by decide

/-- The last clause: a table whose only code is symbol 287, and one whose only code is symbol 400, which no `BUILD` makes. -/
theorem witness_InvalidLengthSymbols :
    HasBits (zeros .fixedHuffman 8 2 []) 8 ∧
      (let s := withTables (loneTable 287) (tableOf [1]) (zeros .dynamicHuffman 0 2 [])
       HasBits s 16 ∧ s.dynValid = true ∧ decodeWindow s.tblLl (windowAt s s.bitpos) = .ok (287, 1)) ∧
      decodeWindow (loneTable 400) 0 = .ok (400, 1) := by
  refine ⟨by decide, ⟨by decide, rfl, ?_⟩, ?_⟩ <;> decide +kernel

/-- V8 (a), symbol 285; and symbol 257 with distance code 0 at the very end of the input and of `OUT`. -/
theorem witness_MatchFixedCode :
    let s := machine .fixedHuffman 11 [0x4b, 0x1c, 5, 0, 0, 0] [97]
    let u := withCap 4 (machine .fixedHuffman 4 [0, 4] [97])
    (lengthFixRows[28]? = some .len285Fix ∧ MemoryInv s ∧ rev 5 (field s (11 + 8 + lenExtraBits 285) 5) = 0 ∧
      11 + 8 + lenExtraBits 285 + 5 + distExtraBits 0 ≤ 8 * s.inSize ∧ distanceAt s 0 24 ≤ s.outLen ∧
      HasRoom s (lengthAt s 285 19)) ∧
    lengthFixRows[0]? = some .len257Fix ∧ MemoryInv u ∧ rev 5 (field u (4 + 7 + lenExtraBits 257) 5) = 0 ∧
      4 + 7 + lenExtraBits 257 + 5 + distExtraBits 0 = 8 * u.inSize ∧ distanceAt u 0 16 ≤ u.outLen ∧
        HasRoom u (lengthAt u 257 11) := by
  decide +kernel

/-- P4's match, and the same row with the raw distance code of a fixed-Huffman block. -/
theorem witness_MatchDecodedSymbol :
    let s := zeros .fixedHuffman 0 1 [97]
    let u := p4Tables (machine .dynamicHuffman 105 p4 [97])
    ((lengthSymRows[0]?).isSome = true ∧ MemoryInv s ∧ HasRoom s (lengthAt s 257 3) ∧
      rev 5 (field s (0 + 3 + lenExtraBits 257) 5) = 0 ∧
      0 + 3 + lenExtraBits 257 + 5 + distExtraBits 0 = 8 * s.inSize ∧ distanceAt s 0 8 ≤ s.outLen) ∧
    MemoryInv u ∧ HasRoom u (lengthAt u 257 106) ∧ u.mode ≠ .fixedHuffman ∧ 106 + lenExtraBits 257 + 16 ≤ 8 * u.inSize ∧
      decodeWindow u.tblDt (windowAt u 106) = .ok (0, 1) ∧ 106 + 1 + distExtraBits 0 ≤ 8 * u.inSize ∧
        distanceAt u 0 107 ≤ u.outLen := by
  intro s u
  refine ⟨by decide +kernel, by decide +kernel, by decide +kernel, by decide, by decide +kernel, ?_, by decide +kernel, by decide +kernel⟩
  decide +kernel

/-- The branches of the fixed code's chain, in order: one bit short, code 30, code 29 without its extra bits, a distance of 24577,
and a capacity. -/
theorem witness_MatchErrorOrder :
    let s := fun bytes => machine .fixedHuffman 11 bytes [97]
    8 * (s [0x4b, 4]).inSize < 11 + 7 + 0 + 5 ∧
    rev 5 (field (s [0x4b, 4, 0x3e]) 18 5) = 30 ∧ 18 + 5 ≤ 8 * (s [0x4b, 4, 0x3e]).inSize ∧
    (rev 5 (field (s [0x4b, 4, 0x5e, 0]) 18 5) = 29 ∧ 8 * (s [0x4b, 4, 0x5e, 0]).inSize < 23 + distExtraBits 29) ∧
    (23 + distExtraBits 29 ≤ 8 * (s [0x4b, 4, 0x5e, 0, 0]).inSize ∧
      (s [0x4b, 4, 0x5e, 0, 0]).outLen < distanceAt (s [0x4b, 4, 0x5e, 0, 0]) 29 23) ∧
    distanceAt (s [0x4b, 4, 0]) 0 23 = 1 ∧ exceedsCap (withCap 3 (s [0x4b, 4, 0])) (lengthAt (s [0x4b, 4, 0]) 257 18) = true := by
  decide +kernel

/-- The branches of a dynamic block's chain: a short peek, no code (the window begins with 1), distance symbols 30, 29 and 0. -/
theorem witness_MatchErrorOrder_dynamic :
    let s := fun d n out => withTables (tableOf [1]) (loneTable d) (zeros .dynamicHuffman 0 n out)
    8 * (s 0 2 []).inSize < 0 + 1 + 0 + 16 ∧
    rejected (decodeWindow (loneTable 0) 0xffff) = some .corruptHuffmanCode ∧
    accepted (decodeWindow (loneTable 30) (windowAt (s 30 3 []) 1)) = some (30, 1) ∧
    accepted (decodeWindow (loneTable 29) (windowAt (s 29 3 []) 3)) = some (29, 1) ∧
      8 * (s 29 2 []).inSize < 3 + 1 + distExtraBits 29 ∧
    (s 0 3 []).outLen < distanceAt (s 0 3 []) 0 2 ∧ exceedsCap (withCap 3 (s 0 3 [7])) (lengthAt (s 0 3 [7]) 257 1) = true ∧
    (s 0 3 []).mode ≠ .fixedHuffman := by decide +kernel

theorem witness_DistanceRows :
    let s := withCap 4 (zeros .fixedHuffman 3 1 [97])
    MemoryInv s ∧ HasRoom s 3 ∧ (distFixRows[0]?).isSome = true ∧ HasBits s (5 + distExtraBits 0) ∧
      distanceAt s 0 (3 + 5) ≤ s.outLen ∧
      (distFixRows[29]?).isSome = true ∧ (distSymRows[29]?).isSome = true ∧
        HasBits (zeros .dynamicHuffman 0 2 []) (3 + distExtraBits 29) ∧
      distanceAt { zeros .dynamicHuffman 0 2 [] with outLen := 24577 } 29 3 = 24577 := by decide +kernel

theorem witness_InvalidDistanceCodes :
    HasBits (zeros .fixedHuffman 3 1 []) 5 ∧ HasBits (zeros .dynamicHuffman 1 2 []) 15 := by decide

theorem witness_DynHeaderFields :
    HasBits (machine .dynamicHuffman 3 p4 []) (14 + 3 * (field (machine .dynamicHuffman 3 p4 []) 13 4 + 4)) ∧
      HasBits (zeros .dynamicHuffman 6 4 []) (14 + 3 * (field (zeros .dynamicHuffman 6 4 []) 16 4 + 4)) ∧
      ¬ HasBits (zeros .dynamicHuffman 7 4 []) (14 + 3 * (field (zeros .dynamicHuffman 7 4 []) 17 4 + 4)) := by decide +kernel

/-- P4's header: 259 lengths, the cursor at bit 103. -/
theorem witness_DynHeaderBuildsTables :
    let s := machine .dynamicHuffman 3 p4 []
    let cl := [0, 2, 2] ++ List.replicate 15 0 ++ [1]
    accepted (readDynFields s) = some (258, 1, cl, setBitpos 71 s) ∧
      accepted (clLoop 259 259 [] (setClt (tableOf cl) (setBitpos 71 s))) =
        some (List.replicate 97 0 ++ [2] ++ List.replicate 158 0 ++ [2, 1, 1], setBitpos 103 (setClt (tableOf cl) (setBitpos 71 s))) := by
  decide +kernel

theorem witness_CodeLengthRowsComplete :
    let s := zeros .dynamicHuffman 7 2 []
    (∀ l, l ∈ [15] → l < 16) ∧ 11 ≤ 288 ∧ 1 ≤ 288 ∧ HasBits s 9 ∧ [15].length + 1 = 1 + 1 ∧
      ([15].getLast? = some 15 ∧ HasBits s (7 + 2) ∧ [15].length + (3 + field s (7 + 7) 2) = 3 + 1) ∧
      (HasBits s (6 + 3) ∧ [15].length + (3 + field s (7 + 6) 3) = 3 + 1) ∧
      HasBits s (2 + 7) ∧ [15].length + (11 + field s (7 + 2) 7) = 11 + 1 := by decide

theorem witness_CodeLengthErrors :
    let s := zeros .dynamicHuffman 7 2 []
    HasBits s 9 ∧ [15] ≠ ([] : List Nat) ∧ ¬ HasBits s (8 + 2) ∧
      (HasBits s (7 + 2) ∧ 2 + 1 < [15].length + (3 + field s (7 + 7) 2)) ∧ ¬ HasBits s (7 + 3) ∧
      (HasBits s (6 + 3) ∧ 2 + 1 < [15].length + (3 + field s (7 + 6) 3)) ∧ ¬ HasBits s (3 + 7) ∧
      HasBits s (2 + 7) ∧ 10 + 1 < [15].length + (11 + field s (7 + 2) 7) := by decide

theorem witness_ErrorEntry :
    let s := machine .readBlockHeader 6 [0xff] []
    s.mode ≠ .error ∧ (raise s .truncatedStream).mode = .error ∧ step s = .next (raise s .truncatedStream) ∧
      exec (.hdrFixed true) s = .next (raise s .truncatedStream) := ⟨by decide, rfl, rfl, rfl⟩

theorem witness_StepErrorEntry :
    let s := machine .readBlockHeader 6 [0xff] []
    s.mode ≠ .error ∧ step s = .next (raise s .truncatedStream) ∧ (raise s .truncatedStream).mode = .error ∧
      answers (step (zeros .fixedHuffman 0 2 [])) (fun t => t.mode != .error) = true :=
  ⟨by decide, rfl, rfl, by decide +kernel⟩

/-- A step that raises: in a fixed-Huffman block, with either value of `DYN_SUPPORT`, with `OUT_CAP` unbounded. -/
theorem witness_ErrorsByConfiguration :
    let s := zeros .fixedHuffman 0 1 []
    Inv s ∧ Inv (noDyn s) ∧ s.mode ≠ .error ∧ step s = .next (raise s .truncatedStream) ∧
      step (noDyn s) = .next (raise (noDyn s) .truncatedStream) ∧ (raise s .truncatedStream).err = some .truncatedStream ∧
      s.cfg.dynSupport = true ∧ (noDyn s).cfg.dynSupport = false ∧ s.cfg.outCap = none :=
  ⟨inv_of_parts (by decide) rfl rfl (by decide), inv_of_parts (by decide) rfl rfl (by decide), by decide, rfl, rfl, rfl, rfl, rfl, rfl⟩

theorem witness_HaltedStays :
    State.reset.mode = .idle ∧ (machine .done 9 [1] [2]).mode = .done ∧ (raise State.reset .truncatedStream).mode = .error :=
  ⟨rfl, rfl, rfl⟩

/-- The invariant in a fixed-Huffman block, in which a literal is next. -/
theorem witness_StepKeepsInvariant :
    Inv (machine .fixedHuffman 3 [0x4b, 4, 0] []) ∧
      answers (step (machine .fixedHuffman 3 [0x4b, 4, 0] [])) (ends .fixedHuffman none 11 1 false) = true :=
  ⟨inv_of_parts (by decide) rfl rfl (by decide), by decide +kernel⟩

/-- The invariant in a dynamic block whose tables are built: the last code length of 257 is that of the end-of-block symbol. -/
theorem witness_StepKeepsInvariant_dynamic :
    let s := withTables (tableOf (List.replicate 256 0 ++ [1])) (tableOf [1]) (zeros .dynamicHuffman 0 2 [])
    Inv s ∧ answers (step s) (ends .readBlockHeader none 1 0 false) = true :=
  ⟨⟨by decide, by decide, by decide, by decide, ⟨fun _ => rfl, fun _ => rfl⟩, fun _ => ⟨rfl, fun _ =>
    ⟨List.replicate 256 0 ++ [1], [1], by decide +kernel, by decide, rfl, rfl⟩⟩⟩, by decide +kernel⟩

/-- A step of every kind that raises nothing. -/
theorem witness_StepProgress :
    answers (step (machine .readBlockHeader 5 [0x20] [])) (ends .stored none 8 0 true) = true ∧
      answers (step (zeros .stored 0 4 [])) (ends .readBlockHeader none 32 0 false) = true ∧
      answers (step (zeros .fixedHuffman 0 2 [])) (ends .readBlockHeader none 7 0 false) = true ∧
      answers (step (machine .dynamicHuffman 3 p4 [])) (ends .dynamicHuffman none 103 0 false) = true ∧
      answers (step (p4Tables (machine .dynamicHuffman 103 p4 []))) (ends .dynamicHuffman none 105 1 false) = true ∧
      (zeros .fixedHuffman 0 2 []).tblFixll = fixedTable := by
  refine ⟨?_, ?_, ?_, ?_, ?_, rfl⟩ <;> decide +kernel

theorem witness_RunTerminates : (start State.reset).mode.running = true ∧ (zeros .dynamicHuffman 0 9 []).mode.running = true :=
  ⟨rfl, rfl⟩

theorem witness_InputUntouched :
    step (machine .readBlockHeader 6 [0xff] []) = .next (raise (machine .readBlockHeader 6 [0xff] []) .truncatedStream) := rfl

/-- `Done` after a final block, `ReadBlockHeader` after another, `DynamicHuffman` after its header. -/
theorem witness_FlagWriters :
    answers (step { zeros .fixedHuffman 0 2 [] with bfinal := true }) (ends .done none 7 0 true) = true ∧
      answers (step (zeros .fixedHuffman 0 2 [])) (ends .readBlockHeader none 7 0 false) = true ∧
      answers (step (machine .readBlockHeader 0 [5] [])) (ends .dynamicHuffman none 3 0 true) = true ∧
      (zeros .fixedHuffman 0 2 []).fixedValid = true := by decide +kernel

theorem witness_OutputGrowsByAppend :
    MemoryInv (machine .fixedHuffman 3 [0x4b, 4, 0] [5]) ∧
      answers (step (machine .fixedHuffman 3 [0x4b, 4, 0] [5])) (ends .fixedHuffman none 11 2 false) = true ∧
      answers (step (zeros .fixedHuffman 0 1 [5])) (ends .error (some .truncatedStream) 0 0 false) = true := by decide +kernel

/-- Two different memories that agree below `IN_SIZE`. -/
theorem witness_InputBeyondSizeUnseen :
    let s := machine .fixedHuffman 3 [0x4b, 4, 0] []
    let t := { s with inMem := memWrite s.inMem 3 0xff }
    SameInput s t ∧ t ≠ s := by
  refine ⟨⟨fun a ha => ?_, rfl⟩, by decide +kernel⟩
  have h : ∀ n < 3, inRead (machine .fixedHuffman 3 [0x4b, 4, 0] []) n =
      memRead (memWrite (machine .fixedHuffman 3 [0x4b, 4, 0] []).inMem 3 0xff) n := by decide
  exact h a ha

/-- Two different memories that agree below `OUT_LEN`. -/
theorem witness_DeadOutputUnseen :
    let s := machine .fixedHuffman 3 [0x4b, 4, 0] [7]
    let t := { s with outMem := memWrite s.outMem 1 0xff }
    SameOutput s t ∧ t ≠ s ∧ Memory.wf s.outMem = true ∧ Memory.wf t.outMem = true := by
  refine ⟨⟨fun a ha => ?_, rfl⟩, by decide +kernel, by decide, by decide⟩
  have h : ∀ n < 1, outRead (machine .fixedHuffman 3 [0x4b, 4, 0] [7]) n =
      memRead (memWrite (machine .fixedHuffman 3 [0x4b, 4, 0] [7]).outMem 1 0xff) n := by decide
  exact h a ha

theorem witness_DeadTablesUnseen :
    SameButDynTables (zeros .readBlockHeader 0 9 []) (p4Tables (zeros .readBlockHeader 0 9 [])) ∧
      (zeros .readBlockHeader 0 9 []).mode ≠ .dynamicHuffman := ⟨rfl, by decide⟩

/-- `MATCH 258 32768`, the longest and the farthest, and `MATCH 3 1`, in a stream that holds it at bit 5. -/
theorem witness_AssembledMatchCopies :
    let s := fun e : Element => { machine .fixedHuffman 5 (packBytes (List.replicate 5 true ++ elementBits fixedTable none 0 e) 6) [] with
      outLen := 32768 }
    let meets := fun (L D : Nat) (e : Element) => MemoryInv (s e) ∧ HasBits (s e) 16 ∧
      (∀ k < (elementBits fixedTable none 0 e).length, sbit (s e) (5 + k) = (elementBits fixedTable none 0 e).getD k false) ∧
      HasBits (s e) (elementBits fixedTable none 0 e).length ∧ D ≤ (s e).outLen ∧ HasRoom (s e) L
    meets 258 32768 (.copy 258 32768) ∧ meets 3 1 (.copy 3 1) := by decide +kernel

end Sys2Proof.Tests
end

/-! Bit reversal, padding and the window, bit by bit (00_scope.md R16, R17, 42_huffman_decoder.md R182). -/

namespace Sys2Proof.Machine

/-- Bit `i` of a numeric field is the stream bit `i` places after its first (20_memory.md R71). -/
theorem testBit_bitsVal (bit : Nat → Bool) (p n i : Nat) :
    (bitsVal bit p n).testBit i = (decide (i < n) && bit (p + i)) := by
  induction n generalizing p i with
  | zero => simp [bitsVal]
  | succ n ih =>
    have hb : bitsVal bit p (n + 1) = 2 ^ 1 * bitsVal bit (p + 1) n + (bit p).toNat := by
      simp only [bitsVal]; omega
    rw [hb, Nat.testBit_two_pow_mul_add _ (Bool.toNat_lt (bit p))]
    cases i with
    | zero => cases bit p <;> simp
    | succ i => simp [ih, Nat.add_assoc, Nat.add_comm 1 i]

/-- Bit `i` of a reversal is the bit at the mirrored place (00_scope.md R16). -/
theorem testBit_rev {n i : Nat} (v : Nat) (hi : i < n) : (rev n v).testBit i = v.testBit (n - 1 - i) := by
  induction n generalizing v with
  | zero => omega
  | succ n ih =>
    rw [rev, Nat.mul_comm, Nat.testBit_two_pow_mul_add _ (rev_lt n _)]
    obtain hi' | rfl := Nat.lt_succ_iff_lt_or_eq.1 hi
    · have hmirror : n + 1 - 1 - i = n - 1 - i + 1 := by omega
      rw [if_pos hi', ih _ hi', hmirror, Nat.testBit_succ]
    · simp

/-- A code of `len` bits comes back from its padded form (00_scope.md R17). -/
theorem unpad_pad {c len : Nat} (hlen : len ≤ 16) (hc : c < 2 ^ len) : unpad (pad c len) len = c := by
  have hfits : c * 2 ^ (16 - len) < 2 ^ 16 := by
    calc c * 2 ^ (16 - len) < 2 ^ len * 2 ^ (16 - len) := Nat.mul_lt_mul_of_pos_right hc (Nat.two_pow_pos _)
      _ = 2 ^ 16 := by rw [← Nat.pow_add, Nat.add_sub_cancel' hlen]
  rw [unpad, pad, Nat.mod_eq_of_lt hfits, Nat.mul_div_cancel _ (Nat.two_pow_pos _)]

/-- The first stream bit is the most significant bit of the window (42_huffman_decoder.md R182). -/
theorem testBit_windowAt (s : State) (p : Nat) {i : Nat} (hi : i < 16) :
    (windowAt s p).testBit (15 - i) = sbit s (p + i) := by
  have hmirror : 16 - 1 - (15 - i) = i := by omega
  rw [windowAt, testBit_rev _ (by omega), hmirror, field, testBit_bitsVal, decide_eq_true hi, Bool.true_and]

/-- Settles O18: each clause is one of the bit-by-bit lemmas. -/
theorem reversalPaddingWindow : Obligations.ReversalPaddingWindow :=
  ⟨fun n v => ⟨rev_lt n v, fun _ hi => testBit_rev v hi⟩,
    fun _ _ _ hlen hc => unpad_pad (by omega) hc,
    fun s p _ hi => testBit_windowAt s p hi⟩

end Sys2Proof.Machine

/-! How far a step moves the cursor, and what it appends at most, read off the list of its causes (`StepDoes`). -/

namespace Sys2Proof.Machine

/-- Every step answers a next state (00_scope.md R19; of a halted machine it is log entry 2). -/
theorem step_next (s : State) : ∃ t, step s = .next t := by
  unfold step
  split
  · exact ⟨s, rfl⟩
  · exact exec_next _ s
  · exact ⟨_, rfl⟩

theorem Advanced.outLen_eq {s t : State} (h : Advanced s t) : t.outLen = s.outLen := by
  obtain ⟨ht, -, -⟩ := h
  rw [ht, setBitpos_outLen]

/-- A cursor that has moved is inside the input (10_state.md R32). -/
theorem Advanced.inside_of_lt {s t : State} (h : Advanced s t) (hlt : s.bitpos < t.bitpos) : t.bitpos ≤ 8 * s.inSize := by
  obtain ⟨-, -, hend⟩ := h
  omega

@[simp] theorem copyLoop_bitpos (d n : Nat) (s : State) : (copyLoop d n s).bitpos = s.bitpos := by
  rw [copyLoop_eq]

/-- From `s` to `t` the cursor moves by what the element `s` selects can take, and `OUT` grows by at most what it can append
(43_block_processor.md R214): the claim of `Obligations.StepProgress` for two states. -/
def ElementBounds (s t : State) : Prop :=
  t.bitpos ≤ 8 * s.inSize ∧
  (s.mode = .readBlockHeader → t.bitpos = s.bitpos + 3 ∧ t.outLen = s.outLen) ∧
  (s.mode = .stored → s.bitpos + 32 ≤ t.bitpos ∧ t.outLen ≤ s.outLen + 65535) ∧
  (s.mode = .fixedHuffman → s.bitpos + 7 ≤ t.bitpos ∧ t.bitpos ≤ s.bitpos + 31 ∧ t.outLen ≤ s.outLen + 258) ∧
  (s.mode = .dynamicHuffman → s.dynValid = false → s.bitpos + 26 ≤ t.bitpos ∧ t.outLen = s.outLen) ∧
  (s.mode = .dynamicHuffman → s.dynValid = true →
    s.bitpos + 1 ≤ t.bitpos ∧ t.bitpos ≤ s.bitpos + 48 ∧ t.outLen ≤ s.outLen + 258)

theorem elementBounds_of_header {s t : State} (hm : s.mode = .readBlockHeader) (hin : s.bitpos + 3 ≤ 8 * s.inSize)
    (hp : t.bitpos = s.bitpos + 3) (ho : t.outLen = s.outLen) : ElementBounds s t := by
  simp [ElementBounds, hm, hp, ho, hin]

theorem elementBounds_of_stored {s t : State} (hm : s.mode = .stored) (hin : t.bitpos ≤ 8 * s.inSize)
    (hp : s.bitpos + 32 ≤ t.bitpos) (ho : t.outLen ≤ s.outLen + 65535) : ElementBounds s t := by
  simp [ElementBounds, hm, hp, ho, hin]

theorem elementBounds_of_dynHeader {s t : State} (hm : s.mode = .dynamicHuffman) (hv : s.dynValid = false)
    (hin : t.bitpos ≤ 8 * s.inSize) (hp : s.bitpos + 26 ≤ t.bitpos) (ho : t.outLen = s.outLen) : ElementBounds s t := by
  simp [ElementBounds, hm, hv, hp, ho, hin]

/-- A symbol of either kind of Huffman block, with the match it may begin (43_block_processor.md R209, 45_dynamic_block.md
R265): the code of a symbol has at least 7 bits in the fixed code, and at least 1 in any. -/
theorem elementBounds_of_symbol {s t : State} {len : Nat} (hs : InSymbols s) (hl : SymbolLen s len)
    (hfix : s.mode = .fixedHuffman → s.tblFixll = fixedTable) (hin : t.bitpos ≤ 8 * s.inSize)
    (hlo : s.bitpos + len ≤ t.bitpos) (hhi : t.bitpos ≤ s.bitpos + (if s.mode = .fixedHuffman then 31 else 48))
    (ho : t.outLen ≤ s.outLen + 258) : ElementBounds s t := by
  obtain ⟨hpos, -, hfixed⟩ := hl
  rcases hs with hm | ⟨hm, hv⟩
  · rw [if_pos hm] at hhi
    have h7 : s.bitpos + 7 ≤ t.bitpos := by have := (hfixed hm (hfix hm)).1; omega
    simp [ElementBounds, hm, hin, h7, hhi, ho]
  · rw [if_neg (by simp [hm])] at hhi
    have h1 : s.bitpos + 1 ≤ t.bitpos := by omega
    simp [ElementBounds, hm, hv, hin, h1, hhi, ho]

/-- A symbol's code alone is short enough in both kinds of block. -/
theorem SymbolLen.le_span {s : State} {len : Nat} (hl : SymbolLen s len) :
    s.bitpos + len ≤ s.bitpos + (if s.mode = .fixedHuffman then 31 else 48) := by
  obtain ⟨-, h15, -⟩ := hl
  split <;> omega

/-- A match takes at most 31 bits in a fixed-Huffman block, where its length code has at most 8, and 48 in a dynamic one. -/
theorem match_le_span {s : State} {len p : Nat} (hl : SymbolLen s len) (hml : MatchLen s len)
    (hfix : s.mode = .fixedHuffman → s.tblFixll = fixedTable)
    (hp : p ≤ s.bitpos + len + (if s.mode = .fixedHuffman then 23 else 33)) :
    p ≤ s.bitpos + (if s.mode = .fixedHuffman then 31 else 48) := by
  obtain ⟨-, h15, -⟩ := hl
  by_cases hm : s.mode = .fixedHuffman
  · have h8 := hml hm (hfix hm)
    rw [if_pos hm] at hp ⊢
    omega
  · rw [if_neg hm] at hp ⊢
    omega

/-- Every next state of a running machine but error entry is within the bounds of its element. -/
theorem elementBounds_of_stepDoes {s t : State} (hrun : s.mode.running = true) (herr : t.mode ≠ .error)
    (hfix : s.mode = .fixedHuffman → s.tblFixll = fixedTable) (h : StepDoes s t) : ElementBounds s t := by
  cases h with
  | halted hhalt => rw [hrun] at hhalt; cases hhalt
  | raised e => exact absurd (raise_mode s e) herr
  | headerStored hm hb => exact elementBounds_of_header hm hb rfl rfl
  | headerFixed hm hb => exact elementBounds_of_header hm hb (by split <;> rfl) (by split <;> rfl)
  | headerDynamic hm hb => exact elementBounds_of_header hm hb rfl rfl
  | storedBody u a n hm hu h32 ha h8 hn hin =>
    have ho := hu.outLen_eq
    refine elementBounds_of_stored hm ?_ ?_ ?_ <;>
      simp only [blockEnd_bitpos, blockEnd_outLen, setBitpos_bitpos, setBitpos_outLen, storedLoop_outLen] <;> omega
  | literal b len hs hl hin =>
    exact elementBounds_of_symbol hs hl hfix hin (Nat.le_refl _) hl.le_span (Nat.add_le_add_left (by decide) _)
  | endOfBlock len hs hl hin =>
    exact elementBounds_of_symbol hs hl hfix hin (Nat.le_refl _) hl.le_span (Nat.le_add_right _ _)
  | copied u len length distance hs hl hml hu hlo hin hspan hlen =>
    have ho : (copyLoop distance length u).outLen ≤ s.outLen + 258 := by rw [copyLoop_outLen, hu.outLen_eq]; omega
    rw [← copyLoop_bitpos distance length u] at hlo hin hspan
    exact elementBounds_of_symbol hs hl hfix hin hlo (match_le_span hl hml hfix hspan) ho
  | dynHeader u cl L D hm hv hu h26 =>
    exact elementBounds_of_dynHeader hm hv (hu.inside_of_lt (by omega)) h26 hu.outLen_eq

/-- Settles O52: a step answers a next state, and `StepDoes` lists the causes it can have. -/
theorem stepProgress : Obligations.StepProgress := fun s => by
  obtain ⟨t, h⟩ := step_next s
  exact ⟨t, h, fun hrun herr hfix => elementBounds_of_stepDoes hrun herr hfix (step_does h)⟩

end Sys2Proof.Machine

/-! The fields of `STATUS` (10_state.md R52), read back from the composed register, and the registers after reset (R57). -/

namespace Sys2Proof.Machine

/-- Bits 2..0 of `STATUS` are the encoding of `STATE` (10_state.md R52). -/
@[simp] theorem status_modeBits (s : State) : (status s).extractLsb' 0 3 = modeNumber s.mode :=
  BitVec.extractLsb'_append_eq_right

/-- Bit 3 of `STATUS` is `BFINAL` (10_state.md R52). -/
theorem status_bfinalBit (s : State) : (status s).getLsbD 3 = s.bfinal := by
  rw [status, BitVec.getLsbD_append, if_neg (by decide), BitVec.getLsbD_append, if_pos (by decide), BitVec.getLsbD_ofBool]
  simp

/-- Bits 7..4 of `STATUS` are the code of `ERR`: what stands above the four bits of `BFINAL` and `STATE` (10_state.md R52). -/
@[simp] theorem status_errBits (s : State) : (status s).extractLsb' 4 4 = errValue s.err :=
  calc (status s).extractLsb' 4 4
    _ = (errValue s.err ++ BitVec.ofBool s.bfinal).extractLsb' 1 4 := BitVec.extractLsb'_append_eq_of_le (by decide)
    _ = errValue s.err := BitVec.extractLsb'_append_eq_left

/-- `STATUS` is 0 when `STATE`, `BFINAL` and `ERR` are (10_state.md R57). -/
theorem status_eq_zero {s : State} (hmode : s.mode = .idle) (hfinal : s.bfinal = false) (herr : s.err = none) :
    status s = 0 := by
  rw [status, hmode, hfinal, herr]
  decide

/-- The model's reset state is what the host's reset makes of it, with nothing in memory and empty tables (log entries 5, 6, 7). -/
theorem reset_eq_hostReset :
    State.reset = hostReset [] [] emptyTable emptyTable emptyTable emptyTable State.reset := rfl

/-- Settles O6: each field of `STATUS` by its own lemma, and the finite lists of encodings by evaluation. -/
theorem statusComposition : Obligations.StatusComposition :=
  ⟨fun s => ⟨status_modeBits s, status_bfinalBit s, status_errBits s⟩, by decide, by decide⟩

/-- Settles O1: `hostReset` writes every register as a literal, and `STATUS` is composed of three of them. -/
theorem resetRegisters : Obligations.ResetRegisters := fun _ _ _ _ _ _ _ =>
  ⟨rfl, rfl, rfl, rfl, rfl, rfl, rfl, rfl, rfl, status_eq_zero rfl rfl rfl, rfl, ⟨rfl, rfl, rfl, rfl, rfl, rfl⟩,
    [], [], emptyTable, emptyTable, emptyTable, emptyTable, reset_eq_hostReset⟩

end Sys2Proof.Machine

/-! The fixed literal/length code (30_encoding.md R104): what `DECODE` answers on `TBL.FIXLL` for every window, and the FIXLL row
of a window that follows from it. -/

namespace Sys2Proof.Machine

/-- `DECODE` after its length test: the entry of the selected bucket that lies `idx` codes above the start code
(42_huffman_decoder.md R184). -/
theorem decodeWindow_of_selectLen {T : DecodeTable} {w len idx sym : Nat} (hsel : selectLen T w = some len)
    (hcode : unpad w len = unpad (T.padded len) len + idx)
    (hsym : ((T.symbols len).map BitVec.toNat)[idx]? = some sym) : decodeWindow T w = .ok (sym, len) := by
  rw [List.getElem?_map, Option.map_eq_some_iff] at hsym
  obtain ⟨x, hx, rfl⟩ := hsym
  have hidx : idx < T.count len := (List.getElem?_eq_some_iff.1 hx).1
  have hoffset : unpad w len - unpad (T.padded len) len = idx := by omega
  rw [decodeWindow, hsel]
  simp only [hoffset]
  rw [if_pos ⟨by omega, hidx⟩, List.getD_eq_getElem?_getD, hx, Option.getD_some]

theorem fixedTable_last : fixedTable.last = 9 := by decide +kernel

/-- The fixed code has no code shorter than 7 bits (10_state.md R49). -/
theorem fixedTable_padded_le_seven : ∀ len ≤ 7, fixedTable.padded len = 0 := by decide +kernel

theorem fixedTable_padded_eight : fixedTable.padded 8 = 0x3000 := by decide +kernel

theorem fixedTable_padded_nine : fixedTable.padded 9 = 0xC800 := by decide +kernel

theorem fixedTable_symbols_seven : (fixedTable.symbols 7).map BitVec.toNat = List.range' 256 24 := by decide +kernel

theorem fixedTable_symbols_eight :
    (fixedTable.symbols 8).map BitVec.toNat = List.range' 0 144 ++ List.range' 280 8 := by decide +kernel

theorem fixedTable_symbols_nine : (fixedTable.symbols 9).map BitVec.toNat = List.range' 144 112 := by decide +kernel

/-- The code length that `DECODE` selects on the fixed table (42_huffman_decoder.md R183). -/
theorem selectLen_fixedTable (w : Nat) :
    selectLen fixedTable w = some (if w < 0x3000 then 7 else if w < 0xC800 then 8 else 9) := by
  have hshort : ∀ len < 7, 1 ≤ len → lenSelected fixedTable w len = false := fun len h7 _ => by
    have h9 : len ≠ 9 := by omega
    simp [lenSelected, fixedTable_last, fixedTable_padded_le_seven (len + 1) (by omega), h9]
  have hsel7 : lenSelected fixedTable w 7 = decide (w < 0x3000) := by
    simp [lenSelected, fixedTable_last, fixedTable_padded_eight]
  have hsel8 : lenSelected fixedTable w 8 = decide (w < 0xC800) := by
    simp [lenSelected, fixedTable_last, fixedTable_padded_nine]
  have hsel9 : lenSelected fixedTable w 9 = true := by simp [lenSelected, fixedTable_last]
  by_cases h7 : w < 0x3000
  · simp [selectLen, List.range', List.find?, hshort, hsel7, h7]
  · by_cases h8 : w < 0xC800
    · simp [selectLen, List.range', List.find?, hshort, hsel7, hsel8, h7, h8]
    · simp [selectLen, List.range', List.find?, hshort, hsel7, hsel8, hsel9, h7, h8]

/-- Symbol and code length at the top of a window, by the ranges of the fixed code (30_encoding.md R104). -/
def fixedCode (w : Nat) : Nat × Nat :=
  if w < 0x3000 then (256 + w / 2 ^ 9, 7)
  else if w < 0xC000 then (w / 2 ^ 8 - 48, 8)
  else if w < 0xC800 then (280 + (w / 2 ^ 8 - 192), 8)
  else (144 + (w / 2 ^ 7 - 400), 9)

/-- The symbol of a window, range by range. -/
theorem fixedCode_symbol (w : Nat) :
    (w < 0x3000 ∧ (fixedCode w).1 = 256 + w / 2 ^ 9) ∨ (0x3000 ≤ w ∧ w < 0xC000 ∧ (fixedCode w).1 = w / 2 ^ 8 - 48) ∨
      (0xC000 ≤ w ∧ w < 0xC800 ∧ (fixedCode w).1 = 280 + (w / 2 ^ 8 - 192)) ∨
      (0xC800 ≤ w ∧ (fixedCode w).1 = 144 + (w / 2 ^ 7 - 400)) := by
  unfold fixedCode
  split_ifs <;> dsimp only <;> omega

/-- The fixed table decodes every window, by the ranges of the code (30_encoding.md R104, 42_huffman_decoder.md R187). -/
theorem decodeWindow_fixedTable {w : Nat} (hw : w < 2 ^ 16) : decodeWindow fixedTable w = .ok (fixedCode w) := by
  have hsel := selectLen_fixedTable w
  unfold fixedCode
  by_cases h1 : w < 0x3000
  · rw [if_pos h1] at hsel ⊢
    refine decodeWindow_of_selectLen (idx := w / 2 ^ 9) hsel ?_ ?_
    · rw [fixedTable_padded_le_seven 7 (by decide)]; simp [unpad]
    · rw [fixedTable_symbols_seven, List.getElem?_range' (by omega), Nat.one_mul]
  rw [if_neg h1] at hsel ⊢
  by_cases h2 : w < 0xC000
  · rw [if_pos (by omega)] at hsel
    rw [if_pos h2]
    refine decodeWindow_of_selectLen (idx := w / 2 ^ 8 - 48) hsel ?_ ?_
    · rw [fixedTable_padded_eight]; simp only [unpad]; omega
    · rw [fixedTable_symbols_eight, List.getElem?_append_left (by simp; omega), List.getElem?_range' (by omega),
        Nat.one_mul, Nat.zero_add]
  rw [if_neg h2]
  by_cases h3 : w < 0xC800
  · rw [if_pos h3] at hsel ⊢
    refine decodeWindow_of_selectLen (idx := 144 + (w / 2 ^ 8 - 192)) hsel ?_ ?_
    · rw [fixedTable_padded_eight]; simp only [unpad]; omega
    · rw [fixedTable_symbols_eight, List.getElem?_append_right (by simp), List.length_range', Nat.add_sub_cancel_left,
        List.getElem?_range' (by omega), Nat.one_mul]
  · rw [if_neg h3] at hsel ⊢
    refine decodeWindow_of_selectLen (idx := w / 2 ^ 7 - 400) hsel ?_ ?_
    · rw [fixedTable_padded_nine]; simp only [unpad]; omega
    · rw [fixedTable_symbols_nine, List.getElem?_range' (by omega), Nat.one_mul]

/-- The FIXLL row of a window is the row of the symbol whose code the window begins with (30_encoding.md R104, R126). -/
theorem decode_fixll (x : Latches) {v : Nat} (hv : v < 2 ^ 16) :
    decode .fixll x v = orReject .noSuchSymbol (fixllInstr (fixedCode v).1) := by
  have hd := decodeWindow_fixedTable hv
  have hlen : (fixedCode v).2 = romFixedLengths.getD (fixedCode v).1 0 := (decodeWindow_fixedTable_len hd).1
  simp only [decode, if_pos hv, hd]
  rw [fixedBlockInstr, if_pos hlen]

/-- A window of FIXLL decodes to the row of its symbol. -/
theorem decode_fixll_ok (x : Latches) {v : Nat} {i : Instr} (hv : v < 2 ^ 16)
    (h : fixllInstr (fixedCode v).1 = some i) : decode .fixll x v = .ok i := by
  rw [decode_fixll x hv, h, orReject]

end Sys2Proof.Machine

/-! The rows of the opcode table (30_encoding.md R126): every mask is the top bits of its format's field, so a row matches a value
when those bits are the row's; the rows of a decoded value, and that no value matches two of them. -/

namespace Sys2Proof.Machine

/-- Under a mask of all bits from `k` up, a value of `n` bits is its part above bit `k`. -/
theorem and_topMask {n k v : Nat} (hk : k ≤ n) (hv : v < 2 ^ n) : v &&& (2 ^ n - 2 ^ k) = v / 2 ^ k * 2 ^ k := by
  have hmask : 2 ^ n - 2 ^ k = (2 ^ (n - k) - 1) * 2 ^ k := by
    rw [Nat.sub_mul, Nat.one_mul, ← Nat.pow_add, Nat.sub_add_cancel hk]
  have htop : v / 2 ^ k < 2 ^ (n - k) := by
    rwa [Nat.div_lt_iff_lt_mul (Nat.two_pow_pos k), ← Nat.pow_add, Nat.sub_add_cancel hk]
  calc v &&& (2 ^ n - 2 ^ k)
    _ = (v / 2 ^ k &&& (2 ^ (n - k) - 1)) * 2 ^ k := by
      refine Nat.eq_of_testBit_eq fun i => ?_
      by_cases hi : k ≤ i <;>
        simp [hmask, Nat.testBit_mul_two_pow, Nat.testBit_div_two_pow, Bool.and_comm, hi]
    _ = v / 2 ^ k * 2 ^ k := by rw [Nat.and_two_pow_sub_one_of_lt_two_pow htop]

/-- The row of `i` is one of format `f` that matches the value `v` (30_encoding.md R126). -/
def IsRow (f : Format) (v : Nat) (i : Instr) : Prop := v &&& i.row.1 = i.row.2 ∧ i.format = f

/-- A row whose mask is all bits of its format's field from `k` up. -/
theorem isRow_of_top {f : Format} {i : Instr} {v : Nat} (n k c : Nat) (hv : v < 2 ^ n) (hc : v / 2 ^ k = c)
    (hrow : (i.format, i.row) = (f, 2 ^ n - 2 ^ k, c * 2 ^ k)) (hk : k ≤ n := by decide) : IsRow f v i := by
  obtain ⟨hf, hr⟩ := Prod.mk.inj hrow
  rw [IsRow, hr, and_topMask hk hv, hc]
  exact ⟨rfl, hf⟩

/-! ### The tables of rows, in the order of their symbols -/

/-- What a table of rows gives at one place, and that it has no other places. -/
theorem row_of_getElem? {α β : Type} {rows : List α} {row : α → β} {f : Nat → β} {n k : Nat} {a : α}
    (h : rows.map row = (List.range n).map f) (hk : rows[k]? = some a) : k < n ∧ row a = f k := by
  have hn : rows.length = n := by simpa using congrArg List.length h
  have hlt : k < n := hn ▸ (List.getElem?_eq_some_iff.1 hk).1
  have hrow := congrArg (·[k]?) h
  simp only [List.getElem?_map, hk, List.getElem?_range hlt, Option.map_some, Option.some.injEq] at hrow
  exact ⟨hlt, hrow⟩

theorem header_rows (f : Bool) :
    [Instr.hdrStored f, .hdrFixed f, .hdrDynamic f, .hdrReserved f].map (fun i => (i.format, i.row)) =
      (List.range 4).map (fun t => (.blkhdr, 2 ^ 3 - 2 ^ 1, t * 2 ^ 1)) := rfl

theorem lengthFixRows_rows :
    lengthFixRows.map (fun i => (i.format, i.row)) =
      (List.range 31).map (fun k => if k < 23 then (.fixll, 2 ^ 16 - 2 ^ 9, (k + 1) * 2 ^ 9)
        else (.fixll, 2 ^ 16 - 2 ^ 8, (169 + k) * 2 ^ 8)) := rfl

theorem lengthSymRows_rows (len : Nat) :
    lengthSymRows.map (fun mk => ((mk len).format, (mk len).row)) =
      (List.range 31).map (fun k => (.llsym, 2 ^ 9 - 2 ^ 0, (257 + k) * 2 ^ 0)) := rfl

theorem distFixRows_rows (length : Nat) :
    distFixRows.map (fun mk => ((mk length).format, (mk length).row)) =
      (List.range 32).map (fun d => (.fixdist, 2 ^ 16 - 2 ^ 11, d * 2 ^ 11)) := rfl

theorem distSymRows_rows (length len : Nat) :
    distSymRows.map (fun mk => ((mk length len).format, (mk length len).row)) =
      (List.range 32).map (fun d => (.dsym, 2 ^ 5 - 2 ^ 0, d * 2 ^ 0)) := rfl

theorem codeLength_rows (len : Nat) (q : ClSeq) :
    [Instr.clRep len q, .clZero3 len q, .clZero11 len q].map (fun i => (i.format, i.row)) =
      (List.range 3).map (fun k => (.clsym, 2 ^ 5 - 2 ^ 0, (16 + k) * 2 ^ 0)) := rfl

/-! ### The row of a value -/

theorem headerInstr_isRow {f : Bool} {v : Nat} {i : Instr} (h : headerInstr f (v / 2) = some i) : IsRow .blkhdr v i := by
  obtain ⟨ht, hrow⟩ := row_of_getElem? (header_rows f) h
  exact isRow_of_top 3 1 (v / 2) (by omega) rfl hrow

theorem fixllInstr_isRow {v : Nat} {i : Instr} (hv : v < 2 ^ 16) (h : fixllInstr (fixedCode v).1 = some i) :
    IsRow .fixll v i := by
  have hcode := fixedCode_symbol v
  generalize (fixedCode v).1 = sym at h hcode
  unfold fixllInstr at h
  split at h
  · cases h; exact isRow_of_top 16 12 3 hv (by omega) rfl
  split at h
  · cases h; exact isRow_of_top 16 14 1 hv (by omega) rfl
  split at h
  · cases h; exact isRow_of_top 16 14 2 hv (by omega) rfl
  split at h
  · cases h; exact isRow_of_top 16 11 25 hv (by omega) rfl
  split at h
  · cases h; exact isRow_of_top 16 12 13 hv (by omega) rfl
  split at h
  · cases h; exact isRow_of_top 16 13 7 hv (by omega) rfl
  split at h
  · cases h; exact isRow_of_top 16 9 0 hv (by omega) rfl
  obtain ⟨hk, hrow⟩ := row_of_getElem? lengthFixRows_rows h
  by_cases h7 : sym - 257 < 23
  · rw [if_pos h7] at hrow
    exact isRow_of_top 16 9 _ hv (by omega) hrow
  · rw [if_neg h7] at hrow
    exact isRow_of_top 16 8 _ hv (by omega) hrow

theorem fixdistInstr_isRow {v length : Nat} {i : Instr} (hv : v < 2 ^ 16) (h : fixdistInstr (unpad v 5) length = some i) :
    IsRow .fixdist v i := by
  obtain ⟨mk, hmk, rfl⟩ := Option.map_eq_some_iff.1 h
  exact isRow_of_top 16 11 _ hv rfl (row_of_getElem? (distFixRows_rows length) hmk).2

theorem llsymInstr_isRow {v len : Nat} {i : Instr} (h : llsymInstr v len = some i) : IsRow .llsym v i := by
  unfold llsymInstr at h
  split at h
  · cases h; exact isRow_of_top 9 8 0 (by omega) (by omega) rfl
  split at h
  · cases h; exact isRow_of_top 9 0 256 (by omega) (by omega) rfl
  obtain ⟨mk, hmk, rfl⟩ := Option.map_eq_some_iff.1 h
  obtain ⟨hk, hrow⟩ := row_of_getElem? (lengthSymRows_rows len) hmk
  exact isRow_of_top 9 0 _ (by omega) (by omega) hrow

theorem dsymInstr_isRow {v length len : Nat} {i : Instr} (h : dsymInstr v length len = some i) : IsRow .dsym v i := by
  obtain ⟨mk, hmk, rfl⟩ := Option.map_eq_some_iff.1 h
  obtain ⟨hd, hrow⟩ := row_of_getElem? (distSymRows_rows length len) hmk
  exact isRow_of_top 5 0 v hd (by omega) hrow

theorem clsymInstr_isRow {v len : Nat} {q : ClSeq} {i : Instr} (h : clsymInstr v len q = some i) : IsRow .clsym v i := by
  unfold clsymInstr at h
  split at h
  · cases h; exact isRow_of_top 5 4 0 (by omega) (by omega) rfl
  obtain ⟨hk, hrow⟩ := row_of_getElem? (codeLength_rows len q) h
  exact isRow_of_top 5 0 _ (by omega) (by omega) hrow

theorem orReject_ok {why : Reject} {o : Option Instr} {i : Instr} : orReject why o = .ok i ↔ o = some i := by
  cases o <;> simp [orReject]

/-- A decoded row matches the value and is of the format asked for (30_encoding.md R126). -/
theorem decode_isRow {f : Format} {x : Latches} {v : Nat} {i : Instr} (h : decode f x v = .ok i) : IsRow f v i := by
  cases f with
  | blkhdr => exact headerInstr_isRow (orReject_ok.1 h)
  | storedBody | dynhdrBody => cases h; exact ⟨Nat.and_zero v, rfl⟩
  | fixll =>
    by_cases hv : v < 2 ^ 16
    · rw [decode_fixll x hv] at h
      exact fixllInstr_isRow hv (orReject_ok.1 h)
    · rw [decode, if_neg hv] at h
      cases h
  | fixdist =>
    by_cases hv : v < 2 ^ 16
    · rw [decode, if_pos hv] at h
      exact fixdistInstr_isRow hv (orReject_ok.1 h)
    · rw [decode, if_neg hv] at h
      cases h
  | llsym => exact llsymInstr_isRow (orReject_ok.1 h)
  | dsym => exact dsymInstr_isRow (orReject_ok.1 h)
  | clsym => exact clsymInstr_isRow (orReject_ok.1 h)

/-! ### Every value decodes -/

theorem headerInstr_exists (f : Bool) {t : Nat} (h : t < 4) : ∃ i, headerInstr f t = some i :=
  ⟨_, List.getElem?_eq_getElem h⟩

theorem fixllInstr_exists {sym : Nat} (h : sym < 288) : ∃ i, fixllInstr sym = some i := by
  have hk : sym - 257 < lengthFixRows.length := by change sym - 257 < 31; omega
  rw [fixllInstr, List.getElem?_eq_getElem hk]
  split_ifs <;> exact ⟨_, rfl⟩

theorem llsymInstr_exists (len : Nat) {sym : Nat} (h : sym < 288) : ∃ i, llsymInstr sym len = some i := by
  have hk : sym - 257 < lengthSymRows.length := by change sym - 257 < 31; omega
  rw [llsymInstr, List.getElem?_eq_getElem hk]
  split_ifs <;> exact ⟨_, rfl⟩

theorem fixdistInstr_exists (length : Nat) {d : Nat} (h : d < 32) : ∃ i, fixdistInstr d length = some i := by
  rw [fixdistInstr, List.getElem?_eq_getElem (l := distFixRows) h]
  exact ⟨_, rfl⟩

theorem dsymInstr_exists (length len : Nat) {d : Nat} (h : d < 32) : ∃ i, dsymInstr d length len = some i := by
  rw [dsymInstr, List.getElem?_eq_getElem (l := distSymRows) h]
  exact ⟨_, rfl⟩

theorem clsymInstr_exists (len : Nat) (q : ClSeq) {sym : Nat} (h : sym < 19) : ∃ i, clsymInstr sym len q = some i := by
  have hk : sym - 16 < [Instr.clRep len q, .clZero3 len q, .clZero11 len q].length := by
    change sym - 16 < 3; omega
  rw [clsymInstr, List.getElem?_eq_getElem hk]
  split_ifs <;> exact ⟨_, rfl⟩

theorem orReject_exists_ok {why : Reject} {o : Option Instr} (h : ∃ i, o = some i) : ∃ i, orReject why o = .ok i := by
  obtain ⟨i, hi⟩ := h
  exact ⟨i, orReject_ok.2 hi⟩

/-- A symbol of the fixed code is one of the alphabet (30_encoding.md R104). -/
theorem fixedCode_lt {v : Nat} (hv : v < 2 ^ 16) : (fixedCode v).1 < 288 := by
  have hcode := fixedCode_symbol v
  omega

/-- Settles O13: the decoded row by format, and the answer each format's lookup has for every value in its range. -/
theorem decodeMatchesTable : Obligations.DecodeMatchesTable := fun f x v => by
  refine ⟨fun i h => decode_isRow h, fun hv => ?_⟩
  cases f with
  | blkhdr => exact orReject_exists_ok (headerInstr_exists _ (Nat.div_lt_of_lt_mul hv))
  | storedBody | dynhdrBody => exact ⟨_, rfl⟩
  | fixll =>
    rw [decode_fixll x hv]
    exact orReject_exists_ok (fixllInstr_exists (fixedCode_lt hv))
  | fixdist =>
    have hd : unpad v 5 < 32 := Nat.div_lt_of_lt_mul hv
    rw [decode, if_pos hv]
    exact orReject_exists_ok (fixdistInstr_exists _ hd)
  | llsym => exact orReject_exists_ok (llsymInstr_exists _ hv)
  | dsym => exact orReject_exists_ok (dsymInstr_exists _ _ hv)
  | clsym => exact orReject_exists_ok (clsymInstr_exists _ _ hv)

/-! ### No two rows match one value -/

/-- The rows of spec/opcode_table.json of one format. -/
def formatRows (f : Format) : List (Nat × Nat) :=
  match f with
  | .blkhdr => [Instr.hdrStored false, .hdrFixed false, .hdrDynamic false, .hdrReserved false].map Instr.row
  | .storedBody => [Instr.storedBody.row]
  | .dynhdrBody => [Instr.dynhdr.row]
  | .fixll =>
    ([Instr.lit0to15 0, .lit16to79 0, .lit80to143 0, .lit144to159 0, .lit160to191 0, .lit192to255 0, .eobFix] ++
      lengthFixRows).map Instr.row
  | .fixdist => distFixRows.map (fun mk => (mk 0).row)
  | .llsym => ([fun len => Instr.lit 0 len, .eobSym] ++ lengthSymRows).map (fun mk => (mk 0).row)
  | .dsym => distSymRows.map (fun mk => (mk 0 0).row)
  | .clsym =>
    [fun q => Instr.clLen 0 0 q, .clRep 0, .clZero3 0, .clZero11 0].map (fun mk => (mk ⟨[], 0, 0⟩).row)

theorem row_mem_formatRows (i : Instr) : i.row ∈ formatRows i.format := by
  cases i <;> simp only [Instr.row, Instr.format] <;> decide

/-- Two rows of one format that agree where both masks look are one row. -/
theorem formatRows_disjoint (f : Format) :
    ∀ p ∈ formatRows f, ∀ q ∈ formatRows f, p.2 &&& q.1 = q.2 &&& p.1 → p = q := by
  cases f <;> decide +kernel

/-- Settles O14: where both masks look, each row's match is what the value has there. -/
theorem rowsDisjoint : Obligations.RowsDisjoint := fun i j v hf hi hj => by
  refine formatRows_disjoint i.format _ (row_mem_formatRows i) _ (hf ▸ row_mem_formatRows j) ?_
  calc i.row.2 &&& j.row.1
    _ = v &&& j.row.1 &&& i.row.1 := by rw [← hi, Nat.and_right_comm]
    _ = j.row.2 &&& i.row.1 := by rw [hj]

end Sys2Proof.Machine

/-! Decode of encode (30_encoding.md section 7): a window of FIXLL is looked up through the symbol its code stands for, a literal
through its data bits; every other row stands in its format's table at the place its value names. -/

namespace Sys2Proof.Machine

open Sys2Proof.Laws

/-- In FIXLL it is enough that the symbol of an element's own window has the element as its row. -/
theorem decode_encode_of_fixll {i : Instr} (hf : i.format = .fixll)
    (h : fixllInstr (fixedCode (encode i)).1 = some i) : decode i.format i.latches (encode i) = .ok i := by
  rw [hf]
  exact decode_fixll_ok _ (TableRow.every_row i).2 h

theorem llsymInstr_literal (b : Byte) (len : Nat) : llsymInstr b.toNat len = some (.lit b len) := by
  rw [llsymInstr, if_pos b.isLt, BitVec.ofNat_toNat, BitVec.setWidth_eq]

theorem clsymInstr_length (l : BitVec 4) (len : Nat) (q : ClSeq) : clsymInstr l.toNat len q = some (.clLen l len q) := by
  rw [clsymInstr, if_pos l.isLt, BitVec.ofNat_toNat, BitVec.setWidth_eq]

/-- Every element comes back from its encoding; no bound on its latches is needed, since the decoder takes them as they are. -/
theorem decode_encode (i : Instr) : decode i.format i.latches (encode i) = .ok i := by
  cases i with
  | hdrStored f | hdrFixed f | hdrDynamic f | hdrReserved f => cases f <;> rfl
  | lit0to15 x => exact decode_encode_of_fixll rfl (by revert x; decide)
  | lit16to79 x => exact decode_encode_of_fixll rfl (by revert x; decide)
  | lit80to143 x => exact decode_encode_of_fixll rfl (by revert x; decide)
  | lit144to159 x => exact decode_encode_of_fixll rfl (by revert x; decide)
  | lit160to191 x => exact decode_encode_of_fixll rfl (by revert x; decide)
  | lit192to255 x => exact decode_encode_of_fixll rfl (by revert x; decide)
  | eobFix | len257Fix | len258Fix | len259Fix | len260Fix | len261Fix | len262Fix | len263Fix | len264Fix | len265Fix |
    len266Fix | len267Fix | len268Fix | len269Fix | len270Fix | len271Fix | len272Fix | len273Fix | len274Fix |
    len275Fix | len276Fix | len277Fix | len278Fix | len279Fix | len280Fix | len281Fix | len282Fix | len283Fix |
    len284Fix | len285Fix | ll286Fix | ll287Fix =>
    exact decode_encode_of_fixll rfl rfl
  | lit b len => exact orReject_ok.2 (llsymInstr_literal b len)
  | clLen l len q => exact orReject_ok.2 (clsymInstr_length l len q)
  | _ => simp only [Instr.format, Instr.latches, encode]; rfl

/-- Settles O12. -/
theorem decodeEncodeAgree : Obligations.DecodeEncodeAgree := fun i _ => decode_encode i

/-- Settles O11: the windows of FIXLL through their symbols, every other value by evaluation. -/
theorem decodedWords : Obligations.DecodedWords := fun x =>
  ⟨rfl, rfl, rfl, rfl, decode_fixll_ok x (by decide) rfl, decode_fixll_ok x (by decide) rfl,
    decode_fixll_ok x (by decide) rfl, decode_fixll_ok x (by decide) rfl, decode_fixll_ok x (by decide) rfl,
    decode_fixll_ok x (by decide) rfl, rfl, rfl, rfl, rfl, rfl, rfl, rfl, rfl⟩

end Sys2Proof.Machine

/-! What a step fetches, format by format (43_block_processor.md R200, R201, R204, 45_dynamic_block.md R265). -/

namespace Sys2Proof.Machine

/-- A step is the execution of the element it fetches. -/
theorem step_of_fetch_ok {s : State} {i : Instr} (h : fetch s = some (.ok i)) : step s = exec i s := by
  rw [step, h]

/-- A step takes the error its fetch meets. -/
theorem step_of_fetch_error {s : State} {e : ErrCode} (h : fetch s = some (.error e)) : step s = .next (raise s e) := by
  rw [step, h]

theorem step_of_halted {s : State} (h : s.mode.running = false) : step s = .next s := by
  rw [step, fetch_none.2 h]

/-- With 16 bits left `DECODE` is the decoding of the window (42_huffman_decoder.md R182). -/
theorem decodeSym_of_hasBits {T : DecodeTable} {s : State} (h : HasBits s 16) :
    decodeSym T s = decodeWindow T (windowAt s s.bitpos) := by
  rw [decodeSym_eq, if_pos h]
  rfl

theorem decodeSym_of_not_hasBits {T : DecodeTable} {s : State} (h : ¬ HasBits s 16) :
    decodeSym T s = .error .truncatedStream := by
  rw [decodeSym_eq, if_neg h]

/-- The two reads of a header are its three bits (43_block_processor.md R201). -/
theorem fetchHeader_of_hasBits {s : State} (h : HasBits s 3) (x : Latches) :
    fetchHeader s = orRaise (decode .blkhdr x (field s s.bitpos 3)) := by
  have h1 : s.bitpos + 1 ≤ 8 * s.inSize := by omega
  have h2 : (setBitpos (s.bitpos + 1) s).bitpos + 2 ≤ 8 * (setBitpos (s.bitpos + 1) s).inSize := by
    rw [setBitpos_bitpos, setBitpos_inSize]; omega
  have hfield : field s s.bitpos 3 = bitsVal (sbit s) s.bitpos 1 + 2 * bitsVal (sbit s) (s.bitpos + 1) 2 :=
    bitsVal_add (sbit s) s.bitpos 1 2
  rw [fetchHeader, readBits_eq h1, ok_bind]
  dsimp only
  rw [readBits_eq h2, ok_bind, hfield]
  rfl

/-- A decoded window of FIXLL is a symbol of the fixed table and its row. -/
theorem decode_fixll_symbol {x : Latches} {v : Nat} {i : Instr} (h : decode .fixll x v = .ok i) :
    ∃ sym len, decodeWindow fixedTable v = .ok (sym, len) ∧ fixedBlockInstr sym len = some i := by
  rw [decode] at h
  split at h
  · split at h
    · rename_i sym len hw
      exact ⟨sym, len, hw, orReject_ok.1 h⟩
    · cases h
  · cases h

theorem step_header {s : State} {i : Instr} {x : Latches} (hm : s.mode = .readBlockHeader) (hb : HasBits s 3)
    (h : decode .blkhdr x (field s s.bitpos 3) = .ok i) : step s = exec i s := by
  apply step_of_fetch_ok
  simp only [fetch, hm, fetchHeader_of_hasBits hb x, h, orRaise]

theorem step_fixed {s : State} {i : Instr} {x : Latches} (hm : s.mode = .fixedHuffman) (hT : s.tblFixll = fixedTable)
    (hb : HasBits s 16) (h : decode .fixll x (windowAt s s.bitpos) = .ok i) : step s = exec i s := by
  obtain ⟨sym, len, hw, hi⟩ := decode_fixll_symbol h
  apply step_of_fetch_ok
  simp only [fetch, hm, fetchFixed, decodeSym_of_hasBits hb, hT, hw, ok_bind, hi, orReject, orRaise]

theorem step_dynamic {s : State} {i : Instr} {x : Latches} {sym len : Nat} (hm : s.mode = .dynamicHuffman)
    (hv : s.dynValid = true) (hb : HasBits s 16) (hw : decodeWindow s.tblLl (windowAt s s.bitpos) = .ok (sym, len))
    (h : decode .llsym ⟨len, x.length, x.q⟩ sym = .ok i) : step s = exec i s := by
  have h0 : decode .llsym ⟨len, 0, ⟨[], 0, 0⟩⟩ sym = .ok i := h
  apply step_of_fetch_ok
  simp only [fetch, hm, hv, if_true, fetchDynamic, decodeSym_of_hasBits hb, hw, ok_bind, h0, orRaise]

/-- The error of `DECODE` with the table of a fixed-Huffman block is the step's (60_exceptions.md R331 (c)). -/
theorem step_fixed_error {s : State} {e : ErrCode} (hm : s.mode = .fixedHuffman)
    (h : decodeSym s.tblFixll s = .error e) : step s = .next (raise s e) := by
  apply step_of_fetch_error
  simp only [fetch, hm, fetchFixed, h, error_bind]

/-- The error of `DECODE` with the table of a dynamic block is the step's (60_exceptions.md R331 (c)). -/
theorem step_dynamic_error {s : State} {e : ErrCode} (hm : s.mode = .dynamicHuffman) (hv : s.dynValid = true)
    (h : decodeSym s.tblLl s = .error e) : step s = .next (raise s e) := by
  apply step_of_fetch_error
  simp only [fetch, hm, hv, if_true, fetchDynamic, h, error_bind]

/-- Settles O8: what is fetched in each mode, and the errors of `DECODE`. -/
theorem stepRunsDecoded : Obligations.StepRunsDecoded := fun s i x sym len => by
  refine ⟨step_header, fun hm => ?stored, step_fixed, fun hm hv => ?dynhdr, step_dynamic, ?truncated, fun hm hb e he => ?fixed,
    fun hm hv hb e he => ?dynamic, step_of_halted⟩
  case stored => exact step_of_fetch_ok (by simp only [fetch, hm])
  case dynhdr => exact step_of_fetch_ok (by simp only [fetch, hm, hv, Bool.false_eq_true, if_false])
  case truncated =>
    rintro (hm | ⟨hm, hv⟩) hb
    · exact step_fixed_error hm (decodeSym_of_not_hasBits hb)
    · exact step_dynamic_error hm hv (decodeSym_of_not_hasBits hb)
  case fixed =>
    obtain rfl := decodeWindow_error he
    exact ⟨rfl, step_fixed_error hm ((decodeSym_of_hasBits hb).trans he)⟩
  case dynamic =>
    obtain rfl := decodeWindow_error he
    exact ⟨rfl, step_dynamic_error hm hv ((decodeSym_of_hasBits hb).trans he)⟩

end Sys2Proof.Machine

/-! The bit cursor (40_bit_cursor.md R140 to R143): a peek and a read by whether the input still holds their bits, and alignment. -/

namespace Sys2Proof.Machine

/-- Within the input a peek answers the bits at the cursor (R140). -/
theorem peekBits_of_hasBits {n : Nat} {s : State} {width : n ≤ 16} (h : HasBits s n) :
    peekBits n s width = .ok (bitsVal (sbit s) s.bitpos n) :=
  peekBits_ok.2 ⟨h, rfl⟩

/-- A peek past the input answers no data (R143). -/
theorem peekBits_of_not_hasBits {n : Nat} {s : State} {width : n ≤ 16} (h : ¬ HasBits s n) :
    peekBits n s width = .error .truncatedStream :=
  peekBits_error.2 ⟨Nat.lt_of_not_le h, rfl⟩

/-- A read past the input answers no data and no state (R143). -/
theorem readBits_of_not_hasBits {n : Nat} {s : State} {width : n ≤ 16} (h : ¬ HasBits s n) :
    readBits n s width = .error .truncatedStream :=
  readBits_error.2 ⟨Nat.lt_of_not_le h, rfl⟩

/-- Settles O15: the value is the `bitsVal` at the cursor, whose bits are stream bits. -/
theorem peekAndReadBits : Obligations.PeekAndReadBits := fun n s _ =>
  ⟨fun h => ⟨bitsVal (sbit s) s.bitpos n, peekBits_of_hasBits h, readBits_eq h, testBit_bitsVal (sbit s) s.bitpos n⟩,
    fun h => ⟨peekBits_of_not_hasBits h, readBits_of_not_hasBits h⟩⟩

/-- An aligned cursor is unmoved (R142). -/
theorem alignToByte_of_aligned {s : State} (h : s.bitpos % 8 = 0) : alignToByte s = s := by
  have hpos : 8 * ((s.bitpos + 7) / 8) = s.bitpos := by omega
  rw [alignToByte, hpos]
  rfl

/-- Settles O17: the new cursor is the ceiling of the old one, and the end of the input is itself a multiple of 8. -/
theorem alignToByte_isCeiling : Obligations.AlignToByte := fun s => by
  have hpos : (alignToByte s).bitpos = 8 * ((s.bitpos + 7) / 8) := alignToByte_bitpos s
  refine ⟨rfl, ?multiple, ?notBelow, ?lessThanEight, alignToByte_of_aligned, fun hin => ?withinInput⟩
  case multiple => rw [hpos]; exact Nat.mul_mod_right 8 _
  case notBelow | lessThanEight | withinInput => omega

end Sys2Proof.Machine

/-! The table builder `BUILD` (41_huffman_table_builder.md R162 to R166): the symbols of a bucket, the start codes, and `last`. -/

namespace Sys2Proof.Machine

/-! ### The symbols of a bucket -/

theorem tableOf_symbols (lens : List Nat) {len : Nat} (hpos : 1 ≤ len) (hlen : len ≤ 15) :
    (tableOf lens).symbols len = (lens.zipIdx.filter (fun p => p.1 == len)).map (fun p => BitVec.ofNat 16 p.2) := by
  have hbucket : (tableOf lens).symbols len = bucketSymbols lens len :=
    congrArg Bucket.symbols (tableOf_bucket lens (Nat.lt_succ_of_le hlen))
  rw [hbucket, bucketSymbols, if_neg (Nat.ne_of_gt hpos)]

/-- `count[len]` needs no bound on the array: only the symbols themselves could wrap at 16 bits (R162). -/
theorem tableOf_count (lens : List Nat) {len : Nat} (hpos : 1 ≤ len) (hlen : len ≤ 15) :
    (tableOf lens).count len = lens.count len :=
  calc (tableOf lens).count len
    _ = lens.zipIdx.countP ((· == len) ∘ Prod.fst) := by
        rw [DecodeTable.count, tableOf_symbols lens hpos hlen, List.length_map, List.countP_eq_length_filter]; rfl
    _ = (lens.zipIdx.map Prod.fst).countP (· == len) := List.countP_map.symm
    _ = lens.count len := by rw [List.zipIdx_map_fst]; rfl

/-- The symbols as numbers are the positions of `len` in the array: none of at most 288 wraps at 16 bits (R162). -/
theorem tableOf_symbols_toNat {lens : List Nat} (hn : lens.length ≤ maxSym) {len : Nat} (hpos : 1 ≤ len) (hlen : len ≤ 15) :
    ((tableOf lens).symbols len).map BitVec.toNat = (lens.zipIdx.filter (fun p => p.1 == len)).map Prod.snd := by
  rw [tableOf_symbols lens hpos hlen, List.map_map]
  refine List.map_congr_left fun p hp => (BitVec.toNat_ofNat p.2 16).trans (Nat.mod_eq_of_lt ?_)
  have hidx : p.2 < lens.length := List.snd_lt_of_mem_zipIdx (List.mem_of_mem_filter hp)
  simp only [maxSym] at hn
  omega

theorem mem_tableOf_symbols_toNat {lens : List Nat} (hn : lens.length ≤ maxSym) {len : Nat} (hpos : 1 ≤ len) (hlen : len ≤ 15)
    (sym : Nat) : sym ∈ ((tableOf lens).symbols len).map BitVec.toNat ↔ lens[sym]? = some len := by
  rw [tableOf_symbols_toNat hn hpos hlen]
  simp [List.mem_zipIdx_iff_getElem?]

/-- The symbols of a bucket are a sublist of `0 .. n-1` (R163). -/
theorem tableOf_symbols_ascending {lens : List Nat} (hn : lens.length ≤ maxSym) {len : Nat} (hpos : 1 ≤ len)
    (hlen : len ≤ 15) : (((tableOf lens).symbols len).map BitVec.toNat).Pairwise (fun a b => a < b) := by
  have hsub : ((lens.zipIdx.filter (fun p => p.1 == len)).map Prod.snd).Sublist (List.range' 0 lens.length) := by
    rw [← List.zipIdx_map_snd]
    exact List.filter_sublist.map Prod.snd
  rw [tableOf_symbols_toNat hn hpos hlen]
  exact (List.pairwise_lt_range' 1).sublist hsub

/-- Length 0 counts nothing (R162, R164). -/
theorem tableOf_bucket_zero (lens : List Nat) : (tableOf lens).bucket 0 = ⟨[], 0⟩ := by
  rw [tableOf_bucket lens (by decide), bucketSymbols, if_pos rfl, startCode, pad, Nat.zero_mul, Nat.zero_mod]
  rfl

/-- Distinct values take up no more of a list than its length. -/
theorem sum_map_count_le_length {values : List Nat} (hd : values.Nodup) (l : List Nat) :
    (values.map (fun a => l.count a)).sum ≤ l.length :=
  calc (values.map (fun a => l.count a)).sum
    _ = ∑ a ∈ values.toFinset, l.count a := (List.sum_toFinset _ hd).symm
    _ ≤ ∑ a ∈ l.toFinset, l.count a := Finset.sum_le_sum_of_ne_zero fun _ _ h =>
        List.mem_toFinset.2 (List.count_pos_iff.1 (Nat.pos_of_ne_zero h))
    _ = l.length := List.sum_toFinset_count_eq_length l

theorem sum_tableOf_count_le (lens : List Nat) :
    ((List.range' 1 15).map (fun len => (tableOf lens).count len)).sum ≤ lens.length := by
  have hcounts : (List.range' 1 15).map (fun len => (tableOf lens).count len) =
      (List.range' 1 15).map (fun len => lens.count len) :=
    List.map_congr_left fun len hlen => by
      rw [List.mem_range'_1] at hlen
      exact tableOf_count lens hlen.1 (by omega)
  rw [hcounts]
  exact sum_map_count_le_length List.nodup_range' lens

/-- Settles O21: the symbols of a bucket are the positions of its length in the array, in the order of the array. -/
theorem buildBuckets : Obligations.BuildBuckets := fun lens hn =>
  ⟨fun _ hpos hlen => ⟨mem_tableOf_symbols_toNat hn hpos hlen, tableOf_symbols_ascending hn hpos hlen,
    tableOf_count lens hpos hlen⟩, tableOf_bucket_zero lens, sum_tableOf_count_le lens⟩

/-! ### The start codes -/

/-- The recurrence, from length 1 on (R164). -/
theorem startCode_succ (lens : List Nat) {len : Nat} (hpos : 1 ≤ len) :
    startCode lens (len + 1) = (startCode lens len + lens.count len) * 2 := by
  obtain ⟨n, rfl⟩ := Nat.exists_eq_add_of_le' hpos
  rfl

/-- The closed sum of the recurrence: each step doubles the weight of every shorter length (R164). -/
theorem startCode_eq_sum (lens : List Nat) (n : Nat) :
    startCode lens (n + 1) = ((List.range' 1 n).map (fun l => lens.count l * 2 ^ (n + 1 - l))).sum := by
  induction n with
  | zero => rfl
  | succ n ih =>
    have hdouble : (List.range' 1 n).map (fun l => lens.count l * 2 ^ (n + 2 - l)) =
        (List.range' 1 n).map (fun l => lens.count l * 2 ^ (n + 1 - l) * 2) :=
      List.map_congr_left fun l hl => by
        rw [List.mem_range'_1] at hl
        rw [show n + 2 - l = n + 1 - l + 1 by omega, Nat.pow_succ, Nat.mul_assoc]
    have hlast : n + 2 - (1 + n) = 1 := by omega
    rw [startCode_succ lens (Nat.le_add_left 1 n), ih, List.range'_1_concat, List.map_append, List.sum_append, hdouble,
      List.sum_map_mul_right, Nat.add_mul, List.map_singleton, List.sum_singleton, hlast, Nat.add_comm 1 n, Nat.pow_one]

/-- The padded code is kept in 16 bits, which is where `pad` has reduced it (R165). -/
theorem tableOf_padded (lens : List Nat) {len : Nat} (hlen : len ≤ 15) :
    (tableOf lens).padded len = pad (startCode lens len) len := by
  rw [DecodeTable.padded, tableOf_bucket lens (Nat.lt_succ_of_le hlen)]
  exact (BitVec.toNat_ofNat _ 16).trans (Nat.mod_mod _ _)

/-- Settles O22, by induction on the code length for the closed sum. -/
theorem buildStartCodes : Obligations.BuildStartCodes := fun lens len hpos hlen => by
  refine ⟨?closedSum, startCode_succ lens hpos, tableOf_padded lens hlen⟩
  case closedSum =>
    obtain ⟨n, rfl⟩ := Nat.exists_eq_add_of_le' hpos
    exact startCode_eq_sum lens n

/-! ### The last populated length -/

/-- `last` of the lengths `1 .. n` alone: the walk of `DecodeTable.last` cut off after `n` (R166). -/
def DecodeTable.lastUpTo (T : DecodeTable) (n : Nat) : Nat :=
  (List.range' 1 n).foldl (fun acc len => if 0 < T.count len then len else acc) 0

theorem lastUpTo_fifteen (T : DecodeTable) : T.lastUpTo 15 = T.last := rfl

theorem lastUpTo_succ (T : DecodeTable) (n : Nat) :
    T.lastUpTo (n + 1) = if 0 < T.count (n + 1) then n + 1 else T.lastUpTo n := by
  rw [DecodeTable.lastUpTo, List.range'_1_concat, List.foldl_concat, Nat.add_comm 1 n]
  rfl

theorem lastUpTo_le (T : DecodeTable) (n : Nat) : T.lastUpTo n ≤ n := by
  induction n with
  | zero => exact Nat.le_refl 0
  | succ n ih =>
    rw [lastUpTo_succ]
    split
    · exact Nat.le_refl _
    · exact Nat.le_succ_of_le ih

theorem lastUpTo_populated (T : DecodeTable) (n : Nat) : T.lastUpTo n = 0 ∨ 0 < T.count (T.lastUpTo n) := by
  induction n with
  | zero => exact .inl rfl
  | succ n ih =>
    rw [lastUpTo_succ]
    split
    next hcount => exact .inr hcount
    next => exact ih

theorem count_eq_zero_of_lastUpTo_lt (T : DecodeTable) {n len : Nat} (hlast : T.lastUpTo n < len) (hlen : len ≤ n) :
    T.count len = 0 := by
  induction n with
  | zero => omega
  | succ n ih =>
    rw [lastUpTo_succ] at hlast
    split at hlast
    next => omega
    next hcount =>
      obtain rfl | hlt := Nat.eq_or_lt_of_le hlen
      · exact Nat.eq_zero_of_not_pos hcount
      · exact ih hlast (Nat.le_of_lt_succ hlt)

/-- Settles O23, by induction on the number of lengths walked. -/
theorem lastPopulated : Obligations.LastPopulated := fun T => by
  rw [← lastUpTo_fifteen]
  exact ⟨lastUpTo_le T 15, lastUpTo_populated T 15, fun _ => count_eq_zero_of_lastUpTo_lt T⟩

end Sys2Proof.Machine

/-! Appending to `OUT` (10_state.md R35, R41): one byte, and the loop of the stored copy, as relations between the state before and
the state after. -/

namespace Sys2Proof.Machine

theorem outRead_appendByte_same {s : State} (b : Byte) (h : Memory.wf s.outMem = true) :
    outRead (appendByte b s) s.outLen = b :=
  memRead_write_same s.outLen b h

theorem appended_appendByte {s : State} (b : Byte) (h : Memory.wf s.outMem = true) : Appended s (appendByte b s) [b] := by
  refine ⟨rfl, fun k hk => ?_, fun a ha => ?_⟩
  · obtain rfl : k = 0 := Nat.lt_one_iff.1 hk
    exact outRead_appendByte_same b h
  · rw [List.length_singleton] at ha
    exact memRead_write_other s.outMem s.outLen a b (by omega)

/-- The stored copy puts byte `a + k` of `IN` at byte `OUT_LEN + k` of `OUT` (43_block_processor.md R203). -/
theorem outRead_storedLoop {s : State} {n k : Nat} (a : Nat) (h : Memory.wf s.outMem = true) (hk : k < n) :
    outRead (storedLoop a n s) (s.outLen + k) = inRead s (a + k) := by
  induction n generalizing a k s with
  | zero => omega
  | succ n ih =>
    rw [storedLoop]
    cases k with
    | zero =>
      rw [outRead_storedLoop_of_lt (a + 1) n (Nat.lt_succ_self s.outLen)]
      exact outRead_appendByte_same (inRead s a) h
    | succ k =>
      have hnext := ih (s := appendByte (inRead s a) s) (a + 1) (wf_memWrite _ _ h) (Nat.lt_of_succ_lt_succ hk)
      rw [appendByte_outLen, Nat.add_right_comm, Nat.add_right_comm a] at hnext
      exact hnext

theorem appended_storedLoop {s : State} (a n : Nat) (h : Memory.wf s.outMem = true) :
    Appended s (storedLoop a n s) ((List.range n).map (fun k => inRead s (a + k))) := by
  have hlen : ((List.range n).map (fun k => inRead s (a + k))).length = n := by simp
  rw [Appended, hlen]
  refine ⟨storedLoop_outLen a n s, fun k hk => ?_, fun x hx => ?_⟩
  · rw [outRead_storedLoop a h hk]
    simp [hk]
  · exact hx.elim (outRead_storedLoop_of_lt a n) (outRead_storedLoop_of_ge a n)

end Sys2Proof.Machine

/-! From the answer of a row's meaning to the outcome of the row. -/

namespace Sys2Proof.Machine

theorem exec_of_ok {i : Instr} {s t : State} {r : Except ErrCode State} (hexec : exec i s = finish s r) (hr : r = .ok t) :
    exec i s = .next t := by
  rw [hexec, hr, finish]

theorem raises_of_error {i : Instr} {s : State} {e : ErrCode} {r : Except ErrCode State} (hexec : exec i s = finish s r)
    (hr : r = .error e) : Raises i s e := by
  rw [Raises, hexec, hr, finish]

end Sys2Proof.Machine

/-! The stored body (43_block_processor.md R203, 30_encoding.md R102). -/

namespace Sys2Proof.Machine

/-- The address of the first data byte of a stored body whose header ends at the cursor: the four bytes of LEN and NLEN begin at
the next byte boundary. -/
def storedData (s : State) : Nat := (s.bitpos + 7) / 8 + 4

/-- LEN of that stored body. -/
def storedLen (s : State) : Nat := field s (8 * ((s.bitpos + 7) / 8)) 16

/-- The stored body by the two bounds checks: the reads of LEN and NLEN fail only where the data do not fit in `IN` either. -/
theorem storedBody_eq (s : State) :
    storedBody s =
      if s.inSize < storedData s + storedLen s then .error .truncatedStream
      else if exceedsCap s (storedLen s) = true then .error .outputCapacityExceeded
      else .ok (setBitpos (8 * (storedData s + storedLen s))
        (storedLoop (storedData s) (storedLen s) (setBitpos (8 * storedData s) s))) := by
  have hdata : 8 * storedData s = (alignToByte s).bitpos + 16 + 16 := by
    rw [storedData, alignToByte_bitpos]; omega
  rw [storedBody]
  by_cases h1 : (alignToByte s).bitpos + 16 ≤ 8 * s.inSize
  case neg => rw [readBits_of_not_hasBits (s := alignToByte s) h1, error_bind, if_pos (by omega)]
  rw [readBits_eq (s := alignToByte s) h1, ok_bind]
  dsimp only
  by_cases h2 : (alignToByte s).bitpos + 16 + 16 ≤ 8 * s.inSize
  case neg =>
    rw [readBits_of_not_hasBits (s := setBitpos ((alignToByte s).bitpos + 16) (alignToByte s)) h2, error_bind,
      if_pos (by omega)]
  rw [readBits_eq (s := setBitpos ((alignToByte s).bitpos + 16) (alignToByte s)) h2, ok_bind]
  simp only [setBitpos_bitpos, setBitpos_inSize, ← hdata, Nat.mul_div_cancel_left _ (by decide : 0 < 8), ← Nat.mul_add]
  rfl

/-- The state after a stored body of `n` bytes whose data begin at address `a` of `IN`. -/
def afterStored (s : State) (a n : Nat) : State :=
  blockEnd (setBitpos (8 * (a + n)) (storedLoop a n (setBitpos (8 * a) s)))

theorem afterStored_eq (s : State) (a n : Nat) :
    afterStored s a n = { s with
      bitpos := 8 * (a + n), outLen := s.outLen + n, outMem := (afterStored s a n).outMem,
      mode := if s.bfinal = true then .done else .readBlockHeader } := by
  rw [afterStored, storedLoop_eq]
  rfl

theorem appended_afterStored {s : State} (a n : Nat) (h : Memory.wf s.outMem = true) :
    Appended s (afterStored s a n) ((List.range n).map (fun k => inRead s (a + k))) :=
  appended_storedLoop (s := setBitpos (8 * a) s) a n h

/-- The outcome of STORED_BODY, by the two bounds checks. -/
theorem exec_storedBody (s : State) :
    exec .storedBody s = finish s
      (if s.inSize < storedData s + storedLen s then .error .truncatedStream
       else if exceedsCap s (storedLen s) = true then .error .outputCapacityExceeded
       else .ok (afterStored s (storedData s) (storedLen s))) := by
  have hexec : exec .storedBody s = finish s (storedBody s >>= fun s1 => pure (blockEnd s1)) := rfl
  rw [hexec, storedBody_eq]
  split_ifs <;> rfl

/-- Settles O31: `exec_storedBody` has one branch per clause, in the order of the checks. -/
theorem storedBodyStep : Obligations.StoredBodyStep := fun s => by
  refine ⟨fun hmem hin hroom => ?copied, fun hin => ?truncated, fun hin hcap => ?full⟩
  case copied =>
    obtain ⟨-, -, hwf, -⟩ := hmem
    refine ⟨_, exec_of_ok (exec_storedBody s) ?_, afterStored_eq s _ _, appended_afterStored _ _ hwf⟩
    exact (if_neg (Nat.not_lt.2 hin)).trans (if_neg (ne_true_of_eq_false hroom))
  case truncated => exact raises_of_error (exec_storedBody s) (if_pos hin)
  case full => exact raises_of_error (exec_storedBody s) ((if_neg (Nat.not_lt.2 hin)).trans (if_pos hcap))

end Sys2Proof.Machine

/-! The symbols that are no match: literals, the end of a block, and the length symbols that are none (43_block_processor.md R207,
R208, R210). -/

namespace Sys2Proof.Machine

/-- A row that means a literal yields its byte (R207). -/
theorem yields_of_literal {i : Instr} {s : State} {b : Byte} {len : Nat} (hexec : exec i s = finish s (literal b len s))
    (hwf : Memory.wf s.outMem = true) (hroom : HasRoom s 1) (hbits : HasBits s len) : Yields i s len [b] :=
  ⟨_, exec_of_ok hexec (literal_ok.2 ⟨hbits, hroom, rfl⟩), rfl,
    appended_appendByte (s := setBitpos (s.bitpos + len) s) b hwf⟩

/-- Settles O33: every literal row means a `literal`; LIT_0_15 adds its field to 0. -/
theorem literalRows : Obligations.LiteralRows := by
  intro s ⟨_, _, hwf, _⟩ hroom
  refine ⟨fun h8 => ⟨fun x => ?first, fun _ => ?_, fun _ => ?_⟩, fun h9 => ⟨fun _ => ?_, fun _ => ?_, fun _ => ?_⟩,
    fun b len hlen => yields_of_literal rfl hwf hroom hlen⟩
  case first =>
    rw [← Nat.zero_add x.toNat]
    exact yields_of_literal rfl hwf hroom h8
  all_goals exact yields_of_literal rfl hwf hroom ‹_›

/-- A row that means an end-of-block symbol ends the block (R208). -/
theorem endsBlock_of_endOfBlock {i : Instr} {s : State} {len : Nat} (hexec : exec i s = finish s (endOfBlock len s))
    (hbits : HasBits s len) : EndsBlock i s len :=
  exec_of_ok hexec (endOfBlock_ok.2 ⟨hbits, rfl⟩)

/-- Settles O35: both rows mean `endOfBlock`. -/
theorem endOfBlockRows : Obligations.EndOfBlockRows := fun _ _ =>
  ⟨endsBlock_of_endOfBlock rfl, endsBlock_of_endOfBlock rfl⟩

theorem badLength_of_hasBits {s : State} {len : Nat} (hbits : HasBits s len) : badLength len s = .error .invalidLengthCode := by
  rw [badLength, consume_eq hbits, ok_bind]

/-- A row that means a length symbol of 286 or more raises once its code is consumed (R210). -/
theorem raises_of_badLength {i : Instr} {s : State} {len : Nat} (hexec : exec i s = finish s (badLength len s))
    (hbits : HasBits s len) : Raises i s .invalidLengthCode :=
  raises_of_error hexec (badLength_of_hasBits hbits)

/-- No row of LLSYM has a symbol above 287 (30_encoding.md R126). -/
theorem llsymInstr_of_gt {sym : Nat} (len : Nat) (h : 287 < sym) : llsymInstr sym len = none := by
  have hk : lengthSymRows.length ≤ sym - 257 := by change 31 ≤ sym - 257; omega
  rw [llsymInstr, if_neg (by omega), if_neg (by omega), List.getElem?_eq_none hk]
  rfl

/-- A decoded symbol that is no row of LLSYM raises what its rejection says (R210, log entry 11). -/
theorem step_dynamic_noRow {s : State} {sym len : Nat} (hm : s.mode = .dynamicHuffman) (hv : s.dynValid = true)
    (hb : HasBits s 16) (hw : decodeWindow s.tblLl (windowAt s s.bitpos) = .ok (sym, len)) (hrow : llsymInstr sym len = none) :
    step s = .next (raise s .invalidLengthCode) := by
  apply step_of_fetch_error
  simp only [fetch, hm, hv, if_true, fetchDynamic, decodeSym_of_hasBits hb, hw, ok_bind, decode, hrow, orReject, orRaise,
    rejectError]

/-- Settles O36: a decoded symbol of 286 or more is LL_286, LL_287, or no row. -/
theorem invalidLengthSymbols : Obligations.InvalidLengthSymbols := by
  intro s sym len
  refine ⟨fun h8 => ⟨raises_of_badLength rfl h8, raises_of_badLength rfl h8⟩,
    fun hlen => ⟨raises_of_badLength rfl hlen, raises_of_badLength rfl hlen⟩, fun hm hv hb hw hsym => ?step⟩
  case step =>
    obtain ⟨-, h15⟩ := decodeWindow_len hw
    have hlen : HasBits s len := by omega
    obtain rfl | rfl | hgt : sym = 286 ∨ sym = 287 ∨ 287 < sym := by omega
    · exact (step_dynamic (x := Latches.idle) (i := .ll286Sym len) hm hv hb hw rfl).trans (raises_of_badLength rfl hlen)
    · exact (step_dynamic (x := Latches.idle) (i := .ll287Sym len) hm hv hb hw rfl).trans (raises_of_badLength rfl hlen)
    · exact step_dynamic_noRow hm hv hb hw (llsymInstr_of_gt len hgt)

end Sys2Proof.Machine

/-! The four block headers (43_block_processor.md R201, R205, R206). -/

namespace Sys2Proof.Machine

theorem headerRead_of_not_hasBits {f : Bool} {s : State} (h : ¬ HasBits s 3) : headerRead f s = .error .truncatedStream := by
  rw [headerRead, consume_error.2 ⟨Nat.lt_of_not_le h, rfl⟩, error_bind]

/-- Two reads of 1 and 2 bits pass the end of the input where one of 3 bits does (R201). -/
theorem fetchHeader_of_not_hasBits {s : State} (h : ¬ HasBits s 3) : fetchHeader s = .error .truncatedStream := by
  rw [fetchHeader]
  by_cases h1 : HasBits s 1
  · have h2 : ¬ HasBits (setBitpos (s.bitpos + 1) s) 2 := h
    rw [readBits_eq h1, ok_bind]
    dsimp only
    rw [readBits_of_not_hasBits h2, error_bind]
  · rw [readBits_of_not_hasBits h1, error_bind]

theorem step_of_truncated_header {s : State} (hm : s.mode = .readBlockHeader) (h : ¬ HasBits s 3) :
    step s = .next (raise s .truncatedStream) := by
  apply step_of_fetch_error
  rw [fetch, hm]
  dsimp only
  rw [fetchHeader_of_not_hasBits h]

/-- A header that cannot be read raises, whatever its BTYPE (R201). -/
theorem raises_of_truncated_header {i : Instr} {f : Bool} {s : State} {rest : State → Except ErrCode State}
    (hexec : exec i s = finish s (headerRead f s >>= rest)) (h : ¬ HasBits s 3) : Raises i s .truncatedStream :=
  raises_of_error hexec (by rw [headerRead_of_not_hasBits h, error_bind])

/-- A header that can be read goes on with what its BTYPE decides (R201). -/
theorem exec_of_header {i : Instr} {f : Bool} {s : State} {rest : State → Except ErrCode State}
    (hexec : exec i s = finish s (headerRead f s >>= rest)) (h : HasBits s 3) :
    exec i s = finish s (rest (setBfinal f (setBitpos (s.bitpos + 3) s))) := by
  rw [hexec, headerRead_eq h, ok_bind]

/-- Entering a fixed-Huffman block leaves `TBL.FIXLL` valid: as it was, or built (R201, R217). -/
theorem enterFixed_fields (s : State) :
    enterFixed s = .ok { s with
      mode := .fixedHuffman, fixedValid := true, tblFixll := if s.fixedValid = true then s.tblFixll else fixedTable } := by
  rw [enterFixed_eq]
  cases hv : s.fixedValid with
  | false => rfl
  | true =>
    simp only [if_true]
    rw [← hv]
    rfl

theorem enterDynamic_error {s : State} (h : s.cfg.dynSupport = false) : enterDynamic s = .error .unsupportedDynamicHuffman := by
  rw [enterDynamic, h, if_neg Bool.false_ne_true]

/-- Settles O30: with its three bits left a header does what its BTYPE decides; with fewer it reads nothing. -/
theorem headerRows : Obligations.HeaderRows := by
  intro f s
  refine ⟨fun hb => ⟨?stored, ?fixed, fun hd => ?dynamic, fun hd => ?unsupported, ?reserved⟩, fun hb => ⟨?_, ?_, ?_, ?_, ?step⟩⟩
  case stored => exact exec_of_ok (exec_of_header rfl hb) rfl
  case fixed => exact exec_of_ok (exec_of_header rfl hb) (enterFixed_fields _)
  case dynamic => exact exec_of_ok (exec_of_header rfl hb) (enterDynamic_ok.2 ⟨hd, rfl⟩)
  case unsupported => exact raises_of_error (exec_of_header rfl hb) (enterDynamic_error hd)
  case reserved => exact raises_of_error (exec_of_header rfl hb) rfl
  case step => exact fun hm => step_of_truncated_header hm hb
  all_goals exact raises_of_truncated_header rfl hb

end Sys2Proof.Machine

/-! The fixed fields of a dynamic header (45_dynamic_block.md R262, 30_encoding.md R117). -/

namespace Sys2Proof.Machine

/-- With all their bits in the input, the 3-bit lengths of `order` are assigned in that order, each to its own symbol; every other
entry stays (R262). -/
theorem readClLengths_of_hasBits {order cl : List Nat} {s : State} (hnodup : order.Nodup) (hin : ∀ sym ∈ order, sym < cl.length)
    (hb : HasBits s (3 * order.length)) :
    ∃ cl', readClLengths order cl s = .ok (cl', setBitpos (s.bitpos + 3 * order.length) s) ∧
      (∀ i, i < order.length → cl'.getD (order.getD i 0) 0 = field s (s.bitpos + 3 * i) 3) ∧
      ∀ sym, sym ∉ order → cl'.getD sym 0 = cl.getD sym 0 := by
  induction order generalizing cl s with
  | nil => exact ⟨cl, rfl, fun i hi => absurd hi i.not_lt_zero, fun _ _ => rfl⟩
  | cons sym order ih =>
    obtain ⟨hfresh, hnodup⟩ := List.nodup_cons.1 hnodup
    rw [List.length_cons] at hb
    have hb1 : HasBits s 3 := by omega
    have hb2 : HasBits (setBitpos (s.bitpos + 3) s) (3 * order.length) := by
      rw [HasBits, setBitpos_bitpos, setBitpos_inSize]; omega
    have hin2 : ∀ y ∈ order, y < (cl.set sym (field s s.bitpos 3)).length := fun y hy => by
      rw [List.length_set]; exact hin y (List.mem_cons_of_mem sym hy)
    obtain ⟨cl', hread, hval, hkeep⟩ := ih hnodup hin2 hb2
    refine ⟨cl', ?read, fun i hi => ?value, fun y hy => ?keep⟩
    case read =>
      rw [readClLengths, readBits_eq hb1, ok_bind]
      refine hread.trans ?_
      rw [setBitpos_setBitpos, setBitpos_bitpos, List.length_cons, Nat.mul_succ, Nat.add_assoc, Nat.add_comm 3]
    case value =>
      cases i with
      | zero =>
        rw [List.getD_cons_zero, hkeep sym hfresh, List.getD_eq_getElem?_getD,
          List.getElem?_set_self (hin sym List.mem_cons_self), Option.getD_some, Nat.mul_zero, Nat.add_zero]
      | succ i =>
        rw [List.getD_cons_succ, hval i (Nat.lt_of_succ_lt_succ hi), setBitpos_bitpos, Nat.mul_succ, Nat.add_assoc,
          Nat.add_comm 3, field, sbit_setBitpos, field]
    case keep =>
      obtain ⟨hne, hnot⟩ := not_or.1 (mt List.mem_cons.2 hy)
      rw [hkeep y hnot, List.getD_eq_getElem?_getD, List.getElem?_set_ne (Ne.symm hne), List.getD_eq_getElem?_getD]

/-- With the cursor inside the input and some of their bits beyond its end, the 3-bit lengths cannot be read. -/
theorem readClLengths_of_not_hasBits {order : List Nat} (cl : List Nat) {s : State} (hcur : HasBits s 0)
    (hb : ¬ HasBits s (3 * order.length)) : readClLengths order cl s = .error .truncatedStream := by
  induction order generalizing cl s with
  | nil => exact absurd hcur hb
  | cons sym order ih =>
    rw [readClLengths]
    by_cases h1 : HasBits s 3
    case neg => rw [readBits_of_not_hasBits h1, error_bind]
    rw [readBits_eq h1, ok_bind]
    refine ih _ h1 ?_
    rw [List.length_cons] at hb
    rw [HasBits, setBitpos_bitpos, setBitpos_inSize]
    omega

/-- `HCLEN + 4`, the number of 3-bit lengths in a dynamic header at the cursor (R262). -/
def clLengthCount (s : State) : Nat := field s (s.bitpos + 10) 4 + 4

theorem clLengthCount_le (s : State) : clLengthCount s ≤ 19 := by
  have hclen : field s (s.bitpos + 10) 4 < 2 ^ 4 := bitsVal_lt _ _ _
  rw [clLengthCount]
  omega

/-- The symbols a dynamic header at the cursor has a length for, in stream order (R262). -/
def clOrderRead (s : State) : List Nat := romClOrder.take (clLengthCount s)

theorem clOrderRead_length (s : State) : (clOrderRead s).length = clLengthCount s := by
  rw [clOrderRead, List.length_take]
  exact Nat.min_eq_left (clLengthCount_le s)

theorem romClOrder_nodup : romClOrder.Nodup := by decide

theorem clOrderRead_nodup (s : State) : (clOrderRead s).Nodup :=
  romClOrder_nodup.sublist (List.take_sublist _ _)

theorem clOrderRead_lt (s : State) : ∀ sym ∈ clOrderRead s, sym < 19 := fun sym hsym =>
  (by decide : ∀ sym ∈ romClOrder, sym < 19) sym (List.mem_of_mem_take hsym)

theorem clOrderRead_getD {s : State} {i : Nat} (hi : i < clLengthCount s) : (clOrderRead s).getD i 0 = romClOrder.getD i 0 := by
  rw [clOrderRead, List.getD_eq_getElem?_getD, List.getElem?_take_of_lt hi, List.getD_eq_getElem?_getD]

/-- The symbols after the first `HCLEN + 4` of `ROM.CL_ORDER` are not reached. -/
theorem romClOrder_getD_not_mem_clOrderRead {s : State} {i : Nat} (hi : clLengthCount s ≤ i) (h19 : i < 19) :
    romClOrder.getD i 0 ∉ clOrderRead s := by
  have hlt : i < romClOrder.length := h19
  have hdrop : romClOrder.getD i 0 ∈ romClOrder.drop i := by
    rw [List.getD_eq_getElem _ _ hlt, List.drop_eq_getElem_cons hlt]
    exact List.mem_cons_self
  exact fun htake => List.disjoint_take_drop romClOrder_nodup hi htake hdrop

/-- A header whose HLIT, HDIST and HCLEN are in the input goes on with the lengths of `clOrderRead`. -/
theorem readDynFields_of_hasBits {s : State} (h : HasBits s 14) :
    readDynFields s = readClLengths (clOrderRead s) (List.replicate 19 0) (setBitpos (s.bitpos + 14) s) >>= fun r =>
      .ok (field s s.bitpos 5 + 257, field s (s.bitpos + 5) 5 + 1, r.1, r.2) := by
  have h1 : HasBits s 5 := by omega
  have h2 : HasBits (setBitpos (s.bitpos + 5) s) 5 := by rw [HasBits, setBitpos_bitpos, setBitpos_inSize]; omega
  have h3 : HasBits (setBitpos (s.bitpos + 10) s) 4 := h
  rw [readDynFields, readBits_eq h1, ok_bind]
  dsimp only
  rw [readBits_eq h2, ok_bind]
  dsimp only
  rw [setBitpos_setBitpos, setBitpos_bitpos, Nat.add_assoc, readBits_eq h3, ok_bind]
  rfl

/-- A header whose HLIT, HDIST and HCLEN are not all in the input is truncated. -/
theorem readDynFields_of_not_hasBits {s : State} (h : ¬ HasBits s 14) : readDynFields s = .error .truncatedStream := by
  rw [readDynFields]
  by_cases h1 : HasBits s 5
  case neg => rw [readBits_of_not_hasBits h1, error_bind]
  rw [readBits_eq h1, ok_bind]
  dsimp only
  by_cases h2 : HasBits (setBitpos (s.bitpos + 5) s) 5
  case neg => rw [readBits_of_not_hasBits h2, error_bind]
  rw [readBits_eq h2, ok_bind]
  dsimp only
  have h3 : ¬ HasBits (setBitpos (s.bitpos + 10) s) 4 := h
  rw [setBitpos_setBitpos, setBitpos_bitpos, Nat.add_assoc, readBits_of_not_hasBits h3, error_bind]

/-- A header with a bit of its `14 + 3 * (HCLEN + 4)` beyond the end of the input is truncated. -/
theorem readDynFields_truncated {s : State} (h : ¬ HasBits s (14 + 3 * clLengthCount s)) :
    readDynFields s = .error .truncatedStream := by
  by_cases h14 : HasBits s 14
  case neg => exact readDynFields_of_not_hasBits h14
  have hlens : ¬ HasBits (setBitpos (s.bitpos + 14) s) (3 * (clOrderRead s).length) := by
    rw [clOrderRead_length, HasBits, setBitpos_bitpos, setBitpos_inSize]; omega
  rw [readDynFields_of_hasBits h14, readClLengths_of_not_hasBits _ h14 hlens, error_bind]

/-- Settles O42: the lengths are read in `clOrderRead`, the first `HCLEN + 4` symbols of `ROM.CL_ORDER`, over 19 zeros. -/
theorem dynHeaderFields : Obligations.DynHeaderFields := by
  intro s
  refine ⟨fun hb => ?read, fun hb => ⟨readDynFields_truncated hb, ?raises⟩⟩
  case read =>
    have hb : HasBits s (14 + 3 * clLengthCount s) := hb
    have h14 : HasBits s 14 := by omega
    have hlens : HasBits (setBitpos (s.bitpos + 14) s) (3 * (clOrderRead s).length) := by
      rw [clOrderRead_length, HasBits, setBitpos_bitpos, setBitpos_inSize]; omega
    have hin : ∀ sym ∈ clOrderRead s, sym < (List.replicate 19 0).length := clOrderRead_lt s
    obtain ⟨cl, hread, hval, hkeep⟩ := readClLengths_of_hasBits (clOrderRead_nodup s) hin hlens
    have hfields := readDynFields_of_hasBits h14
    rw [hread, ok_bind, clOrderRead_length] at hfields
    obtain ⟨-, -, -, -, -, -, hlen, -⟩ := readDynFields_ok hfields
    refine ⟨cl, hfields, hlen, fun i hi => ?reached, fun i hi h19 => ?unreached⟩
    case reached =>
      rw [← clOrderRead_getD hi]
      exact hval i ((clOrderRead_length s).symm ▸ hi)
    case unreached =>
      rw [hkeep _ (romClOrder_getD_not_mem_clOrderRead hi h19), List.getD_eq_getElem?_getD]
      exact List.getElem?_getD_replicate_default_eq 0 19 _
  case raises => exact raises_of_error rfl (bind_error.2 (.inl (readDynFields_truncated hb)))

end Sys2Proof.Machine

/-! Error entry of a step (60_exceptions.md R330): what a step keeps when it raises nothing, read off the list of its causes
(`StepDoes`). -/

namespace Sys2Proof.Machine

/-- `t` is not in `Error`, and what error entry changes is kept since `s`: `ERR`, the length of the output from below, and the
number of free values drawn (60_exceptions.md R330, log entry 8). -/
def KeepsUnraised (s t : State) : Prop :=
  t.mode ≠ .error ∧ t.err = s.err ∧ s.outLen ≤ t.outLen ∧ t.freeCount = s.freeCount

/-- A raise is an error entry: all that differs is what R330 names. -/
theorem entersError_raise (s : State) (e : ErrCode) : EntersError s (raise s e) e := rfl

theorem blockEnd_mode_ne_error (s : State) : (blockEnd s).mode ≠ .error := by
  rw [blockEnd_mode]
  split <;> decide

theorem KeepsUnraised.refl {s : State} (h : s.mode ≠ .error) : KeepsUnraised s s := ⟨h, rfl, Nat.le_refl _, rfl⟩

/-- Reading bits of the input raises nothing. -/
theorem KeepsUnraised.of_advanced {s t : State} (h : s.mode ≠ .error) (ha : Advanced s t) : KeepsUnraised s t := by
  obtain ⟨ht, -, -⟩ := ha
  rw [ht]
  exact .refl h

theorem KeepsUnraised.setMode {s t : State} {m : Mode} (h : KeepsUnraised s t) (hm : m ≠ .error) :
    KeepsUnraised s (setMode m t) := by
  obtain ⟨-, hkeep⟩ := h
  exact ⟨hm, hkeep⟩

theorem KeepsUnraised.blockEnd {s t : State} (h : KeepsUnraised s t) : KeepsUnraised s (blockEnd t) := by
  obtain ⟨-, hkeep⟩ := h
  exact ⟨blockEnd_mode_ne_error t, hkeep⟩

theorem KeepsUnraised.appendByte {s t : State} (b : Byte) (h : KeepsUnraised s t) : KeepsUnraised s (appendByte b t) := by
  obtain ⟨hm, herr, hlen, hfree⟩ := h
  exact ⟨hm, herr, Nat.le_succ_of_le hlen, hfree⟩

theorem KeepsUnraised.copyLoop {s t : State} (d n : Nat) (h : KeepsUnraised s t) : KeepsUnraised s (copyLoop d n t) := by
  obtain ⟨hm, herr, hlen, hfree⟩ := h
  rw [copyLoop_eq]
  exact ⟨hm, herr, Nat.le_add_right_of_le hlen, hfree⟩

theorem KeepsUnraised.storedLoop {s t : State} (a n : Nat) (h : KeepsUnraised s t) : KeepsUnraised s (storedLoop a n t) := by
  obtain ⟨hm, herr, hlen, hfree⟩ := h
  rw [storedLoop_eq]
  exact ⟨hm, herr, Nat.le_add_right_of_le hlen, hfree⟩

/-- Every next state is error entry or keeps what error entry changes. Moving the cursor, latching `BFINAL` and writing a table or
a valid flag touch nothing that `KeepsUnraised` speaks of, so what it says of a state it says of the state so written. -/
theorem raise_or_keepsUnraised {s t : State} (hs : s.mode ≠ .error) (h : StepDoes s t) :
    (∃ e, t = raise s e) ∨ KeepsUnraised s t := by
  have hself : KeepsUnraised s s := .refl hs
  cases h with
  | raised e => exact .inl ⟨e, rfl⟩
  | halted => exact .inr hself
  | headerStored => exact .inr (.setMode (t := afterHeader s) hself (by decide))
  | headerFixed =>
    have hbuilt : KeepsUnraised s (if s.fixedValid = true then afterHeader s else setFixll fixedTable (afterHeader s)) := by
      split <;> exact hself
    exact .inr (hbuilt.setMode (by decide))
  | headerDynamic => exact .inr (.setMode (t := setDynValid false (afterHeader s)) hself (by decide))
  | storedBody u a n hm hu =>
    have hcopied : KeepsUnraised s (storedLoop a n u) := (KeepsUnraised.of_advanced hs hu).storedLoop a n
    exact .inr (.blockEnd (t := setBitpos (u.bitpos + 8 * n) _) hcopied)
  | literal b len => exact .inr (.appendByte (t := setBitpos (s.bitpos + len) s) b hself)
  | endOfBlock len => exact .inr (.blockEnd (t := setBitpos (s.bitpos + len) s) hself)
  | copied u len length distance hm hl hml hu => exact .inr ((KeepsUnraised.of_advanced hs hu).copyLoop distance length)
  | dynHeader u cl L D hm hv hu =>
    have hread : KeepsUnraised s u := .of_advanced hs hu
    exact .inr hread

/-- Settles O48: a step raises from the state before it, or it keeps what error entry changes and is not in `Error`. -/
theorem stepErrorEntry : Obligations.StepErrorEntry := fun s t hs h => by
  rcases raise_or_keepsUnraised hs (step_does h) with ⟨e, rfl⟩ | ⟨hm, hkeep⟩
  · exact ⟨fun _ => ⟨e, entersError_raise s e⟩, fun herr => absurd (raise_mode s e) herr⟩
  · exact ⟨fun herr => absurd herr hm, fun _ => hkeep⟩

end Sys2Proof.Machine

/-! `DECODE` is the decoder of the canonical code (42_huffman_decoder.md R186): the windows that begin with a code of one length
are an interval, and the intervals of the lengths 1, 2, .. stand one after another. -/

namespace Sys2Proof.Machine

/-! ### The windows of a code length -/

/-- The start code of a length, left-justified in 16 bits but not cut off: the first window of that length. -/
def windowStart (lens : List Nat) (len : Nat) : Nat := startCode lens len * 2 ^ (16 - len)

theorem windowStart_one (lens : List Nat) : windowStart lens 1 = 0 := Nat.zero_mul _

/-- Each code of length `len` has `2 ^ (16 - len)` windows. -/
theorem windowStart_succ (lens : List Nat) {len : Nat} (hpos : 1 ≤ len) (hlen : len ≤ 15) :
    windowStart lens (len + 1) = windowStart lens len + lens.count len * 2 ^ (16 - len) := by
  have hpow : 2 ^ (16 - len) = 2 * 2 ^ (16 - (len + 1)) := by rw [← Nat.pow_succ']; congr 1; omega
  rw [windowStart, windowStart, startCode_succ lens hpos, hpow]
  ring

theorem windowStart_mono (lens : List Nat) {a b : Nat} (ha : 1 ≤ a) (hab : a ≤ b) (hb : b ≤ 16) :
    windowStart lens a ≤ windowStart lens b := by
  induction b, hab using Nat.le_induction with
  | base => exact Nat.le_refl _
  | succ b hab ih =>
    rw [windowStart_succ lens (Nat.le_trans ha hab) (Nat.le_of_succ_le_succ hb)]
    exact Nat.le_add_right_of_le (ih (Nat.le_of_succ_le hb))

/-- What one code length below 16 adds to the end of the last interval. -/
theorem sum_windows_of_length : ∀ a < 16,
    ((List.range' 1 15).map (fun l => (if a = l then 1 else 0) * 2 ^ (16 - l))).sum =
      2 * if 0 < a then 2 ^ (15 - a) else 0 := by decide

theorem kraft_cons (a : Nat) (lens : List Nat) :
    kraft (a :: lens) = (if 0 < a then 2 ^ (15 - a) else 0) + kraft lens := by
  unfold kraft
  by_cases ha : 0 < a <;> simp [ha]

/-- The intervals end at twice the Kraft sum. -/
theorem windowStart_sixteen {lens : List Nat} (h : ∀ l ∈ lens, l < 16) : windowStart lens 16 = 2 * kraft lens := by
  have hsum (lens : List Nat) :
      windowStart lens 16 = ((List.range' 1 15).map (fun l => lens.count l * 2 ^ (16 - l))).sum :=
    (Nat.mul_one _).trans (startCode_eq_sum lens 15)
  induction lens with
  | nil => rfl
  | cons a lens ih =>
    obtain ⟨ha, hlens⟩ := List.forall_mem_cons.1 h
    have hcount : (List.range' 1 15).map (fun l => (a :: lens).count l * 2 ^ (16 - l)) =
        (List.range' 1 15).map (fun l => (if a = l then 1 else 0) * 2 ^ (16 - l) + lens.count l * 2 ^ (16 - l)) := by
      refine List.map_congr_left fun l _ => ?_
      rw [List.count_cons, ← Nat.add_mul, Nat.add_comm]
      simp only [beq_iff_eq]
    rw [hsum, hcount, List.sum_map_add, sum_windows_of_length a ha, ← hsum, ih hlens, kraft_cons, Nat.mul_add]

/-- A window begins with a code of length `len` exactly when it is in the interval of `len`. -/
theorem exists_code_iff (lens : List Nat) (w : Nat) {len : Nat} (hpos : 1 ≤ len) (hlen : len ≤ 15) :
    (∃ idx < lens.count len, unpad w len = startCode lens len + idx) ↔
      windowStart lens len ≤ w ∧ w < windowStart lens (len + 1) := by
  have hk : 0 < 2 ^ (16 - len) := Nat.two_pow_pos _
  rw [windowStart_succ lens hpos hlen, windowStart, ← Nat.add_mul, ← Nat.le_div_iff_mul_le hk, ← Nat.div_lt_iff_lt_mul hk,
    ← unpad]
  constructor
  · rintro ⟨idx, hidx, hcode⟩
    omega
  · rintro ⟨hlo, hhi⟩
    exact ⟨unpad w len - startCode lens len, by omega, by omega⟩

/-! ### What `DECODE` selects -/

section
variable {lens : List Nat} (h16 : ∀ l ∈ lens, l < 16) (hkraft : kraft lens ≤ 2 ^ 15)
include h16 hkraft

/-- Up to a length in use the first window is a 16-bit number: only after the last code of a complete code it is not. -/
theorem windowStart_lt {len m : Nat} (hpos : 1 ≤ len) (hm : len ≤ m) (hm15 : m ≤ 15) (hcount : 0 < lens.count m) :
    windowStart lens len < 2 ^ 16 :=
  calc windowStart lens len
    _ ≤ windowStart lens m := windowStart_mono lens hpos hm (by omega)
    _ < windowStart lens (m + 1) := by
      rw [windowStart_succ lens (Nat.le_trans hpos hm) hm15]
      exact Nat.lt_add_of_pos_right (Nat.mul_pos hcount (Nat.two_pow_pos _))
    _ ≤ windowStart lens 16 := windowStart_mono lens (by omega) (by omega) (Nat.le_refl _)
    _ ≤ 2 ^ 16 := by rw [windowStart_sixteen h16]; omega

theorem padded_eq_windowStart {len m : Nat} (hpos : 1 ≤ len) (hm : len ≤ m) (hm15 : m ≤ 15) (hcount : 0 < lens.count m) :
    (tableOf lens).padded len = windowStart lens len := by
  rw [tableOf_padded lens (Nat.le_trans hm hm15), pad]
  exact Nat.mod_eq_of_lt (windowStart_lt h16 hkraft hpos hm hm15 hcount)

theorem unpad_padded {len : Nat} (hpos : 1 ≤ len) (hlen : len ≤ 15) (hcount : 0 < lens.count len) :
    unpad ((tableOf lens).padded len) len = startCode lens len := by
  rw [padded_eq_windowStart h16 hkraft hpos (Nat.le_refl _) hlen hcount]
  exact Nat.mul_div_cancel _ (Nat.two_pow_pos _)

/-- `DECODE` selects the length in whose interval the window is (R183). -/
theorem selectLen_of_interval {w len : Nat} (hpos : 1 ≤ len) (hlen : len ≤ 15) (hlo : windowStart lens len ≤ w)
    (hhi : w < windowStart lens (len + 1)) : selectLen (tableOf lens) w = some len := by
  have hcount : 0 < lens.count len := by
    refine Nat.pos_of_ne_zero fun h0 => ?_
    rw [windowStart_succ lens hpos hlen, h0, Nat.zero_mul] at hhi
    omega
  obtain ⟨hlast15, hlastPos, hafter⟩ := lastPopulated (tableOf lens)
  have hlast : len ≤ (tableOf lens).last := by
    refine Nat.le_of_not_lt fun hlt => ?_
    rw [← tableOf_count lens hpos hlen, hafter len hlt hlen] at hcount
    exact Nat.lt_irrefl _ hcount
  have hlastCount : 0 < lens.count (tableOf lens).last := by
    rw [← tableOf_count lens (by omega) hlast15]
    exact hlastPos.resolve_left (by omega)
  have hpadded {l : Nat} (h1 : 1 ≤ l) (hl : l ≤ (tableOf lens).last) : (tableOf lens).padded l = windowStart lens l :=
    padded_eq_windowStart h16 hkraft h1 hl hlast15 hlastCount
  rw [selectLen, List.find?_range'_eq_some]
  refine ⟨?selected, List.mem_range'_1.2 ⟨hpos, by omega⟩, fun l h1 hl => ?shorter⟩
  case selected =>
    obtain heq | hlt := Nat.eq_or_lt_of_le hlast
    · simp [lenSelected, ← heq]
    · have h15 : len < 15 := by omega
      simp [lenSelected, hpadded (Nat.le_add_left 1 len) hlt, hhi, h15]
  case shorter =>
    have hne : l ≠ (tableOf lens).last := by omega
    have hle : windowStart lens (l + 1) ≤ w := Nat.le_trans (windowStart_mono lens (by omega) hl (by omega)) hlo
    simp [lenSelected, hne, hpadded (l := l + 1) (by omega) (by omega), hle]

/-- A window that begins with a code decodes to the symbol of that code (R186). -/
theorem decodeWindow_of_code {w len idx : Nat} (hpos : 1 ≤ len) (hlen : len ≤ 15) (hidx : idx < lens.count len)
    (hcode : unpad w len = startCode lens len + idx) :
    decodeWindow (tableOf lens) w = .ok ((((tableOf lens).symbols len).getD idx 0).toNat, len) := by
  obtain ⟨hlo, hhi⟩ := (exists_code_iff lens w hpos hlen).1 ⟨idx, hidx, hcode⟩
  have hin : idx < ((tableOf lens).symbols len).length := 
    Nat.lt_of_lt_of_eq hidx (tableOf_count lens hpos hlen).symm
  refine decodeWindow_of_selectLen (idx := idx) (selectLen_of_interval h16 hkraft hpos hlen hlo hhi) ?_ ?_
  · rw [hcode, unpad_padded h16 hkraft hpos hlen (by omega)]
  · rw [List.getElem?_map, List.getElem?_eq_getElem hin, List.getD_eq_getElem _ _ hin]
    rfl

/-- A window that begins with no code raises (R184). -/
theorem decodeWindow_of_no_code {w : Nat}
    (h : ∀ len idx, 1 ≤ len → len ≤ 15 → idx < lens.count len → unpad w len ≠ startCode lens len + idx) :
    decodeWindow (tableOf lens) w = .error .corruptHuffmanCode := by
  unfold decodeWindow
  split
  case h_1 => rfl
  case h_2 len hsel =>
    obtain ⟨hpos, hlen⟩ := List.mem_range'_1.1 (List.mem_of_find?_eq_some hsel)
    refine if_neg fun ⟨hge, hlt⟩ => ?_
    rw [tableOf_count lens hpos (by omega)] at hlt
    rw [unpad_padded h16 hkraft hpos (by omega) (Nat.zero_lt_of_lt hlt)] at hge hlt
    exact h len _ hpos (by omega) hlt (Nat.add_sub_of_le hge).symm

end

/-- The intervals of a complete code hold every window (R186). -/
theorem exists_code_of_complete {lens : List Nat} {w : Nat} (h16 : ∀ l ∈ lens, l < 16) (hkraft : kraft lens = 2 ^ 15)
    (hw : w < 2 ^ 16) : ∃ len idx, 1 ≤ len ∧ len ≤ 15 ∧ idx < lens.count len ∧ unpad w len = startCode lens len + idx := by
  have hend : w < windowStart lens (15 + 1) := by rw [windowStart_sixteen h16, hkraft]; exact hw
  have hex : ∃ n, w < windowStart lens (n + 1) := ⟨15, hend⟩
  have hle : Nat.find hex ≤ 15 := Nat.find_min' hex hend
  have hspec := Nat.find_spec hex
  obtain hzero | hpos := Nat.eq_zero_or_pos (Nat.find hex)
  · rw [hzero, windowStart_one] at hspec
    exact absurd hspec (Nat.not_lt_zero w)
  · have hlo : windowStart lens (Nat.find hex) ≤ w := by
      obtain ⟨n, hn⟩ := Nat.exists_eq_add_of_le' hpos
      rw [hn]
      exact Nat.le_of_not_lt (Nat.find_min hex (by omega))
    obtain ⟨idx, hidx, hcode⟩ := (exists_code_iff lens w hpos hle).2 ⟨hlo, hspec⟩
    exact ⟨_, idx, hpos, hle, hidx, hcode⟩

/-- Settles O28: a code is an interval of windows, and `DECODE` finds the interval of its window. -/
theorem canonicalCodeDecodes : Obligations.CanonicalCodeDecodes := by
  intro lens w _ h16 hkraft hw
  refine ⟨fun len idx hpos hlen hidx => decodeWindow_of_code h16 hkraft hpos hlen hidx,
    decodeWindow_of_no_code h16 hkraft, fun hfull => ?complete⟩
  case complete =>
    obtain ⟨len, idx, hpos, hlen, hidx, hcode⟩ := exists_code_of_complete h16 hfull hw
    exact ⟨_, decodeWindow_of_code h16 hkraft hpos hlen hidx hcode⟩

end Sys2Proof.Machine

/-! What a step never writes, who writes the flags, and how the output grows (10_state.md R33, R35 to R41), read off the list of
the causes of a next state (`StepDoes`). -/

namespace Sys2Proof.Machine

/-- A cursor that advanced is the state before it with another `BITPOS`. -/
theorem Advanced.exists_setBitpos {s u : State} (h : Advanced s u) : ∃ p, u = setBitpos p s := ⟨_, h.1⟩

@[simp] theorem copyLoop_inMem (d n : Nat) (s : State) : (copyLoop d n s).inMem = s.inMem := by rw [copyLoop_eq]
@[simp] theorem copyLoop_inSize (d n : Nat) (s : State) : (copyLoop d n s).inSize = s.inSize := by rw [copyLoop_eq]
@[simp] theorem copyLoop_startBitpos (d n : Nat) (s : State) : (copyLoop d n s).startBitpos = s.startBitpos := by
  rw [copyLoop_eq]
@[simp] theorem copyLoop_cfg (d n : Nat) (s : State) : (copyLoop d n s).cfg = s.cfg := by rw [copyLoop_eq]
@[simp] theorem copyLoop_mode (d n : Nat) (s : State) : (copyLoop d n s).mode = s.mode := by rw [copyLoop_eq]
@[simp] theorem copyLoop_err (d n : Nat) (s : State) : (copyLoop d n s).err = s.err := by rw [copyLoop_eq]
@[simp] theorem copyLoop_bfinal (d n : Nat) (s : State) : (copyLoop d n s).bfinal = s.bfinal := by rw [copyLoop_eq]
@[simp] theorem copyLoop_fixedValid (d n : Nat) (s : State) : (copyLoop d n s).fixedValid = s.fixedValid := by
  rw [copyLoop_eq]
@[simp] theorem copyLoop_dynValid (d n : Nat) (s : State) : (copyLoop d n s).dynValid = s.dynValid := by rw [copyLoop_eq]
@[simp] theorem copyLoop_tblFixll (d n : Nat) (s : State) : (copyLoop d n s).tblFixll = s.tblFixll := by rw [copyLoop_eq]
@[simp] theorem copyLoop_tblClt (d n : Nat) (s : State) : (copyLoop d n s).tblClt = s.tblClt := by rw [copyLoop_eq]
@[simp] theorem copyLoop_tblLl (d n : Nat) (s : State) : (copyLoop d n s).tblLl = s.tblLl := by rw [copyLoop_eq]
@[simp] theorem copyLoop_tblDt (d n : Nat) (s : State) : (copyLoop d n s).tblDt = s.tblDt := by rw [copyLoop_eq]
@[simp] theorem copyLoop_freeCount (d n : Nat) (s : State) : (copyLoop d n s).freeCount = s.freeCount := by
  rw [copyLoop_eq]

@[simp] theorem storedLoop_inMem (a n : Nat) (s : State) : (storedLoop a n s).inMem = s.inMem := by rw [storedLoop_eq]
@[simp] theorem storedLoop_inSize (a n : Nat) (s : State) : (storedLoop a n s).inSize = s.inSize := by rw [storedLoop_eq]
@[simp] theorem storedLoop_startBitpos (a n : Nat) (s : State) : (storedLoop a n s).startBitpos = s.startBitpos := by
  rw [storedLoop_eq]
@[simp] theorem storedLoop_cfg (a n : Nat) (s : State) : (storedLoop a n s).cfg = s.cfg := by rw [storedLoop_eq]
@[simp] theorem storedLoop_err (a n : Nat) (s : State) : (storedLoop a n s).err = s.err := by rw [storedLoop_eq]
@[simp] theorem storedLoop_bfinal (a n : Nat) (s : State) : (storedLoop a n s).bfinal = s.bfinal := by rw [storedLoop_eq]
@[simp] theorem storedLoop_fixedValid (a n : Nat) (s : State) : (storedLoop a n s).fixedValid = s.fixedValid := by
  rw [storedLoop_eq]
@[simp] theorem storedLoop_tblFixll (a n : Nat) (s : State) : (storedLoop a n s).tblFixll = s.tblFixll := by
  rw [storedLoop_eq]

/-! ### The input -/

/-- What no step writes (R36, R37, R40). -/
def KeepsInput (s t : State) : Prop :=
  t.inMem = s.inMem ∧ t.inSize = s.inSize ∧ t.startBitpos = s.startBitpos ∧ t.cfg = s.cfg

theorem keepsInput_of_stepDoes {s t : State} (h : StepDoes s t) : KeepsInput s t := by
  cases h with
  | halted | raised | headerStored | headerDynamic | literal | endOfBlock => exact ⟨rfl, rfl, rfl, rfl⟩
  | headerFixed => split <;> exact ⟨rfl, rfl, rfl, rfl⟩
  | storedBody u a n hm hu =>
    obtain ⟨p, rfl⟩ := hu.exists_setBitpos
    simp [KeepsInput]
  | copied u len length distance hs hl hml hu =>
    obtain ⟨p, rfl⟩ := hu.exists_setBitpos
    simp [KeepsInput]
  | dynHeader u cl L D hm hv hu =>
    obtain ⟨p, rfl⟩ := hu.exists_setBitpos
    exact ⟨rfl, rfl, rfl, rfl⟩

/-- Settles O54: no cause of a next state writes what `KeepsInput` lists. -/
theorem inputUntouched : Obligations.InputUntouched := fun _ _ h => keepsInput_of_stepDoes (step_does h)

/-! ### The flags -/

theorem InSymbols.mode_eq {s : State} (h : InSymbols s) : s.mode = .fixedHuffman ∨ s.mode = .dynamicHuffman :=
  h.imp_right And.left

/-- The claim of `Obligations.FlagWriters` for two states. -/
def FlagsWritten (s t : State) : Prop :=
  (s.mode ≠ .readBlockHeader → t.bfinal = s.bfinal) ∧
  (s.mode = .readBlockHeader → t.mode ≠ .error → t.bfinal = sbit s s.bitpos) ∧
  (s.fixedValid = true → t.fixedValid = true ∧ t.tblFixll = s.tblFixll) ∧
  (t.mode = .done → s.mode ≠ .done → s.bfinal = true ∧ s.mode ≠ .readBlockHeader ∧ t.err = s.err) ∧
  (t.mode = .readBlockHeader → s.mode ≠ .readBlockHeader → s.bfinal = false) ∧
  (t.mode = .dynamicHuffman → s.mode ≠ .dynamicHuffman → t.dynValid = false ∧ s.cfg.dynSupport = true)

/-- Within a block nothing is written. -/
theorem flagsWritten_of_sameMode {s t : State} (hm : s.mode ≠ .readBlockHeader) (hmode : t.mode = s.mode)
    (hfinal : t.bfinal = s.bfinal) (hvalid : t.fixedValid = s.fixedValid) (htable : t.tblFixll = s.tblFixll) :
    FlagsWritten s t :=
  ⟨fun _ => hfinal, fun h => absurd h hm, fun h => ⟨hvalid.trans h, htable⟩, fun h h' => absurd (hmode.symm.trans h) h',
    fun h h' => absurd (hmode.symm.trans h) h', fun h h' => absurd (hmode.symm.trans h) h'⟩

/-- At the end of a block `BFINAL` decides where the machine goes (R212). -/
theorem flagsWritten_of_blockEnd {s t : State} (hm : s.mode ≠ .readBlockHeader)
    (hmode : t.mode = if s.bfinal = true then .done else .readBlockHeader) (hfinal : t.bfinal = s.bfinal) (herr : t.err = s.err)
    (hvalid : t.fixedValid = s.fixedValid) (htable : t.tblFixll = s.tblFixll) : FlagsWritten s t := by
  refine ⟨fun _ => hfinal, fun h => absurd h hm, fun h => ⟨hvalid.trans h, htable⟩, ?_, ?_, ?_⟩ <;>
    cases hf : s.bfinal <;> simp [hmode, hf, hm, herr]

theorem flagsWritten_of_stepDoes {s t : State} (h : StepDoes s t) : FlagsWritten s t := by
  cases h with
  | halted hm =>
    refine flagsWritten_of_sameMode (fun h => ?_) rfl rfl rfl rfl
    rw [h] at hm
    cases hm
  | raised e =>
    simp [FlagsWritten]
  | headerStored hm => simp [FlagsWritten, hm, afterHeader]
  | headerFixed hm =>
    cases hv : s.fixedValid <;> simp [FlagsWritten, hm, hv, afterHeader]
  | headerDynamic hm hb hd => simp [FlagsWritten, hm, hd, afterHeader]
  | storedBody u a n hm hu =>
    obtain ⟨p, rfl⟩ := hu.exists_setBitpos
    refine flagsWritten_of_blockEnd (by simp [hm]) ?_ ?_ ?_ ?_ ?_ <;> simp
  | literal b len hs =>
    exact flagsWritten_of_sameMode (by rcases hs.mode_eq with h | h <;> simp [h]) rfl rfl rfl rfl
  | endOfBlock len hs =>
    exact flagsWritten_of_blockEnd (by rcases hs.mode_eq with h | h <;> simp [h]) rfl rfl rfl rfl rfl
  | copied u len length distance hs hl hml hu =>
    obtain ⟨p, rfl⟩ := hu.exists_setBitpos
    refine flagsWritten_of_sameMode (by rcases hs.mode_eq with h | h <;> simp [h]) ?_ ?_ ?_ ?_ <;> simp
  | dynHeader u cl L D hm hv hu =>
    obtain ⟨p, rfl⟩ := hu.exists_setBitpos
    exact flagsWritten_of_sameMode (by simp [hm]) rfl rfl rfl rfl

/-- Settles O55: a header, the end of a block, and every other cause. -/
theorem flagWriters : Obligations.FlagWriters := fun _ _ h => flagsWritten_of_stepDoes (step_does h)

/-! ### The output -/

theorem appended_nil {s t : State} (hlen : t.outLen = s.outLen) (hmem : t.outMem = s.outMem) : Appended s t [] :=
  ⟨hlen, fun k hk => absurd hk k.not_lt_zero, fun a _ => by rw [outRead, hmem, outRead]⟩

/-- Where nothing but a stretch at `OUT_LEN` is written, what was appended is what that stretch now holds. -/
theorem exists_appended {s t : State} {n : Nat} (hlen : t.outLen = s.outLen + n)
    (hother : ∀ a, a < s.outLen ∨ s.outLen + n ≤ a → outRead t a = outRead s a) : ∃ bs, Appended s t bs := by
  refine ⟨(List.range n).map (fun k => outRead t (s.outLen + k)), ?_⟩
  rw [Appended, List.length_map, List.length_range]
  exact ⟨hlen, fun k hk => by simp [hk], hother⟩

theorem ne_error_of_running {s : State} (h : s.mode.running = true) : s.mode ≠ .error := fun hm => by
  rw [hm] at h
  cases h

/-- A step appends, or it enters `Error` (R35, 60_exceptions.md R330). -/
theorem grows_or_raised {s t : State} (h : StepDoes s t) :
    (∃ bs, Appended s t bs) ∨ (s.mode ≠ .error ∧ t.mode = .error) := by
  cases h with
  | halted | headerStored | headerDynamic | endOfBlock => exact .inl ⟨[], appended_nil rfl rfl⟩
  | raised e hrun => exact .inr ⟨ne_error_of_running hrun, rfl⟩
  | headerFixed => exact .inl ⟨[], appended_nil (by split <;> rfl) (by split <;> rfl)⟩
  | storedBody u a n hm hu =>
    obtain ⟨p, rfl⟩ := hu.exists_setBitpos
    exact .inl (exists_appended (storedLoop_outLen a n (setBitpos p s)) fun x hx =>
      hx.elim (outRead_storedLoop_of_lt (s := setBitpos p s) a n) (outRead_storedLoop_of_ge (s := setBitpos p s) a n))
  | literal b len =>
    exact .inl (exists_appended (n := 1) rfl fun a ha => memRead_write_other s.outMem s.outLen a b (by omega))
  | copied u len length distance hs hl hml hu =>
    obtain ⟨p, rfl⟩ := hu.exists_setBitpos
    exact .inl (exists_appended (copyLoop_outLen distance length (setBitpos p s)) fun x hx =>
      hx.elim (outRead_copyLoop_of_lt (s := setBitpos p s) distance length)
        (outRead_copyLoop_of_ge (s := setBitpos p s) distance length))
  | dynHeader u cl L D hm hv hu =>
    obtain ⟨p, rfl⟩ := hu.exists_setBitpos
    exact .inl ⟨[], appended_nil rfl rfl⟩

/-- Settles O56: every cause but a raise appends, and only a raise enters `Error`. -/
theorem outputGrowsByAppend : Obligations.OutputGrowsByAppend := fun s t _ h => by
  refine ⟨fun hmode => ?appends, fun herr hs => ?entersError⟩
  case appends =>
    rcases grows_or_raised (step_does h) with hgrows | ⟨hs, herr⟩
    · exact hgrows
    · exact absurd (hmode.resolve_left (not_not.2 herr)) hs
  case entersError =>
    rcases raise_or_keepsUnraised hs (step_does h) with ⟨e, rfl⟩ | ⟨hm, -⟩
    · rfl
    · exact absurd herr hm

/-- The copy gives every byte the value of the byte `distance` before it (44_lz77_reconstructor.md R243, R244). -/
theorem outRead_copyLoop_back {s : State} {d n k : Nat} (h : Memory.wf s.outMem = true) (hd : 1 ≤ d) (hk : k < n) :
    outRead (copyLoop d n s) (s.outLen + k) = outRead (copyLoop d n s) (s.outLen + k - d) := by
  induction n generalizing k s with
  | zero => omega
  | succ n ih =>
    rw [copyLoop]
    cases k with
    | zero =>
      rw [outRead_copyLoop_of_lt d n (Nat.lt_succ_self s.outLen), Nat.add_zero, outRead_appendByte_same _ h]
      by_cases hlen : s.outLen = 0
      · have hzero : s.outLen - d = s.outLen := by omega
        rw [hzero, outRead_copyLoop_of_lt d n (Nat.lt_succ_self s.outLen), outRead_appendByte_same _ h]
      · have hlt : s.outLen - d < s.outLen := by omega
        rw [outRead_copyLoop_of_lt d n (Nat.lt_succ_of_lt hlt), outRead_append_of_lt _ hlt]
    | succ k =>
      have hnext := ih (s := appendByte (outRead s (s.outLen - d)) s) (wf_memWrite _ _ h) (Nat.lt_of_succ_lt_succ hk)
      rw [appendByte_outLen, Nat.add_right_comm] at hnext
      exact hnext

/-- The closed form of the copy (44_lz77_reconstructor.md R246). -/
theorem outRead_copyLoop {s : State} {d n k : Nat} (h : Memory.wf s.outMem = true) (hd : 1 ≤ d) (hlen : d ≤ s.outLen)
    (hk : k < n) : outRead (copyLoop d n s) (s.outLen + k) = outRead s (s.outLen - d + k % d) := by
  induction k using Nat.strong_induction_on with
  | h k ih =>
    rw [outRead_copyLoop_back h hd hk]
    by_cases hkd : k < d
    · have hback : s.outLen + k - d = s.outLen - d + k := by omega
      rw [hback, outRead_copyLoop_of_lt d n (by omega), Nat.mod_eq_of_lt hkd]
    · have hback : s.outLen + k - d = s.outLen + (k - d) := by omega
      rw [hback, ih (k - d) (by omega) (by omega), Nat.mod_eq_sub_mod (Nat.le_of_not_lt hkd)]

theorem copyBytes_length (s : State) (length distance : Nat) : (copyBytes s length distance).length = length := by
  simp [copyBytes]

/-- `COPY` appends the last `distance` bytes, repeated (44_lz77_reconstructor.md R246). -/
theorem appended_copyLoop {s : State} {d : Nat} (n : Nat) (h : Memory.wf s.outMem = true) (hd : 1 ≤ d) (hlen : d ≤ s.outLen) :
    Appended s (copyLoop d n s) (copyBytes s n d) := by
  rw [Appended, copyBytes_length]
  refine ⟨copyLoop_outLen d n s, fun k hk => ?_, fun a ha => ha.elim (outRead_copyLoop_of_lt d n) (outRead_copyLoop_of_ge d n)⟩
  rw [outRead_copyLoop h hd hlen hk]
  simp [copyBytes, hk]

end Sys2Proof.Machine

/-! The invariant (10_state.md, 60_exceptions.md R337, 70_reset_and_hazards.md R350 to R361): part by part over the list of the
causes of a next state, after reset, and under the writes of the host. -/

namespace Sys2Proof.Machine

/-! ### A step -/

/-- What the invariant says of `OUT`: canonical, within its capacity, and so is its length (10_state.md R41, 44 R241). -/
def OutputInv (s : State) : Prop :=
  Memory.wf s.outMem = true ∧ outWithin s.cfg s.outMem = true ∧ exceedsCap s 0 = false

/-- Of a state only `OUT`, `OUT_LEN` and the parameters matter. -/
theorem OutputInv.of_same {s t : State} (h : OutputInv s) (hmem : t.outMem = s.outMem) (hlen : t.outLen = s.outLen)
    (hcfg : t.cfg = s.cfg) : OutputInv t := by
  obtain ⟨hwf, hin, hcap⟩ := h
  exact ⟨hmem ▸ hwf, by rw [hmem, hcfg]; exact hin, (exceedsCap_congr 0 0 hcfg (by rw [hlen])).trans hcap⟩

theorem exceedsCap_of_outLen_zero {s : State} (h : s.outLen = 0) : exceedsCap s 0 = false := by
  unfold exceedsCap
  split
  · rfl
  · simp [h]

/-- Error entry leaves some canonical contents within the capacity (60_exceptions.md R330). -/
theorem outputInv_raise (s : State) (e : ErrCode) : OutputInv (raise s e) := by
  obtain ⟨hwf, hin⟩ := outInv_free s
  exact ⟨hwf, hin, exceedsCap_of_outLen_zero rfl⟩

theorem OutputInv.copyLoop {s : State} {n : Nat} (d : Nat) (h : OutputInv s) (hroom : exceedsCap s n = false) :
    OutputInv (copyLoop d n s) := by
  obtain ⟨hwf, hin, -⟩ := h
  obtain ⟨hwf', hin'⟩ := outInv_copyLoop d n hroom hwf hin
  exact ⟨hwf', hin', (exceedsCap_congr n 0 (copyLoop_cfg d n s) (by rw [copyLoop_outLen]; rfl)).trans hroom⟩

theorem OutputInv.storedLoop {s : State} {n : Nat} (a : Nat) (h : OutputInv s) (hroom : exceedsCap s n = false) :
    OutputInv (storedLoop a n s) := by
  obtain ⟨hwf, hin, -⟩ := h
  obtain ⟨hwf', hin'⟩ := outInv_storedLoop a n hroom hwf hin
  exact ⟨hwf', hin', (exceedsCap_congr n 0 (storedLoop_cfg a n s) (by rw [storedLoop_outLen]; rfl)).trans hroom⟩

theorem outputInv_step {s t : State} (hs : OutputInv s) (h : StepDoes s t) : OutputInv t := by
  cases h with
  | halted | headerStored | headerDynamic | endOfBlock => exact hs.of_same rfl rfl rfl
  | raised e => exact outputInv_raise s e
  | headerFixed => exact hs.of_same (by split <;> rfl) (by split <;> rfl) (by split <;> rfl)
  | storedBody u a n hm hu h32 ha h8 hn hin hroom =>
    obtain ⟨p, rfl⟩ := hu.exists_setBitpos
    have hloop := OutputInv.storedLoop (s := setBitpos p s) a (hs.of_same rfl rfl rfl) hroom
    exact hloop.of_same rfl rfl rfl
  | literal b len hsym hl hb hroom =>
    obtain ⟨hwf, hin, -⟩ := hs
    exact outInv_append (s := setBitpos (s.bitpos + len) s) b hroom hwf hin
  | copied u len length distance hsym hl hml hu hlo hhi hspan hlen hdist hroom =>
    obtain ⟨p, rfl⟩ := hu.exists_setBitpos
    exact OutputInv.copyLoop (s := setBitpos p s) distance (hs.of_same rfl rfl rfl) hroom
  | dynHeader u cl L D hm hv hu =>
    obtain ⟨p, rfl⟩ := hu.exists_setBitpos
    exact hs.of_same rfl rfl rfl

/-- A step enters `Error` only by a raise, with one of the errors its mode and parameters allow (60_exceptions.md R312 to R321). -/
theorem exists_mayRaise {s t : State} (hs : s.mode ≠ .error) (h : StepDoes s t) (ht : t.mode = .error) :
    ∃ e, MayRaise s e ∧ t = raise s e := by
  cases h with
  | raised e _ he => exact ⟨e, he, rfl⟩
  | halted | literal => exact absurd ht hs
  | headerStored | headerFixed | headerDynamic => cases ht
  | storedBody | endOfBlock => exact absurd ht (blockEnd_mode_ne_error _)
  | copied u len length distance hsym hl hml hu =>
    obtain ⟨p, rfl⟩ := hu.exists_setBitpos
    rw [copyLoop_mode] at ht
    exact absurd ht hs
  | dynHeader u cl L D hm hv hu =>
    obtain ⟨p, rfl⟩ := hu.exists_setBitpos
    exact absurd ht hs

theorem eq_of_step_halted {s t : State} (hm : s.mode.running = false) (h : step s = .next t) : t = s := by
  rw [step_of_halted hm, Host.Outcome.next.injEq] at h
  exact h.symm

theorem errorInv_step {s t : State} (hs : ErrorInv s) (h : step s = .next t) : ErrorInv t := by
  by_cases hm : s.mode = .error
  · rw [eq_of_step_halted (by rw [hm]; rfl) h]
    exact hs
  · by_cases ht : t.mode = .error
    · obtain ⟨e, ⟨hmagic, htrailer, -⟩, rfl⟩ := exists_mayRaise hm (step_does h) ht
      exact ⟨by simp, fun _ => rfl, by simpa using hmagic, by simpa using htrailer⟩
    · obtain ⟨-, herr, -⟩ :=
        (raise_or_keepsUnraised hm (step_does h)).resolve_left fun ⟨e, he⟩ => ht (by rw [he, raise_mode])
      obtain ⟨hiff, -, hcodes⟩ := hs
      exact ⟨by rw [herr, ← hiff]; simp [ht, hm], fun h => absurd h ht, by rwa [herr]⟩

/-- A step of a running machine that raises nothing moves the cursor on, to at most the end of the input (43 R214). -/
theorem cursor_step {s t : State} (hrun : s.mode.running = true) (ht : t.mode ≠ .error) (h : StepDoes s t) :
    s.bitpos < t.bitpos ∧ t.bitpos ≤ 8 * s.inSize := by
  cases h with
  | halted hm => rw [hrun] at hm; cases hm
  | raised e => exact absurd (raise_mode s e) ht
  | headerStored hm hb | headerDynamic hm hb => exact ⟨Nat.lt_add_of_pos_right (by decide), hb⟩
  | headerFixed hm hb =>
    have hpos : (setMode .fixedHuffman (if s.fixedValid = true then afterHeader s
        else setFixll fixedTable (afterHeader s))).bitpos = s.bitpos + 3 := by split <;> rfl
    omega
  | storedBody u a n hm hu h32 ha h8 hn hin =>
    rw [blockEnd_bitpos, setBitpos_bitpos]
    omega
  | literal b len hsym hl hb | endOfBlock len hsym hl hb =>
    obtain ⟨h1, -⟩ := hl
    exact ⟨Nat.lt_add_of_pos_right h1, hb⟩
  | copied u len length distance hsym hl hml hu hlo hin =>
    obtain ⟨h1, -⟩ := hl
    rw [copyLoop_bitpos]
    omega
  | dynHeader u cl L D hm hv hu h26 =>
    have hlt : s.bitpos < u.bitpos := by omega
    exact ⟨hlt, hu.inside_of_lt hlt⟩

theorem cursorInv_step {s t : State} (hs : CursorInv s) (h : step s = .next t) : CursorInv t := by
  intro ht
  cases hrun : s.mode.running with
  | false =>
    rw [eq_of_step_halted hrun h] at ht ⊢
    exact hs ht
  | true =>
    obtain ⟨-, hin⟩ := cursor_step hrun (ne_error_of_running ht) (step_does h)
    obtain ⟨-, hsize, -⟩ := keepsInput_of_stepDoes (step_does h)
    exact .inl (hsize ▸ hin)

/-- What the invariant says of the four tables. -/
def TablesInv (s : State) : Prop := FixedTableInv s ∧ DynTablesInv s

/-- Outside both Huffman blocks only the fixed table matters, while `FIXED_VALID` holds. -/
theorem TablesInv.of_otherMode {s t : State} (h : TablesInv s) (hfix : t.mode ≠ .fixedHuffman) (hdyn : t.mode ≠ .dynamicHuffman)
    (hvalid : t.fixedValid = s.fixedValid) (htable : t.tblFixll = s.tblFixll) : TablesInv t := by
  obtain ⟨⟨hs, -⟩, -⟩ := h
  exact ⟨⟨by rw [hvalid, htable]; exact hs, fun h => absurd h hfix⟩, fun h => absurd h hdyn⟩

theorem blockEnd_mode_ne_huffman (s : State) :
    (blockEnd s).mode ≠ .fixedHuffman ∧ (blockEnd s).mode ≠ .dynamicHuffman := by
  rw [blockEnd_mode]
  split <;> decide

theorem tablesInv_step {s t : State} (hs : TablesInv s) (h : StepDoes s t) : TablesInv t := by
  cases h with
  | halted | literal => exact hs
  | raised | headerStored =>
    exact hs.of_otherMode (fun h => by cases h) (fun h => by cases h) rfl rfl
  | endOfBlock len =>
    obtain ⟨hfix, hdyn⟩ := blockEnd_mode_ne_huffman (setBitpos (s.bitpos + len) s)
    exact hs.of_otherMode hfix hdyn rfl rfl
  | storedBody u a n hm hu =>
    obtain ⟨p, rfl⟩ := hu.exists_setBitpos
    obtain ⟨hfix, hdyn⟩ := blockEnd_mode_ne_huffman (setBitpos ((setBitpos p s).bitpos + 8 * n) (storedLoop a n (setBitpos p s)))
    exact hs.of_otherMode hfix hdyn (by simp) (by simp)
  | headerFixed =>
    obtain ⟨⟨htable, -⟩, -⟩ := hs
    refine ⟨⟨fun _ => ?_, fun _ => ?_⟩, fun h => by cases h⟩ <;> split
    case _ hv => exact htable hv
    case _ => rfl
    case _ hv => exact hv
    case _ => rfl
  | headerDynamic hm hb hd =>
    obtain ⟨⟨htable, -⟩, -⟩ := hs
    exact ⟨⟨htable, fun h => by cases h⟩, fun _ => ⟨hd, fun h => by cases h⟩⟩
  | copied u len length distance hsym hl hml hu =>
    obtain ⟨p, rfl⟩ := hu.exists_setBitpos
    simpa [TablesInv, FixedTableInv, DynTablesInv] using hs
  | dynHeader u cl L D hm hv hu h26 hL hL' hD hD' hl hd =>
    obtain ⟨p, rfl⟩ := hu.exists_setBitpos
    obtain ⟨hfix, hdyn⟩ := hs
    obtain ⟨hsupport, -⟩ := hdyn hm
    exact ⟨hfix, fun _ => ⟨hsupport, fun _ => ⟨L, D, ⟨hL, hL', hl⟩, ⟨hD, hD', hd⟩, rfl, rfl⟩⟩⟩

/-- Settles O51: each part of the invariant by its own lemma; `IN` is not written at all. -/
theorem stepKeepsInvariant : Obligations.StepKeepsInvariant := by
  intro s t ⟨⟨hin, hbelow, hout, hwithin⟩, hcap, herr, hcursor, hfix, hdyn⟩ h
  obtain ⟨hmem, -, -, hcfg⟩ := keepsInput_of_stepDoes (step_does h)
  obtain ⟨hout', hwithin', hcap'⟩ := outputInv_step ⟨hout, hwithin, hcap⟩ (step_does h)
  obtain ⟨hfix', hdyn'⟩ := tablesInv_step ⟨hfix, hdyn⟩ (step_does h)
  exact ⟨⟨hmem ▸ hin, by rw [hcfg, hmem]; exact hbelow, hout', hwithin'⟩, hcap', errorInv_step herr h,
    cursorInv_step hcursor h, hfix', hdyn'⟩

/-! ### Reset and the host -/

/-- Settles O2: after reset `OUT_LEN` and `ERR` are 0, the machine is halted and no table is valid. -/
theorem resetHasInvariant : Obligations.ResetHasInvariant := by
  have hreset (m out : Memory) (fixll clt ll dt : DecodeTable) (s : State) (hin : Memory.wf m = true)
      (hbelow : memBelow s.cfg.inMax m = true) (hout : Memory.wf out = true) (hwithin : outWithin s.cfg out = true) :
      Inv (hostReset m out fixll clt ll dt s) := by
    refine ⟨⟨hin, hbelow, hout, hwithin⟩, exceedsCap_of_outLen_zero rfl, ⟨?_, fun _ => rfl, ?_, ?_⟩, fun h => ?_,
      ⟨fun h => ?_, fun h => ?_⟩, fun h => ?_⟩
    case refine_1 => exact ⟨fun h => (by cases h), fun h => absurd rfl h⟩
    case refine_2 | refine_3 => exact fun h => (by cases h)
    all_goals cases h
  refine ⟨?_, hreset⟩
  rw [reset_eq_hostReset]
  exact hreset _ _ _ _ _ _ _ rfl rfl rfl rfl

/-- `START` of a halted machine keeps the invariant: no block is in progress and no byte of `OUT` is valid (R353). -/
theorem inv_start {s : State} (h : Inv s) : Inv (start s) := by
  obtain ⟨hmem, -, -, -, ⟨htable, -⟩, -⟩ := h
  exact ⟨hmem, exceedsCap_of_outLen_zero rfl, ⟨by simp, fun _ => rfl, by simp, by simp⟩, fun _ => .inr rfl,
    ⟨htable, fun h => by cases h⟩, fun h => by cases h⟩

/-- Of a halted machine the cursor is unconstrained, so the host may write `IN_SIZE` and `START_BITPOS`. -/
theorem inv_setSizes {s : State} (h : Inv s) (hm : s.mode.running = false) (size pos : Nat) :
    Inv { s with inSize := size, startBitpos := pos } := by
  obtain ⟨hmem, hcap, herr, -, htables⟩ := h
  exact ⟨hmem, hcap, herr, fun hrun => absurd (hm.symm.trans hrun) Bool.false_ne_true, htables⟩

theorem inv_writeIn {s : State} {a : Nat} (b : Byte) (h : Inv s) (ha : a < s.cfg.inMax) :
    Inv { s with inMem := memWrite s.inMem a b } := by
  obtain ⟨⟨hin, hbelow, hout⟩, hrest⟩ := h
  exact ⟨⟨wf_memWrite a b hin, memBelow_write b hbelow ha, hout⟩, hrest⟩

theorem inv_hostWriteReg {s t : State} {r : HostReg} {v : Nat} (hs : Inv s) (h : hostWriteReg r v s = .next t) : Inv t := by
  cases r with
  | ctrl =>
    cases h
    split
    · exact inv_start hs
    · exact hs
  | status | bitpos | outLen => cases h
  | inSize =>
    cases hrun : s.mode.running with
    | true => simp [hostWriteReg, hrun] at h
    | false =>
      simp only [hostWriteReg, hrun, Bool.false_eq_true, if_false] at h
      split at h <;> cases h
      exact inv_setSizes hs hrun v s.startBitpos
  | startBitpos =>
    cases hrun : s.mode.running with
    | true => simp [hostWriteReg, hrun] at h
    | false =>
      simp only [hostWriteReg, hrun, Bool.false_eq_true, if_false] at h
      split at h <;> cases h
      exact inv_setSizes hs hrun s.inSize v

theorem inv_hostWriteIn {s t : State} {a : Nat} {b : Byte} (hs : Inv s) (h : hostWriteIn a b s = .next t) : Inv t := by
  unfold hostWriteIn at h
  split at h
  · cases h
  · split at h <;> cases h
    exact inv_writeIn b hs ‹_›

/-- Settles O3: a write either answers no state, or writes what the invariant leaves to the host. -/
theorem hostWritesKeepInvariant : Obligations.HostWritesKeepInvariant := fun _ _ _ _ _ _ hs =>
  ⟨inv_hostWriteReg hs, inv_hostWriteIn hs⟩

/-- Settles O4: `START` on a halted core, its other effects, and the header that a start near the end cannot read. -/
theorem startBeginsRun : Obligations.StartBeginsRun := fun s v => by
  refine ⟨fun hm hv => ?starts, fun hor => ?ignored, fun hend => ?truncated⟩
  case starts => rw [hostWriteReg, if_pos ⟨hv, hm⟩]; rfl
  case ignored =>
    rw [hostWriteReg, if_neg]
    rintro ⟨hv, hm⟩
    rcases hor with hrun | hv0
    · exact absurd (hm.symm.trans hrun) Bool.false_ne_true
    · omega
  case truncated => exact step_of_truncated_header rfl (Nat.not_le.2 hend)

end Sys2Proof.Machine

/-! Whole runs (43_block_processor.md R214, 60_exceptions.md R337), and which errors there can be (R310 to R321, R330). -/

namespace Sys2Proof.Machine

/-! ### Runs -/

theorem running_eq_false_iff {m : Mode} : m.running = false ↔ m = .idle ∨ m = .done ∨ m = .error := by
  cases m <;> simp [Mode.running]

theorem runSteps_succ {s t : State} (n : Nat) (h : step s = .next t) : runSteps (n + 1) s = runSteps n t := by
  rw [runSteps, h]

theorem runSteps_of_halted {s : State} (n : Nat) (h : s.mode.running = false) : runSteps n s = s := by
  induction n with
  | zero => rfl
  | succ n ih => rw [runSteps_succ n (step_of_halted h), ih]

theorem runSteps_add (m n : Nat) (s : State) : runSteps (m + n) s = runSteps n (runSteps m s) := by
  induction m generalizing s with
  | zero => rw [Nat.zero_add, runSteps]
  | succ m ih =>
    obtain ⟨t, h⟩ := step_next s
    rw [Nat.succ_add, runSteps_succ _ h, runSteps_succ _ h, ih]

/-- Settles O50: every step of a halted machine answers the state it began in. -/
theorem haltedStays : Obligations.HaltedStays := fun _ n =>
  ⟨fun h => runSteps_of_halted n (running_eq_false_iff.2 h), running_eq_false_iff⟩

/-- Only reset makes the machine idle. -/
theorem mode_ne_idle_step {s t : State} (hrun : s.mode.running = true) (h : StepDoes s t) : t.mode ≠ .idle := by
  have hs : s.mode ≠ .idle := fun hm => by rw [hm] at hrun; cases hrun
  have hend (u : State) : (blockEnd u).mode ≠ .idle := by
    rw [blockEnd_mode]
    split <;> decide
  cases h with
  | halted | literal => exact hs
  | raised | headerStored | headerFixed | headerDynamic => exact fun h => by cases h
  | storedBody | endOfBlock => exact hend _
  | copied u len length distance hsym hl hml hu =>
    obtain ⟨p, rfl⟩ := hu.exists_setBitpos
    rwa [copyLoop_mode]
  | dynHeader u cl L D hm hv hu =>
    obtain ⟨p, rfl⟩ := hu.exists_setBitpos
    exact hs

/-- A machine that has been started halts within one step more than it has bits left (43 R214). -/
theorem runSteps_halts {s : State} {n : Nat} (hs : s.mode ≠ .idle) (hn : 8 * s.inSize - s.bitpos < n) :
    (runSteps n s).mode = .done ∨ (runSteps n s).mode = .error := by
  induction n generalizing s with
  | zero => exact absurd hn (Nat.not_lt_zero _)
  | succ n ih =>
    cases hrun : s.mode.running with
    | false =>
      rw [runSteps_of_halted _ hrun]
      exact (running_eq_false_iff.1 hrun).resolve_left hs
    | true =>
      obtain ⟨t, h⟩ := step_next s
      rw [runSteps_succ n h]
      by_cases herr : t.mode = .error
      · rw [runSteps_of_halted n (by rw [herr]; rfl)]
        exact .inr herr
      · obtain ⟨hlt, hin⟩ := cursor_step hrun herr (step_does h)
        obtain ⟨-, hsize, -⟩ := keepsInput_of_stepDoes (step_does h)
        exact ih (mode_ne_idle_step hrun (step_does h)) (by omega)

/-- Settles O53, by induction on the bits left. -/
theorem runTerminates : Obligations.RunTerminates := by
  intro s hrun
  have hs : s.mode ≠ .idle := fun hm => by rw [hm] at hrun; cases hrun
  have hend : (runToEnd s).mode = .done ∨ (runToEnd s).mode = .error := runSteps_halts hs (Nat.lt_succ_self _)
  refine ⟨hend, fun n hn => ?_⟩
  obtain ⟨k, rfl⟩ := Nat.exists_eq_add_of_le hn
  rw [runSteps_add]
  exact runSteps_of_halted k (running_eq_false_iff.2 (.inr hend))

/-! ### The errors of an element -/

/-- An error of the core, none of the host's (R311, R319). -/
def CoreError (e : ErrCode) : Prop := e ≠ .invalidMagic ∧ e ≠ .trailerMissing

theorem MayRaise.core {s : State} {e : ErrCode} (h : MayRaise s e) : CoreError e := ⟨h.1, h.2.1⟩

theorem SymbolError.core {s : State} {e : ErrCode} (h : SymbolError s e) : CoreError e := (mayRaise_of_symbol h).core

theorem HeaderError.core {e : ErrCode} (h : HeaderError e) : CoreError e := by
  rcases h with rfl | rfl | rfl <;> exact ⟨by decide, by decide⟩

theorem coreError_of_consume {n : Nat} {s : State} {e : ErrCode} (h : consume n s = .error e) : CoreError e := by
  obtain ⟨-, rfl⟩ := consume_error.1 h
  exact ⟨by decide, by decide⟩

theorem coreError_of_headerRead {f : Bool} {s : State} {e : ErrCode} (h : headerRead f s = .error e) : CoreError e := by
  rcases bind_error.1 h with h | ⟨_, -, h⟩
  · exact coreError_of_consume h
  · cases h

theorem coreError_of_enterDynamic {s : State} {e : ErrCode} (h : enterDynamic s = .error e) : CoreError e := by
  unfold enterDynamic at h
  split at h <;> cases h
  exact ⟨by decide, by decide⟩

theorem coreError_of_storedBody {s : State} {e : ErrCode} (h : storedBody s = .error e) : CoreError e := by
  rw [storedBody_eq] at h
  split at h
  · cases h
    exact ⟨by decide, by decide⟩
  · split at h <;> cases h
    exact ⟨by decide, by decide⟩

/-- The distance code of a match, from either source. -/
theorem coreError_of_readDist {s : State} {e : ErrCode} (h : readDist s = .error e) : CoreError e := by
  unfold readDist at h
  split at h
  · exact (readFixedDist_raises (s := s) h).core
  · exact (readTableDist_raises (s := setMode .dynamicHuffman s) rfl h).core

theorem coreError_of_matchSym {sym len : Nat} {s : State} {e : ErrCode} (h : matchSym sym len s = .error e) : CoreError e := by
  rcases bind_error.1 h with h | ⟨s1, -, h⟩
  · exact coreError_of_consume h
  rcases bind_error.1 h with h | ⟨⟨v, s2⟩, -, h⟩
  · exact (readLength_raises (s := s) h).core
  rcases bind_error.1 h with h | ⟨⟨d, s3⟩, -, h⟩
  · exact coreError_of_readDist h
  · exact (matchTail_raises (s := s3) rfl h).core

theorem finishLengths_raises {nl nd : Nat} {lens : List Nat} {s : State} {e : ErrCode}
    (h : finishLengths nl nd lens s = .error e) : HeaderError e := by
  rcases bind_error.1 h with h | ⟨⟨lens1, s1⟩, -, h⟩
  · exact clLoop_raises h
  rcases bind_error.1 h with h | ⟨L, -, h⟩
  · exact .inr (.inr (build_error h))
  rcases bind_error.1 h with h | ⟨D, -, h⟩
  · exact .inr (.inr (build_error h))
  · cases h

/-- No element raises an error of the host's, in whatever state it is executed. -/
theorem coreError_of_meaning {s : State} {r : Except ErrCode State} {e : ErrCode} (h : Meaning s r) (hr : r = .error e) :
    CoreError e := by
  cases h with
  | hdrStored f =>
    rcases bind_error.1 hr with h | ⟨_, -, h⟩
    · exact coreError_of_headerRead h
    · cases h
  | hdrFixed f =>
    rcases bind_error.1 hr with h | ⟨s1, -, h⟩
    · exact coreError_of_headerRead h
    · rw [enterFixed_eq] at h
      cases h
  | hdrDynamic f =>
    rcases bind_error.1 hr with h | ⟨_, -, h⟩
    · exact coreError_of_headerRead h
    · exact coreError_of_enterDynamic h
  | hdrReserved f =>
    rcases bind_error.1 hr with h | ⟨_, -, h⟩
    · exact coreError_of_headerRead h
    · cases h
      exact ⟨by decide, by decide⟩
  | storedBody =>
    rcases bind_error.1 hr with h | ⟨_, -, h⟩
    · exact coreError_of_storedBody h
    · cases h
  | dynHeader => exact (dynHeader_raises hr).core
  | literal b len => exact (literal_raises hr).core
  | endOfBlock len => exact (endOfBlock_raises hr).core
  | badLength len => exact (badLength_raises hr).core
  | matchFixed sym len => exact (matchFixed_raises hr).core
  | matchSym sym len => exact coreError_of_matchSym hr
  | distPart dcode len length =>
    rcases bind_error.1 hr with h | ⟨s1, -, h⟩
    · exact coreError_of_consume h
    · exact (matchTail_raises (s := s1) rfl h).core
  | clLen l len q =>
    rcases bind_error.1 hr with h | ⟨_, -, h⟩
    · exact coreError_of_consume h
    · exact (finishLengths_raises h).core
  | clRep len q =>
    rcases bind_error.1 hr with h | ⟨s1, -, h⟩
    · exact coreError_of_consume h
    rcases bind_error.1 h with h | ⟨_, -, h⟩
    · exact (clSymbol_raises (sym := 16) h).core
    · exact (finishLengths_raises h).core
  | clZeros base n len q =>
    rcases bind_error.1 hr with h | ⟨s1, -, h⟩
    · exact coreError_of_consume h
    rcases bind_error.1 h with h | ⟨_, -, h⟩
    · exact (clZeros_raises h).core
    · exact (finishLengths_raises h).core

/-! ### What an element that raises nothing keeps -/

/-- `t` is in `Error` only if `s` is, and no free value was drawn in between (log entry 8). -/
def NoRaise (s t : State) : Prop := (t.mode = .error → s.mode = .error) ∧ t.freeCount = s.freeCount

theorem noRaise_of_sameMode {s t : State} (hm : t.mode = s.mode) (hf : t.freeCount = s.freeCount) : NoRaise s t :=
  ⟨fun h => hm.symm.trans h, hf⟩

theorem noRaise_of_mode {s t : State} (hm : t.mode ≠ .error) (hf : t.freeCount = s.freeCount) : NoRaise s t :=
  ⟨fun h => absurd h hm, hf⟩

theorem noRaise_of_finishLengths {nl nd : Nat} {lens : List Nat} {s u t : State} (hu : NoRaise s u)
    (h : finishLengths nl nd lens u = .ok t) : NoRaise s t := by
  obtain ⟨v, L, D, ha, rfl⟩ := finishLengths_any h
  obtain ⟨p, rfl⟩ := ha.exists_setBitpos
  exact hu

theorem noRaise_of_copied {s u : State} (length distance : Nat) (hu : Advanced s u) :
    NoRaise s (copyLoop distance length u) := by
  obtain ⟨p, rfl⟩ := hu.exists_setBitpos
  exact noRaise_of_sameMode (copyLoop_mode _ _ _) (copyLoop_freeCount _ _ _)

theorem noRaise_of_advanced {s u : State} (hu : Advanced s u) : NoRaise s u := by
  obtain ⟨p, rfl⟩ := hu.exists_setBitpos
  exact noRaise_of_sameMode rfl rfl

/-- Code-length symbol 16 answers a run of the last length (45_dynamic_block.md R263). -/
theorem clRepeat_ok {tot : Nat} {lens lens' : List Nat} {s t : State} (h : clRepeat tot lens s = .ok (lens', t)) :
    ∃ v x, lens.getLast? = some v ∧ readBits 2 s = .ok (x, t) ∧ lens.length + (3 + x) ≤ tot ∧
      lens' = lens ++ List.replicate (3 + x) v := by
  unfold clRepeat at h
  split at h
  · cases h
  case h_2 v hv =>
    obtain ⟨⟨x, u⟩, hx, h⟩ := bind_ok.1 h
    obtain ⟨lens1, hrun, h⟩ := bind_ok.1 h
    obtain ⟨hle, rfl⟩ := appendRun_ok.1 hrun
    cases h
    exact ⟨v, x, hv, hx, hle, rfl⟩

/-- Code-length symbols 17 and 18 answer a run of zeros (45_dynamic_block.md R263). -/
theorem clZeros_ok {base n tot : Nat} {lens lens' : List Nat} {s t : State} {width : n ≤ 16}
    (h : clZeros base n tot lens s width = .ok (lens', t)) :
    ∃ x, readBits n s width = .ok (x, t) ∧ lens.length + (base + x) ≤ tot ∧ lens' = lens ++ List.replicate (base + x) 0 := by
  obtain ⟨⟨x, u⟩, hx, h⟩ := bind_ok.1 h
  obtain ⟨lens1, hrun, h⟩ := bind_ok.1 h
  obtain ⟨hle, rfl⟩ := appendRun_ok.1 hrun
  cases h
  exact ⟨x, hx, hle, rfl⟩

theorem noRaise_of_meaning {s t : State} {r : Except ErrCode State} (h : Meaning s r) (hr : r = .ok t) : NoRaise s t := by
  cases h with
  | hdrStored f =>
    obtain ⟨s1, h1, h2⟩ := bind_ok.1 hr
    obtain ⟨-, rfl⟩ := headerRead_ok.1 h1
    cases h2
    exact noRaise_of_mode (fun h => by cases h) rfl
  | hdrFixed f =>
    obtain ⟨s1, h1, h2⟩ := bind_ok.1 hr
    obtain ⟨-, rfl⟩ := headerRead_ok.1 h1
    rw [enterFixed_fields] at h2
    cases h2
    exact noRaise_of_mode (fun h => by cases h) rfl
  | hdrDynamic f =>
    obtain ⟨s1, h1, h2⟩ := bind_ok.1 hr
    obtain ⟨-, rfl⟩ := headerRead_ok.1 h1
    obtain ⟨-, rfl⟩ := enterDynamic_ok.1 h2
    exact noRaise_of_mode (fun h => by cases h) rfl
  | hdrReserved f =>
    obtain ⟨_, -, h2⟩ := bind_ok.1 hr
    cases h2
  | storedBody =>
    obtain ⟨s1, h1, h2⟩ := bind_ok.1 hr
    obtain ⟨u, a, n, hu, -, -, -, -, -, -, rfl⟩ := storedBody_ok h1
    cases h2
    obtain ⟨p, rfl⟩ := hu.exists_setBitpos
    exact noRaise_of_mode (blockEnd_mode_ne_error _) (by rw [blockEnd_freeCount, setBitpos_freeCount, storedLoop_eq]; rfl)
  | dynHeader =>
    simp only [dynHeader, bind_ok, Prod.exists, build_ok] at hr
    obtain ⟨nl, nd, cl, s1, h1, T, -, h2⟩ := hr
    obtain ⟨ha, -⟩ := readDynFields_ok h1
    exact noRaise_of_finishLengths (u := setClt T s1) (noRaise_of_advanced (u := s1) ha) h2
  | literal b len =>
    obtain ⟨-, -, rfl⟩ := literal_ok.1 hr
    exact noRaise_of_sameMode rfl rfl
  | endOfBlock len =>
    obtain ⟨-, rfl⟩ := endOfBlock_ok.1 hr
    exact noRaise_of_mode (blockEnd_mode_ne_error _) rfl
  | badLength len => exact absurd hr badLength_ne_ok
  | matchFixed sym len =>
    obtain ⟨u, length, distance, hu, -, -, -, rfl⟩ := matchFixed_copies hr
    exact noRaise_of_copied length distance hu
  | matchSym sym len =>
    obtain ⟨u, length, distance, hu, -, -, -, -, rfl⟩ := matchSym_copies hr
    exact noRaise_of_copied length distance hu
  | distPart dcode len length =>
    obtain ⟨hb, h⟩ := distPart_ok.1 hr
    obtain ⟨u, distance, hu, -, -, rfl⟩ := matchTail_copies h
    exact noRaise_of_copied length distance ((advanced_setBitpos (by omega) hb).trans hu)
  | clLen l len q =>
    obtain ⟨s1, h1, h2⟩ := bind_ok.1 hr
    exact noRaise_of_finishLengths (noRaise_of_advanced (consume_advanced h1)) h2
  | clRep len q =>
    obtain ⟨s1, h1, h⟩ := bind_ok.1 hr
    obtain ⟨⟨lens, s2⟩, h2, h3⟩ := bind_ok.1 h
    obtain ⟨v, x, -, hx, -⟩ := clRepeat_ok h2
    exact noRaise_of_finishLengths (noRaise_of_advanced ((consume_advanced h1).trans (readBits_advanced hx))) h3
  | clZeros base n len q =>
    obtain ⟨s1, h1, h⟩ := bind_ok.1 hr
    obtain ⟨⟨lens, s2⟩, h2, h3⟩ := bind_ok.1 h
    obtain ⟨x, hx, -⟩ := clZeros_ok h2
    exact noRaise_of_finishLengths (noRaise_of_advanced ((consume_advanced h1).trans (readBits_advanced hx))) h3

/-! ### Error entry -/

/-- An element enters `Error` only by raising an error of the core (60_exceptions.md R330). -/
theorem exists_coreError {s t : State} {i : Instr} (hs : s.mode ≠ .error) (ht : t.mode = .error) (h : exec i s = .next t) :
    ∃ e, CoreError e ∧ t = raise s e := by
  obtain ⟨r, hm, hr⟩ := exec_meaning i s
  rcases finish_cases (hr.symm.trans h) with hok | ⟨e, he, rfl⟩
  · obtain ⟨hmode, -⟩ := noRaise_of_meaning hm hok
    exact absurd (hmode ht) hs
  · exact ⟨e, coreError_of_meaning hm he, rfl⟩

/-- Settles O47: an element or a step that enters `Error` raises an error of the core from its own state. -/
theorem errorEntry : Obligations.ErrorEntry := by
  intro s t i hs ht h
  have hraised : ∃ e, CoreError e ∧ t = raise s e := by
    rcases h with h | h
    · exact exists_coreError hs ht h
    · obtain ⟨e, he, hraise⟩ := exists_mayRaise hs (step_does h) ht
      exact ⟨e, he.core, hraise⟩
  obtain ⟨e, he, rfl⟩ := hraised
  exact ⟨e, entersError_raise s e, he⟩

/-- A step of a machine without an error that leaves one in `ERR` has raised it. -/
theorem mayRaise_of_err {s t : State} {e : ErrCode} (hs : s.mode ≠ .error) (hnone : s.err = none) (h : step s = .next t)
    (he : t.err = some e) : MayRaise s e := by
  have hmode : t.mode = .error := by
    rcases raise_or_keepsUnraised hs (step_does h) with ⟨e', rfl⟩ | ⟨-, herr, -⟩
    · rfl
    · rw [herr, hnone] at he
      cases he
  obtain ⟨e', hmay, rfl⟩ := exists_mayRaise hs (step_does h) hmode
  cases he
  exact hmay

/-- The fixed code is complete: no window of a fixed-Huffman block is corrupt (R313, 42_huffman_decoder.md R187). -/
theorem not_corrupt_of_fixed {s : State} {e : ErrCode} (htable : s.tblFixll = fixedTable) (hdyn : s.mode ≠ .dynamicHuffman)
    (h : MayRaise s e) : e ≠ .corruptHuffmanCode := by
  obtain ⟨-, -, -, hcorrupt, -⟩ := h
  intro he
  rcases hcorrupt he with hm | ⟨-, w, hw, hwin⟩
  · exact hdyn hm
  · rw [htable, decodeWindow_fixedTable hw] at hwin
    cases hwin

/-- Settles O49: `MayRaise` lists what each error needs, and the invariant says when the tables are in force. -/
theorem errorsByConfiguration : Obligations.ErrorsByConfiguration := by
  rintro s t e ⟨-, -, ⟨hmode, -⟩, -, ⟨hvalid, hfixed⟩, hdyn⟩ hs h he
  have hnone : s.err = none := by
    by_contra hne
    exact hs (hmode.2 hne)
  have hmay := mayRaise_of_err hs hnone h he
  obtain ⟨-, -, hunsupported, hcorrupt, hlengths, hcap⟩ := id hmay
  have hnodyn (hd : s.cfg.dynSupport = false) : s.mode ≠ .dynamicHuffman := fun hm => by
    obtain ⟨hd', -⟩ := hdyn hm
    rw [hd] at hd'
    cases hd'
  refine ⟨fun hm => ?fixed, fun hd => ⟨?corrupt, fun heq => hnodyn hd (hlengths heq)⟩, fun hd heq => ?unsupported,
    fun hc heq => hcap heq hc⟩
  case fixed => exact not_corrupt_of_fixed (hvalid (hfixed hm)) (by simp [hm]) hmay
  case corrupt =>
    intro heq
    rcases hcorrupt heq with hm | ⟨hm, -⟩
    · exact hnodyn hd hm
    · exact not_corrupt_of_fixed (hvalid (hfixed hm)) (hnodyn hd) hmay heq
  case unsupported =>
    obtain ⟨-, hd'⟩ := hunsupported heq
    rw [hd] at hd'
    cases hd'

end Sys2Proof.Machine

/-! Matches (43_block_processor.md R209, R211, R216, 45_dynamic_block.md R265): their fields in the order of the stream, the copy,
the errors, and the rows of the distance codes. -/

namespace Sys2Proof.Machine

/-! ### `COPY` -/

theorem exceedsCap_iff {s : State} {n : Nat} :
    exceedsCap s n = true ↔ ∃ cap, s.cfg.outCap = some cap ∧ cap < s.outLen + n := by
  unfold exceedsCap
  cases s.cfg.outCap <;> simp

/-- The errors of `COPY`, in their order (R241, R245). -/
theorem copy_error_iff {length distance : Nat} {s : State} {e : ErrCode} :
    copy length distance s = .error e ↔
      if s.outLen < distance then e = .distanceBeyondOutput
      else exceedsCap s length = true ∧ e = .outputCapacityExceeded := by
  unfold copy
  by_cases hd : s.outLen < distance
  · simp [hd, eq_comm (a := e)]
  · cases exceedsCap s length <;> simp [hd, eq_comm (a := e)]

/-- Settles O29: a copy that raises nothing is the loop, whose bytes have a closed form. -/
theorem copyResult : Obligations.CopyResult := fun length distance s => by
  refine ⟨exceedsCap_iff, fun hd => copy_error_iff.2 ?_, fun hd hcap => copy_error_iff.2 ?_, fun hmem hpos hd hroom => ?copied⟩
  · rw [if_pos hd]
  · rw [if_neg (Nat.not_lt.2 hd)]
    exact ⟨hcap, rfl⟩
  case copied =>
    obtain ⟨hin, hbelow, hout, hwithin⟩ := hmem
    obtain ⟨hout', hwithin'⟩ := outInv_copyLoop distance length hroom hout hwithin
    refine ⟨_, copy_ok.2 ⟨hd, hroom, rfl⟩, ?frame, appended_copyLoop length hout hpos hd, ?_, ?_, hout', hwithin'⟩
    case frame => rw [copyLoop_eq]
    · rwa [copyLoop_inMem]
    · rwa [copyLoop_inMem, copyLoop_cfg]

/-! ### The fields of a match -/

theorem distBase_pos : ∀ d < 30, 1 ≤ distBase d := by decide

theorem field_setBitpos (v : Nat) (s : State) (p n : Nat) : field (setBitpos v s) p n = field s p n := rfl

theorem hasBits_setBitpos {p n : Nat} {s : State} : HasBits (setBitpos p s) n ↔ p + n ≤ 8 * s.inSize := Iff.rfl

theorem consume_of_not_hasBits {n : Nat} {s : State} (h : ¬ HasBits s n) : consume n s = .error .truncatedStream :=
  consume_error.2 ⟨Nat.lt_of_not_le h, rfl⟩

theorem readLength_of_hasBits {sym : Nat} {s : State} (h : HasBits s (lenExtraBits sym)) :
    readLength sym s = .ok (lengthAt s sym s.bitpos, setBitpos (s.bitpos + lenExtraBits sym) s) :=
  readLength_ok.2 ⟨h, rfl, rfl⟩

theorem readLength_of_not_hasBits {sym : Nat} {s : State} (h : ¬ HasBits s (lenExtraBits sym)) :
    readLength sym s = .error .truncatedStream := by
  rw [readLength, readBits_of_not_hasBits h, error_bind]

/-- The raw distance code and the rest of the match are the distance part with that code (30_encoding.md R108). -/
theorem readFixedDist_bind (length : Nat) (s : State) :
    (readFixedDist s >>= fun p => matchTail length p.1 p.2) = distPart (rev 5 (field s s.bitpos 5)) 5 length s := by
  rw [distPart]
  by_cases h : HasBits s 5
  · rw [readFixedDist, readBits_eq h, consume_eq h]
    rfl
  · rw [readFixedDist, readBits_of_not_hasBits h, consume_of_not_hasBits h]
    rfl

/-- So it is with a distance code decoded with `TBL.DT` (45_dynamic_block.md R265). -/
theorem readTableDist_bind {d len : Nat} (length : Nat) {s : State} (h : decodeSym s.tblDt s = .ok (d, len)) :
    (readTableDist s >>= fun p => matchTail length p.1 p.2) = distPart d len length s := by
  rw [readTableDist, h, distPart]
  cases hc : consume len s <;> simp [hc]

/-- A match is its length and then its distance part (R209). -/
theorem matchFixed_of_length {sym len length : Nat} {s s1 s2 : State} (hc : consume len s = .ok s1)
    (hl : readLength sym s1 = .ok (length, s2)) :
    matchFixed sym len s = distPart (rev 5 (field s2 s2.bitpos 5)) 5 length s2 := by
  rw [matchFixed, hc, ok_bind, hl]
  exact readFixedDist_bind length s2

theorem matchSym_of_length {sym len length : Nat} {s s1 s2 : State} (hc : consume len s = .ok s1)
    (hl : readLength sym s1 = .ok (length, s2)) :
    matchSym sym len s = readDist s2 >>= fun p => matchTail length p.1 p.2 := by
  rw [matchSym, hc, ok_bind, hl]
  rfl

/-- The code of the length symbol and its extra bits, or the end of the input before that. -/
theorem length_or_truncated (sym len : Nat) (s : State) :
    (HasBits s (len + lenExtraBits sym) ∧ consume len s = .ok (setBitpos (s.bitpos + len) s) ∧
      readLength sym (setBitpos (s.bitpos + len) s) =
        .ok (lengthAt s sym (s.bitpos + len), setBitpos (s.bitpos + len + lenExtraBits sym) s)) ∨
    (¬ HasBits s (len + lenExtraBits sym) ∧ matchFixed sym len s = .error .truncatedStream ∧
      matchSym sym len s = .error .truncatedStream) := by
  by_cases h1 : HasBits s len
  · have hsame : HasBits (setBitpos (s.bitpos + len) s) (lenExtraBits sym) ↔ HasBits s (len + lenExtraBits sym) := by
      rw [HasBits, setBitpos_bitpos, setBitpos_inSize, HasBits, Nat.add_assoc]
    by_cases h2 : HasBits s (len + lenExtraBits sym)
    · exact .inl ⟨h2, consume_eq h1, readLength_of_hasBits (hsame.2 h2)⟩
    · have hl := readLength_of_not_hasBits (mt hsame.1 h2)
      refine .inr ⟨h2, ?_, ?_⟩
      · rw [matchFixed, consume_eq h1, ok_bind, hl, error_bind]
      · rw [matchSym, consume_eq h1, ok_bind, hl, error_bind]
  · refine .inr ⟨by omega, ?_, ?_⟩
    · rw [matchFixed, consume_of_not_hasBits h1, error_bind]
    · rw [matchSym, consume_of_not_hasBits h1, error_bind]

/-- In a fixed-Huffman block the distance code is the raw field, whichever row the length symbol has (R216). -/
theorem matchSym_of_fixed {sym len : Nat} {s : State} (hm : s.mode = .fixedHuffman) :
    matchSym sym len s = matchFixed sym len s := by
  rcases length_or_truncated sym len s with ⟨-, hc, hl⟩ | ⟨-, hfix, hsym⟩
  · rw [matchSym_of_length hc hl, matchFixed_of_length hc hl, readDist, setBitpos_mode, if_pos hm, readFixedDist_bind]
  · rw [hfix, hsym]

/-- A match of the fixed code, its fields in order (R204, R209); the distance code begins at `p2`. -/
theorem matchFixed_eq {sym len p2 : Nat} {s : State} (hp : p2 = s.bitpos + len + lenExtraBits sym) :
    matchFixed sym len s =
      if 8 * s.inSize < p2 + 5 then .error .truncatedStream
      else matchTail (lengthAt s sym (s.bitpos + len)) (rev 5 (field s p2 5)) (setBitpos (p2 + 5) s) := by
  rcases length_or_truncated sym len s with ⟨-, hc, hl⟩ | ⟨hb, hfix, -⟩
  · rw [matchFixed_of_length hc hl, ← hp, distPart]
    by_cases h : 8 * s.inSize < p2 + 5
    · rw [if_pos h, consume_of_not_hasBits (hasBits_setBitpos.not.2 (Nat.not_le.2 h)), error_bind]
    · rw [if_neg h, consume_eq (hasBits_setBitpos.2 (Nat.le_of_not_lt h)), ok_bind, field_setBitpos, setBitpos_bitpos,
        setBitpos_setBitpos]
  · have hlt : 8 * s.inSize < p2 + 5 := by omega
    rw [hfix, if_pos hlt]

/-- A match of a dynamic block: its distance code from the strict window at `p2` (45_dynamic_block.md R265). -/
theorem matchSym_eq {sym len p2 : Nat} {s : State} (hm : s.mode ≠ .fixedHuffman)
    (hp : p2 = s.bitpos + len + lenExtraBits sym) :
    matchSym sym len s =
      if 8 * s.inSize < p2 + 16 then .error .truncatedStream
      else decodeWindow s.tblDt (windowAt s p2) >>= fun r =>
        matchTail (lengthAt s sym (s.bitpos + len)) r.1 (setBitpos (p2 + r.2) s) := by
  rcases length_or_truncated sym len s with ⟨-, hc, hl⟩ | ⟨hb, -, hsym⟩
  · rw [matchSym_of_length hc hl, ← hp, readDist, setBitpos_mode, if_neg hm]
    by_cases h : 8 * s.inSize < p2 + 16
    · rw [if_pos h, readTableDist, decodeSym_of_not_hasBits (hasBits_setBitpos.not.2 (Nat.not_le.2 h)), error_bind, error_bind]
    · have hb : HasBits (setBitpos p2 s) 16 := hasBits_setBitpos.2 (Nat.le_of_not_lt h)
      have hdec : decodeSym (setBitpos p2 s).tblDt (setBitpos p2 s) = decodeWindow s.tblDt (windowAt s p2) := by
        rw [decodeSym_of_hasBits hb, windowAt, field_setBitpos, setBitpos_bitpos, setBitpos_tblDt, windowAt]
      rw [if_neg h]
      cases hw : decodeWindow s.tblDt (windowAt s p2) with
      | error e => rw [readTableDist, hdec, hw, error_bind, error_bind, error_bind]
      | ok r =>
        obtain ⟨d, dl⟩ := r
        obtain ⟨-, h15⟩ := decodeWindow_len hw
        have hfit : HasBits (setBitpos p2 s) dl := hasBits_setBitpos.2 (by omega)
        rw [readTableDist_bind _ (hdec.trans hw), distPart, consume_eq hfit, ok_bind, ok_bind, setBitpos_bitpos,
          setBitpos_setBitpos]
  · have hlt : 8 * s.inSize < p2 + 16 := by omega
    rw [hsym, if_pos hlt]

/-! ### The copy and the errors of a match -/

/-- The errors of a match whose length and distance code are known, in their order (R211, R245, R241). -/
theorem matchTail_error_iff {length d p : Nat} {s : State} {e : ErrCode} :
    matchTail length d (setBitpos p s) = .error e ↔
      if 30 ≤ d then e = .invalidDistanceCode
      else if 8 * s.inSize < p + distExtraBits d then e = .truncatedStream
      else if s.outLen < distanceAt s d p then e = .distanceBeyondOutput
      else exceedsCap s length = true ∧ e = .outputCapacityExceeded := by
  rw [matchTail]
  by_cases hd : 30 ≤ d
  · simp [hd, eq_comm (a := e)]
  rw [if_neg hd, if_neg hd]
  by_cases hb : 8 * s.inSize < p + distExtraBits d
  · rw [readBits_of_not_hasBits (s := setBitpos p s) (Nat.not_le.2 hb), error_bind, if_pos hb, Except.error.injEq, eq_comm]
  · rw [readBits_eq (s := setBitpos p s) (Nat.le_of_not_lt hb), ok_bind, if_neg hb]
    exact copy_error_iff

/-- A row that means a match yields the copy and moves the cursor past the extra bits of the distance (R209). -/
theorem yields_of_matchTail {i : Instr} {s : State} {length d p : Nat}
    (hexec : exec i s = finish s (matchTail length d (setBitpos p s))) (hp : s.bitpos ≤ p) (hmem : MemoryInv s) (hd : d < 30)
    (hin : p + distExtraBits d ≤ 8 * s.inSize) (hdist : distanceAt s d p ≤ s.outLen) (hroom : HasRoom s length) :
    Yields i s (p + distExtraBits d - s.bitpos) (copyBytes s length (distanceAt s d p)) := by
  obtain ⟨-, -, hwf, -⟩ := hmem
  have hpos : 1 ≤ distanceAt s d p := Nat.le_add_right_of_le (distBase_pos d hd)
  have hok : matchTail length d (setBitpos p s) =
      .ok (copyLoop (distanceAt s d p) length (setBitpos (p + distExtraBits d) s)) :=
    matchTail_ok.2 ⟨hd, hin, hdist, hroom, rfl⟩
  have hend : s.bitpos + (p + distExtraBits d - s.bitpos) = p + distExtraBits d := by omega
  refine ⟨_, exec_of_ok hexec hok, ?frame, appended_copyLoop (s := setBitpos (p + distExtraBits d) s) length hwf hpos hdist⟩
  case frame =>
    rw [hend, copyBytes_length, copyLoop_eq]
    rfl

/-- Settles O37: `matchFixed_eq` names the fields, `yields_of_matchTail` the copy. -/
theorem matchFixedCode : Obligations.MatchFixedCode := by
  intro k row s hk hrow hmem p1 p2 d p3 p4 length distance hd hin hdist hroom
  have hexec := lengthFixRows_exec k row s hk hrow
  rw [matchFixed_eq (p2 := p2) rfl, if_neg (by omega)] at hexec
  exact yields_of_matchTail hexec (by omega) hmem hd hin hdist hroom

/-- Settles O38: the two sources of the distance code. -/
theorem matchDecodedSymbol : Obligations.MatchDecodedSymbol := by
  intro k c mk s hk hrow hmem p1 p2 length hroom
  have hexec := lengthSymRows_exec k c mk s hk hrow
  refine ⟨fun hm => ?raw, fun hm d len hb hw => ?table⟩
  case raw =>
    intro d p4 hd hin hdist
    rw [matchSym_of_fixed hm, matchFixed_eq (p2 := p2) rfl, if_neg (by omega)] at hexec
    exact yields_of_matchTail hexec (by omega) hmem hd hin hdist hroom
  case table =>
    intro p4 hd hin hdist
    rw [matchSym_eq (p2 := p2) hm rfl, if_neg (Nat.not_lt.2 hb), hw, ok_bind] at hexec
    exact yields_of_matchTail hexec (by omega) hmem hd hin hdist hroom

/-- Settles O39: the errors before the distance code, then those of `matchTail`. -/
theorem matchErrorOrder : Obligations.MatchErrorOrder := by
  intro k c s e hk
  refine ⟨fun row hrow => ?fixed, fun mk hrow hm => ?table⟩
  case fixed =>
    intro p1 p2 d he
    refine raises_of_error (lengthFixRows_exec k row s hk hrow) ?_
    rw [matchFixed_eq (p2 := p2) rfl]
    split at he
    case isTrue h => rw [if_pos h, he]
    case isFalse h => exact (if_neg h).trans (matchTail_error_iff.2 he)
  case table =>
    intro p1 p2 he
    refine raises_of_error (lengthSymRows_exec k c mk s hk hrow) ?_
    rw [matchSym_eq (p2 := p2) hm rfl]
    split at he
    case isTrue h => rw [if_pos h, he]
    case isFalse h =>
      rw [if_neg h]
      split at he
      case h_1 e1 hw => rw [hw, error_bind, he]
      case h_2 d len hw =>
        rw [hw, ok_bind]
        exact matchTail_error_iff.2 he

end Sys2Proof.Machine

/-! The distance rows (43_block_processor.md R209, R211), alone and inside a match, and how a larger execution goes on as a row that
begins inside it (log entry 1). -/

namespace Sys2Proof.Machine

theorem distFixRows_exec (d length : Nat) (mk : Nat → Instr) (s : State) (h : distFixRows[d]? = some mk) :
    exec (mk length) s = finish s (distPart d 5 length s) := by
  have hd : d < 32 := (List.getElem?_eq_some_iff.1 h).1
  interval_cases d <;>
    (simp only [distFixRows, List.getElem?_cons_succ, List.getElem?_cons_zero, Option.some.injEq] at h; subst h; rfl)

theorem distSymRows_exec (d length len : Nat) (mk : Nat → Nat → Instr) (s : State) (h : distSymRows[d]? = some mk) :
    exec (mk length len) s = finish s (distPart d len length s) := by
  have hd : d < 32 := (List.getElem?_eq_some_iff.1 h).1
  interval_cases d <;>
    (simp only [distSymRows, List.getElem?_cons_succ, List.getElem?_cons_zero, Option.some.injEq] at h; subst h; rfl)

theorem distPart_of_hasBits {d len length : Nat} {s : State} (h : HasBits s len) :
    distPart d len length s = matchTail length d (setBitpos (s.bitpos + len) s) := by
  rw [distPart, consume_eq h, ok_bind]

/-- A row that means the distance part of a match yields the copy (R209). -/
theorem yields_of_distPart {i : Instr} {s : State} {d len length : Nat} (hexec : exec i s = finish s (distPart d len length s))
    (hmem : MemoryInv s) (hroom : HasRoom s length) (hd : d < 30) (hb : HasBits s (len + distExtraBits d))
    (hdist : distanceAt s d (s.bitpos + len) ≤ s.outLen) :
    Yields i s (len + distExtraBits d) (copyBytes s length (distanceAt s d (s.bitpos + len))) := by
  have hbits : len + distExtraBits d = s.bitpos + len + distExtraBits d - s.bitpos := by omega
  rw [distPart_of_hasBits (by omega)] at hexec
  rw [hbits]
  exact yields_of_matchTail hexec (Nat.le_add_right _ _) hmem hd (by omega) hdist hroom

/-- Settles O40: the rows of both formats mean the distance part of a match. -/
theorem distanceRows : Obligations.DistanceRows := fun d length s hd hmem hroom =>
  ⟨fun mk hrow => yields_of_distPart (distFixRows_exec d length mk s hrow) hmem hroom hd,
    fun mk len hrow => yields_of_distPart (distSymRows_exec d length len mk s hrow) hmem hroom hd⟩

/-- A distance code of 30 or 31 raises before any extra bit is read (R211). -/
theorem raises_of_distPart {i : Instr} {s : State} {d len length : Nat} (hexec : exec i s = finish s (distPart d len length s))
    (hd : 30 ≤ d) (hb : HasBits s len) : Raises i s .invalidDistanceCode := by
  refine raises_of_error hexec ?_
  rw [distPart_of_hasBits hb, matchTail_error_iff, if_pos hd]

/-- Settles O41: the four rows mean the distance part of a match with code 30 or 31. -/
theorem invalidDistanceCodes : Obligations.InvalidDistanceCodes := fun _ _ _ =>
  ⟨fun hb => ⟨raises_of_distPart rfl (by decide) hb, raises_of_distPart rfl (by decide) hb⟩,
    fun hb => ⟨raises_of_distPart rfl (by decide) hb, raises_of_distPart rfl (by decide) hb⟩⟩

/-! ### Going on as a row -/

/-- An execution that began in `s` and means the same as a row executed in `u` goes on as that row does: a row draws a free value
only where it raises, so the two cases of `GoesOnAs` are the two outcomes of its meaning. -/
theorem finish_of_goesOnAs {s u t : State} {r : Except ErrCode State} (hm : Meaning u r)
    (h : GoesOnAs s (finish u r) u t) : finish s r = .next t := by
  rcases h with ⟨hnext, hmode⟩ | ⟨e, hnext, rfl⟩
  · rcases finish_cases hnext with rfl | ⟨e, -, rfl⟩
    · rfl
    · exact absurd (raise_mode u e) hmode
  · rcases finish_cases hnext with hok | ⟨e', he', hraise⟩
    · obtain ⟨-, hfree⟩ := noRaise_of_meaning hm hok
      exact absurd hfree (Nat.succ_ne_self _)
    · have herr : e = e' := by simpa using congrArg State.err hraise
      rw [he', herr, finish]

/-- What a match goes on with: the distance part with the code and the length the latches hold. -/
theorem exec_of_distPart {i row : Instr} {d len length : Nat} {s u t : State} {r : Except ErrCode State}
    (hrow : exec row s = finish s r) (hr : r = distPart d len length u) (hexec : exec i u = finish u (distPart d len length u))
    (h : GoesOnAs s (exec i u) u t) : exec row s = .next t := by
  rw [hexec] at h
  rw [hrow, hr]
  exact finish_of_goesOnAs (.distPart d len length) h

/-- The FIXDIST row of a raw distance code means the distance part with that code (30_encoding.md R108). -/
theorem fixdist_exec {length v : Nat} {i : Instr} (u : State)
    (h : decode .fixdist (matchLatches length 0) (pad (rev 5 v) 5) = .ok i) :
    exec i u = finish u (distPart (rev 5 v) 5 length u) := by
  rw [decode] at h
  split at h
  · rw [unpad_pad (by decide) (rev_lt 5 v)] at h
    obtain ⟨mk, hmk, rfl⟩ := Option.map_eq_some_iff.1 (orReject_ok.1 h)
    exact distFixRows_exec _ _ mk u hmk
  · cases h

/-- The DSYM row of a decoded distance symbol (45_dynamic_block.md R265). -/
theorem dsym_exec {length len d : Nat} {i : Instr} (u : State) (h : decode .dsym (matchLatches length len) d = .ok i) :
    exec i u = finish u (distPart d len length u) := by
  obtain ⟨mk, hmk, rfl⟩ := Option.map_eq_some_iff.1 (orReject_ok.1 h)
  exact distSymRows_exec _ _ _ mk u hmk

/-- Settles O9: after its length a match is the distance part that the row means. -/
theorem matchRunsDistanceRow : Obligations.MatchRunsDistanceRow := by
  intro k c d len length i s s1 s2 t hk hc hl h
  have hmode : s2.mode = s.mode := by
    obtain ⟨-, rfl⟩ := consume_ok.1 hc
    obtain ⟨-, -, rfl⟩ := readLength_ok.1 hl
    rw [setBitpos_mode, setBitpos_mode]
  refine ⟨fun row hrow hlen hi => ?fixll, fun mk hrow hm hi => ?raw, fun mk hrow hm hd hi => ?table⟩
  case fixll =>
    have hexec := lengthFixRows_exec k row s hk hrow
    rw [← hlen] at hexec
    exact exec_of_distPart hexec (matchFixed_of_length hc hl) (fixdist_exec s2 hi) h
  case raw =>
    have hexec := lengthSymRows_exec k c mk s hk hrow
    rw [matchSym_of_fixed hm] at hexec
    exact exec_of_distPart hexec (matchFixed_of_length hc hl) (fixdist_exec s2 hi) h
  case table =>
    have hmatch : matchSym (257 + k) c s = distPart d len length s2 := by
      rw [matchSym_of_length hc hl, readDist, hmode, if_neg hm, readTableDist_bind length hd]
    exact exec_of_distPart (lengthSymRows_exec k c mk s hk hrow) hmatch (dsym_exec s2 hi) h

end Sys2Proof.Machine

/-! The coded code lengths of a dynamic header (45_dynamic_block.md R261 to R266): the loop turn by turn, the rows of its symbols,
the finished header, and its errors. -/

namespace Sys2Proof.Machine

/-! ### The loop -/

/-- A turn of the loop with its symbol decoded: the code is consumed and the symbol extends the sequence (R261, R263). -/
def clTurn (sym len tot : Nat) (lens : List Nat) (s : State) : Except ErrCode (List Nat × State) :=
  consume len s >>= fun s1 => clSymbol sym tot lens s1

theorem clLoop_turn {tot k : Nat} {lens : List Nat} {s : State} (hlt : lens.length < tot) (hk : 1 ≤ k) :
    clLoop tot k lens s =
      decodeSym s.tblClt s >>= fun d => clTurn d.1 d.2 tot lens s >>= fun p => clLoop tot (k - 1) p.1 p.2 := by
  obtain ⟨k, rfl⟩ := Nat.exists_eq_add_of_le' hk
  rw [clLoop, if_pos hlt]
  simp only [clTurn, bind_assoc]
  rfl

theorem clLoop_complete {tot k : Nat} {lens : List Nat} {s : State} (h : tot ≤ lens.length) :
    clLoop tot k lens s = .ok (lens, s) := by
  cases k with
  | zero => rfl
  | succ k => rw [clLoop, if_neg (Nat.not_lt.2 h)]

/-- Every turn appends at least one length, so any number of turns that covers what is missing will do (log entry 22). -/
theorem clLoop_fuel {tot k m : Nat} {lens : List Nat} {s : State} (hk : tot ≤ lens.length + k) (hm : tot ≤ lens.length + m) :
    clLoop tot k lens s = clLoop tot m lens s := by
  induction k generalizing m lens s with
  | zero => rw [clLoop_complete hk, clLoop_complete hk]
  | succ k ih =>
    by_cases hlt : lens.length < tot
    case neg => rw [clLoop_complete (Nat.le_of_not_lt hlt), clLoop_complete (Nat.le_of_not_lt hlt)]
    rw [clLoop_turn hlt (Nat.le_add_left 1 k), clLoop_turn (k := m) hlt (by omega)]
    refine bind_congr fun d => ?_
    cases hturn : clTurn d.1 d.2 tot lens s with
    | error e => rfl
    | ok p =>
      obtain ⟨s1, -, hsym⟩ := bind_ok.1 hturn
      obtain ⟨-, hgrows, -⟩ := clSymbol_ok hlt hsym
      exact ih (by omega) (by omega)

/-- From an incomplete sequence the header goes on with the symbol at the cursor (R261). -/
theorem finishLengths_turn {nl nd sym len : Nat} {lens : List Nat} {s : State} (hlt : lens.length < nl + nd)
    (hdec : decodeSym s.tblClt s = .ok (sym, len)) :
    finishLengths nl nd lens s = clTurn sym len (nl + nd) lens s >>= fun p => finishLengths nl nd p.1 p.2 := by
  rw [finishLengths, clLoop_turn hlt (by omega), hdec, ok_bind]
  cases hturn : clTurn sym len (nl + nd) lens s with
  | error e => rfl
  | ok p =>
    obtain ⟨s1, -, hsym⟩ := bind_ok.1 hturn
    obtain ⟨-, hgrows, -⟩ := clSymbol_ok hlt hsym
    rw [ok_bind, ok_bind, finishLengths, clLoop_fuel (m := nl + nd) (by omega) (by omega)]

/-! ### The header and the rows inside it -/

/-- With its fields read a header is the sequence of code lengths from its beginning: the 19 lengths are operands of `BUILD`. -/
theorem dynHeader_of_fields {s s0 : State} {nl nd : Nat} {cl : List Nat} (h : readDynFields s = .ok (nl, nd, cl, s0)) :
    dynHeader s = finishLengths nl nd [] (setClt (tableOf cl) s0) := by
  obtain ⟨-, -, -, -, -, -, hlen, h16⟩ := readDynFields_ok h
  have hbuild : build cl = .ok (tableOf cl) := build_eq (by rw [hlen]; decide) h16
  rw [dynHeader, h, ok_bind]
  simp only [hbuild, ok_bind]

/-- A CLSYM row means the turn of the loop for its symbol and then the rest of the header (R263). -/
theorem clsymInstr_exec {sym len : Nat} {q : ClSeq} {i : Instr} (u : State) (h : clsymInstr sym len q = some i) :
    ∃ r, Meaning u r ∧ exec i u = finish u r ∧
      r = clTurn sym len (q.nl + q.nd) q.lens u >>= fun p => finishLengths q.nl q.nd p.1 p.2 := by
  unfold clsymInstr at h
  split at h
  case isTrue hsym =>
    cases h
    refine ⟨_, .clLen (BitVec.ofNat 4 sym) len q, rfl, ?_⟩
    have hnat : (BitVec.ofNat 4 sym).toNat = sym := (BitVec.toNat_ofNat sym 4).trans (Nat.mod_eq_of_lt hsym)
    simp only [clTurn, clSymbol, if_pos hsym, bind_assoc, ok_bind, hnat]
  case isFalse hsym =>
    obtain hk | hk | hk | hk : sym - 16 = 0 ∨ sym - 16 = 1 ∨ sym - 16 = 2 ∨ 3 ≤ sym - 16 := by omega
    case _ =>
      obtain rfl : sym = 16 := by omega
      cases h
      exact ⟨_, .clRep len q, rfl, (bind_assoc _ _ _).symm⟩
    case _ =>
      obtain rfl : sym = 17 := by omega
      cases h
      exact ⟨_, .clZeros 3 3 len q (by decide), rfl, (bind_assoc _ _ _).symm⟩
    case _ =>
      obtain rfl : sym = 18 := by omega
      cases h
      exact ⟨_, .clZeros 11 7 len q (by decide), rfl, (bind_assoc _ _ _).symm⟩
    case _ =>
      rw [List.getElem?_eq_none (show [Instr.clRep len q, .clZero3 len q, .clZero11 len q].length ≤ sym - 16 from hk)] at h
      cases h

/-- Settles O10: each row is the rest of the header from the sequence so far, and that is the row of the next symbol. -/
theorem headerRunsCodeLengthRows : Obligations.HeaderRunsCodeLengthRows := by
  intro s s1 t j nl nd sym len lens hdec hj hlt h
  have hgo {row : Instr} (hrow : exec row s = finish s (finishLengths nl nd lens s1)) : exec row s = .next t := by
    obtain ⟨r, hm, hexec, hr⟩ := clsymInstr_exec s1 (orReject_ok.1 hj)
    rw [hexec] at h
    rw [hrow, finishLengths_turn hlt hdec]
    exact finish_of_goesOnAs (hr ▸ hm) (hr ▸ h)
  refine ⟨fun cl s0 hfields hs1 hlens => hgo ?header, fun l c lens0 hlens hc => hgo ?length, fun c lens0 s0 hc hrun => hgo ?rep,
    fun c lens0 s0 hc hrun => hgo ?zero3, fun c lens0 s0 hc hrun => hgo ?zero11⟩
  case header =>
    rw [hlens, hs1, ← dynHeader_of_fields hfields]
    rfl
  case length =>
    rw [hlens, exec, execClLen, hc, ok_bind]
  case rep => rw [exec, execClRep, hc, ok_bind, hrun, ok_bind]
  case zero3 => rw [exec, execClZero3, hc, ok_bind, hrun, ok_bind]
  case zero11 => rw [exec, execClZero11, hc, ok_bind, hrun, ok_bind]

/-! ### The complete header -/

/-- A complete sequence of code lengths builds both tables (R264). -/
theorem finishLengths_complete {nl nd : Nat} {lens : List Nat} {s : State} (hlen : lens.length = nl + nd)
    (h16 : ∀ l ∈ lens, l < 16) (hnl : nl ≤ 288) (hnd : nd ≤ 288) :
    finishLengths nl nd lens s = .ok (headerDone s s.bitpos nl lens) := by
  have hdrop : (lens.drop nl).take nd = lens.drop nl := List.take_of_length_le (by rw [List.length_drop]; omega)
  have hL : build (lens.take nl) = .ok (tableOf (lens.take nl)) :=
    build_eq (by rw [List.length_take, maxSym]; omega) fun l hl => h16 l (List.mem_of_mem_take hl)
  have hD : build (lens.drop nl) = .ok (tableOf (lens.drop nl)) :=
    build_eq (by rw [List.length_drop, maxSym]; omega) fun l hl => h16 l (List.mem_of_mem_drop hl)
  rw [finishLengths, clLoop_complete (Nat.le_of_eq hlen.symm), ok_bind]
  simp only [buildDynamic, hdrop, hL, hD, ok_bind]
  rfl

/-- A header whose loop completes goes on from its end. -/
theorem finishLengths_of_clLoop {nl nd : Nat} {lens : List Nat} {s u : State}
    (h : clLoop (nl + nd) (nl + nd) [] s = .ok (lens, u)) : finishLengths nl nd [] s = finishLengths nl nd lens u := by
  obtain ⟨-, hlen, -⟩ := clLoop_ok (Nat.le_add_left _ _) (Nat.zero_le _) h
  rw [finishLengths, h, finishLengths, clLoop_complete (Nat.le_of_eq hlen.symm)]

/-- Settles O43: the loop ends with `nl + nd` lengths below 16, whose tables `finishLengths_complete` builds. -/
theorem dynHeaderBuildsTables : Obligations.DynHeaderBuildsTables := by
  intro s s1 s2 nl nd cl lens hfields hloop
  obtain ⟨⟨hs1, hle1, hin1⟩, h26, -, hnl, -, hnd, -⟩ := readDynFields_ok hfields
  obtain ⟨⟨hs2, hle2, hin2⟩, hlen, hbelow⟩ := clLoop_ok (Nat.le_add_left _ _) (Nat.zero_le _) hloop
  have h16 : ∀ l ∈ lens, l < 16 := hbelow fun l hl => absurd hl List.not_mem_nil
  have hsize : (setClt (tableOf cl) s1).inSize = s.inSize := by rw [setClt_inSize, hs1, setBitpos_inSize]
  rw [setClt_bitpos] at hle2 hin2
  refine ⟨hlen, h16, by omega, by omega, ?exec⟩
  case exec =>
    refine exec_of_ok (r := dynHeader s) rfl ?_
    rw [dynHeader_of_fields hfields, finishLengths_of_clLoop hloop,
      finishLengths_complete hlen h16 hnl (Nat.le_trans hnd (by decide)), hs2, hs1]
    rfl

/-! ### Errors of the header -/

theorem raises_of_finishLengths {s s0 : State} {nl nd : Nat} {cl : List Nat} {e : ErrCode}
    (hfields : readDynFields s = .ok (nl, nd, cl, s0)) (h : finishLengths nl nd [] (setClt (tableOf cl) s0) = .error e) :
    Raises .dynhdr s e :=
  raises_of_error (r := dynHeader s) rfl ((dynHeader_of_fields hfields).trans h)

/-- Settles O44: an error of the loop, or of its first turn, is the error of the header. -/
theorem dynHeaderErrors : Obligations.DynHeaderErrors := by
  intro s s1 nl nd len cl e hfields u
  obtain ⟨-, -, hnl, -⟩ := readDynFields_ok hfields
  have hempty : ([] : List Nat).length < nl + nd := Nat.lt_add_right nd (Nat.lt_of_lt_of_le (by decide) hnl)
  refine ⟨fun hloop => ?loop, fun hdec => ?undecoded, fun hdec => ?repeated⟩
  case loop =>
    have hraises : Raises .dynhdr s e := raises_of_finishLengths hfields (bind_error.2 (.inl hloop))
    refine ⟨hraises, clLoop_raises hloop, fun hm hv => (step_of_fetch_ok ?_).trans hraises⟩
    simp only [fetch, hm, hv, Bool.false_eq_true, if_false]
  case undecoded =>
    refine raises_of_finishLengths hfields (bind_error.2 (.inl ?_))
    rw [clLoop_turn hempty (by omega), hdec, error_bind]
  case repeated =>
    obtain ⟨hb, hw⟩ := decodeSym_ok.1 hdec
    obtain ⟨-, h15⟩ := decodeWindow_len hw
    refine raises_of_finishLengths hfields ?_
    rw [finishLengths_turn hempty hdec, clTurn, consume_eq (by omega), ok_bind]
    rfl

/-! ### The rows of code-length symbols -/

theorem clRepeat_of_hasBits {tot v : Nat} {lens : List Nat} {s : State} (hv : lens.getLast? = some v) (hb : HasBits s 2) :
    clRepeat tot lens s =
      appendRun tot (3 + field s s.bitpos 2) v lens >>= fun lens1 => .ok (lens1, setBitpos (s.bitpos + 2) s) := by
  rw [clRepeat, hv]
  simp only [readBits_eq hb, ok_bind]
  rfl

theorem clRepeat_of_not_hasBits {tot : Nat} {lens : List Nat} {s : State} (hne : lens ≠ []) (hb : ¬ HasBits s 2) :
    clRepeat tot lens s = .error .truncatedStream := by
  rw [clRepeat, List.getLast?_eq_some_getLast hne]
  simp only [readBits_of_not_hasBits hb, error_bind]

theorem clZeros_of_hasBits {base n tot : Nat} {lens : List Nat} {s : State} {width : n ≤ 16} (hb : HasBits s n) :
    clZeros base n tot lens s width =
      appendRun tot (base + field s s.bitpos n) 0 lens >>= fun lens1 => .ok (lens1, setBitpos (s.bitpos + n) s) := by
  rw [clZeros, readBits_eq hb, ok_bind]
  rfl

theorem clZeros_of_not_hasBits {base n tot : Nat} {lens : List Nat} {s : State} {width : n ≤ 16} (hb : ¬ HasBits s n) :
    clZeros base n tot lens s width = .error .truncatedStream := by
  rw [clZeros, readBits_of_not_hasBits hb, error_bind]

theorem appendRun_of_le {tot r v : Nat} {lens : List Nat} (h : lens.length + r ≤ tot) :
    appendRun tot r v lens = .ok (lens ++ List.replicate r v) :=
  appendRun_ok.2 ⟨h, rfl⟩

theorem appendRun_of_gt {tot r v : Nat} {lens : List Nat} (h : tot < lens.length + r) :
    appendRun tot r v lens = .error .invalidCodeLengthTable := by
  rw [appendRun, if_pos h]

/-- A row whose symbol takes `m` bits in all and completes the sequence (R263, R264). -/
theorem exec_of_complete {i : Instr} {s : State} {m : Nat} {q : ClSeq} {lens : List Nat}
    (hexec : exec i s = finish s (finishLengths q.nl q.nd lens (setBitpos m s))) (hlen : lens.length = q.nl + q.nd)
    (h16 : ∀ l ∈ lens, l < 16) (hnl : q.nl ≤ 288) (hnd : q.nd ≤ 288) : exec i s = .next (headerDone s m q.nl lens) :=
  exec_of_ok hexec (finishLengths_complete hlen h16 hnl hnd)

theorem forall_append_replicate {lens : List Nat} {v : Nat} (n : Nat) (h : ∀ l ∈ lens, l < 16) (hv : v < 16) :
    ∀ l ∈ lens ++ List.replicate n v, l < 16 := fun l hl => by
  rcases List.mem_append.1 hl with hl | hl
  · exact h l hl
  · rw [List.eq_of_mem_replicate hl]
    exact hv

/-- The two rows of zeros, by the number of their extra bits and the least run (R263). -/
theorem exec_of_zeros {i : Instr} {s : State} {len base n : Nat} {q : ClSeq} {width : n ≤ 16}
    (hexec : exec i s = finish s (consume len s >>= fun s1 =>
      clZeros base n (q.nl + q.nd) q.lens s1 width >>= fun p => finishLengths q.nl q.nd p.1 p.2))
    (h16 : ∀ l ∈ q.lens, l < 16) (hnl : q.nl ≤ 288) (hnd : q.nd ≤ 288) (hb : HasBits s (len + n))
    (htot : q.lens.length + (base + field s (s.bitpos + len) n) = q.nl + q.nd) :
    exec i s = .next (headerDone s (s.bitpos + len + n) q.nl
      (q.lens ++ List.replicate (base + field s (s.bitpos + len) n) 0)) := by
  have hb1 : HasBits s len := by omega
  have hb2 : HasBits (setBitpos (s.bitpos + len) s) n := hasBits_setBitpos.2 (by omega)
  rw [consume_eq hb1, ok_bind, clZeros_of_hasBits hb2, field_setBitpos, setBitpos_bitpos,
    appendRun_of_le (Nat.le_of_eq htot), ok_bind, ok_bind, setBitpos_setBitpos] at hexec
  exact exec_of_complete hexec (by rw [List.length_append, List.length_replicate, htot])
    (forall_append_replicate _ h16 (by decide)) hnl hnd

/-- Settles O45: each row appends its run, and the complete sequence builds the tables. -/
theorem codeLengthRowsComplete : Obligations.CodeLengthRowsComplete := by
  intro s q len h16 hnl hnd
  refine ⟨fun l hb htot => ?length, fun v hv hb htot => ?rep, exec_of_zeros rfl h16 hnl hnd, exec_of_zeros rfl h16 hnl hnd⟩
  case length =>
    have hexec : exec (.clLen l len q) s =
        finish s (finishLengths q.nl q.nd (q.lens ++ [l.toNat]) (setBitpos (s.bitpos + len) s)) := by
      rw [exec, execClLen, consume_eq hb, ok_bind]
    exact exec_of_complete hexec (by rw [List.length_append, List.length_singleton, htot])
      (forall_append_replicate 1 h16 l.isLt) hnl hnd
  case rep =>
    have hb1 : HasBits s len := by omega
    have hb2 : HasBits (setBitpos (s.bitpos + len) s) 2 := hasBits_setBitpos.2 (by omega)
    have hexec : exec (.clRep len q) s = finish s (consume len s >>= fun s1 =>
        clRepeat (q.nl + q.nd) q.lens s1 >>= fun p => finishLengths q.nl q.nd p.1 p.2) := rfl
    rw [consume_eq hb1, ok_bind, clRepeat_of_hasBits hv hb2, field_setBitpos, setBitpos_bitpos,
      appendRun_of_le (Nat.le_of_eq htot), ok_bind, ok_bind, setBitpos_setBitpos] at hexec
    exact exec_of_complete hexec (by rw [List.length_append, List.length_replicate, htot])
      (forall_append_replicate _ h16 (h16 v (List.mem_of_getLast? hv))) hnl hnd

/-- A row of zeros without its extra bits, or whose run is too long (R263). -/
theorem raises_of_zeros {i : Instr} {s : State} {len base n : Nat} {q : ClSeq} {width : n ≤ 16}
    (hexec : exec i s = finish s (consume len s >>= fun s1 =>
      clZeros base n (q.nl + q.nd) q.lens s1 width >>= fun p => finishLengths q.nl q.nd p.1 p.2)) :
    (¬ HasBits s (len + n) → Raises i s .truncatedStream) ∧
    (HasBits s (len + n) → q.nl + q.nd < q.lens.length + (base + field s (s.bitpos + len) n) →
      Raises i s .invalidCodeLengthTable) := by
  refine ⟨fun hb => raises_of_error hexec ?_, fun hb hover => raises_of_error hexec ?_⟩
  · by_cases hb1 : HasBits s len
    · have hb2 : ¬ HasBits (setBitpos (s.bitpos + len) s) n := hasBits_setBitpos.not.2 (by omega)
      rw [consume_eq hb1, ok_bind, clZeros_of_not_hasBits hb2, error_bind]
    · rw [consume_of_not_hasBits hb1, error_bind]
  · have hb1 : HasBits s len := by omega
    have hb2 : HasBits (setBitpos (s.bitpos + len) s) n := hasBits_setBitpos.2 (by omega)
    rw [consume_eq hb1, ok_bind, clZeros_of_hasBits hb2, field_setBitpos, setBitpos_bitpos, appendRun_of_gt hover, error_bind,
      error_bind]

/-- Settles O46: the checks of CL_REP in their order, and those of the two rows of zeros. -/
theorem codeLengthErrors : Obligations.CodeLengthErrors := by
  intro s q len
  have hexec : exec (.clRep len q) s = finish s (consume len s >>= fun s1 =>
      clRepeat (q.nl + q.nd) q.lens s1 >>= fun p => finishLengths q.nl q.nd p.1 p.2) := rfl
  obtain ⟨hshort3, hlong3⟩ := raises_of_zeros (i := .clZero3 len q) (s := s) rfl
  obtain ⟨hshort11, hlong11⟩ := raises_of_zeros (i := .clZero11 len q) (s := s) rfl
  refine ⟨fun hnil hb => raises_of_error hexec ?first, fun hne hb => raises_of_error hexec ?truncated,
    fun hne hb hover => raises_of_error hexec ?long, hshort3, hlong3, hshort11, hlong11⟩
  case first => rw [consume_eq hb, ok_bind, clRepeat, hnil, List.getLast?_nil, error_bind]
  case truncated =>
    by_cases hb1 : HasBits s len
    · have hb2 : ¬ HasBits (setBitpos (s.bitpos + len) s) 2 := hasBits_setBitpos.not.2 (by omega)
      rw [consume_eq hb1, ok_bind, clRepeat_of_not_hasBits hne hb2, error_bind]
    · rw [consume_of_not_hasBits hb1, error_bind]
  case long =>
    have hb1 : HasBits s len := by omega
    have hb2 : HasBits (setBitpos (s.bitpos + len) s) 2 := hasBits_setBitpos.2 (by omega)
    rw [consume_eq hb1, ok_bind, clRepeat_of_hasBits (List.getLast?_eq_some_getLast hne) hb2, field_setBitpos, setBitpos_bitpos,
      appendRun_of_gt hover, error_bind, error_bind]

end Sys2Proof.Machine

/-! One step as one operation (43_block_processor.md R200): what is fetched and what its row means, put together by the mode. -/

namespace Sys2Proof.Machine

/-- What symbol `sym` of a Huffman block does, its code having `len` bits (R207 to R210). -/
def symbolAct (sym len : Nat) (s : State) : Except ErrCode State :=
  if sym < 256 then literal (BitVec.ofNat 8 sym) len s
  else if sym = 256 then endOfBlock len s
  else if sym < 286 then matchSym sym len s
  else .error .invalidLengthCode

/-- A symbol decoded with `T`, and what it does (R204, 45_dynamic_block.md R265). -/
def symbolStep (T : DecodeTable) (s : State) : Except ErrCode State :=
  decodeSym T s >>= fun d => symbolAct d.1 d.2 s

/-- What BTYPE decides once the three bits are read (R201, R205, R206). -/
def enterBlock (btype : Nat) (s : State) : Except ErrCode State :=
  match btype with
  | 0 => .ok (setMode .stored s)
  | 1 => enterFixed s
  | 2 => enterDynamic s
  | _ => .error .invalidBlockType

/-- A block header (R201). -/
def headerStep (s : State) : Except ErrCode State :=
  readBits 1 s >>= fun f => readBits 2 f.2 >>= fun t => enterBlock t.1 (setBfinal (decide (f.1 = 1)) t.2)

/-- A step, by the mode (R200). -/
def stepAct (s : State) : Except ErrCode State :=
  match s.mode with
  | .readBlockHeader => headerStep s
  | .stored => storedBody s >>= fun s1 => .ok (blockEnd s1)
  | .fixedHuffman => symbolStep s.tblFixll s
  | .dynamicHuffman => if s.dynValid = true then symbolStep s.tblLl s else dynHeader s
  | .idle | .done | .error => .ok s

/-! ### Symbols -/

theorem symbolAct_match {sym len : Nat} (s : State) (h : 257 ≤ sym) (h' : sym < 286) :
    symbolAct sym len s = matchSym sym len s := by
  rw [symbolAct, if_neg (by omega), if_neg (by omega), if_pos h']

theorem symbolAct_invalid {sym len : Nat} (s : State) (h : 286 ≤ sym) : symbolAct sym len s = .error .invalidLengthCode := by
  rw [symbolAct, if_neg (by omega), if_neg (by omega), if_neg (by omega)]

/-- The LLSYM row of a symbol does what the symbol does (30_encoding.md R112). -/
theorem llsymInstr_exec {sym len : Nat} {i : Instr} {s : State} (hb : HasBits s len) (h : llsymInstr sym len = some i) :
    exec i s = finish s (symbolAct sym len s) := by
  unfold llsymInstr at h
  split at h
  case isTrue hlit =>
    cases h
    rw [symbolAct, if_pos hlit]
    rfl
  split at h
  case isTrue hlit heob =>
    cases h
    rw [symbolAct, if_neg hlit, if_pos heob]
    rfl
  case isFalse hlit heob =>
    obtain ⟨mk, hmk, rfl⟩ := Option.map_eq_some_iff.1 h
    have hlt : sym - 257 < 31 := (List.getElem?_eq_some_iff.1 hmk).1
    by_cases h29 : sym - 257 < 29
    · have hsym : 257 + (sym - 257) = sym := by omega
      rw [symbolAct_match s (by omega) (by omega), lengthSymRows_exec _ len mk s h29 hmk, hsym]
    · rw [symbolAct_invalid s (by omega), ← badLength_of_hasBits hb]
      obtain hk | hk : sym - 257 = 29 ∨ sym - 257 = 30 := by omega
      all_goals
        rw [hk] at hmk
        cases hmk
        rfl

/-- The data field of a literal code above the first symbol of its row is the byte (30_encoding.md R104). -/
theorem rowByte_field {n first sym : Nat} (hlo : first ≤ sym) (hhi : sym < first + 2 ^ n) :
    rowByte first (BitVec.ofNat n (sym - first)).toNat = BitVec.ofNat 8 sym := by
  rw [rowByte, BitVec.toNat_ofNat, Nat.mod_eq_of_lt (by omega), Nat.add_sub_of_le hlo]

/-- So does the FIXLL row, in a fixed-Huffman block (30_encoding.md R104). -/
theorem fixllInstr_exec {sym : Nat} {i : Instr} {s : State} (hm : s.mode = .fixedHuffman)
    (hb : HasBits s (romFixedLengths.getD sym 0)) (h : fixllInstr sym = some i) :
    exec i s = finish s (symbolAct sym (romFixedLengths.getD sym 0) s) := by
  have hlt : sym < 288 := by
    by_contra hge
    rw [fixllInstr] at h
    repeat rw [if_neg (by omega)] at h
    rw [List.getElem?_eq_none (by change 31 ≤ _; omega)] at h
    cases h
  rw [romFixedLengths_getD sym hlt] at hb ⊢
  have hliteral {first n len : Nat} (hlo : first ≤ sym) (hhi : sym < first + 2 ^ n) (h256 : sym < 256) :
      finish s (literal (rowByte first (BitVec.ofNat n (sym - first)).toNat) len s) = finish s (symbolAct sym len s) := by
    rw [rowByte_field hlo hhi, symbolAct, if_pos h256]
  unfold fixllInstr at h
  split at h
  · cases h; rw [if_pos (by omega)]; exact hliteral (first := 0) (by omega) (by omega) (by omega)
  split at h
  · cases h; rw [if_pos (by omega)]; exact hliteral (by omega) (by omega) (by omega)
  split at h
  · cases h; rw [if_pos (by omega)]; exact hliteral (by omega) (by omega) (by omega)
  rw [if_neg (by omega)] at hb ⊢
  split at h
  · cases h; rw [if_pos (by omega)]; exact hliteral (by omega) (by omega) (by omega)
  split at h
  · cases h; rw [if_pos (by omega)]; exact hliteral (by omega) (by omega) (by omega)
  split at h
  · cases h; rw [if_pos (by omega)]; exact hliteral (by omega) (by omega) (by omega)
  rw [if_neg (by omega)] at hb ⊢
  split at h
  case isTrue heob =>
    cases h
    rw [symbolAct, if_neg (by omega), if_pos heob, if_pos (by omega)]
    rfl
  by_cases h29 : sym - 257 < 29
  · have hsym : 257 + (sym - 257) = sym := by omega
    have hlen : (if sym - 257 < 23 then 7 else 8) = if sym < 280 then 7 else 8 := by split <;> split <;> omega
    rw [symbolAct_match s (by omega) (by omega), lengthFixRows_exec _ i s h29 h, hsym, hlen, matchSym_of_fixed hm]
  · rw [if_neg (by omega)] at hb ⊢
    rw [symbolAct_invalid s (by omega), ← badLength_of_hasBits hb]
    obtain hk | hk : sym - 257 = 29 ∨ sym - 257 = 30 := by omega
    all_goals
      rw [hk] at h
      cases h
      rfl

/-- A symbol of the block in progress, from its fetch: a symbol without a row raises what the symbols from 286 on raise. -/
theorem step_of_symbol {T : DecodeTable} {s : State} {row : Nat → Nat → Option Instr}
    (hfetch : fetch s = some (decodeSym T s >>= fun d => orRaise (orReject .noSuchSymbol (row d.1 d.2))))
    (hexec : ∀ sym len i, HasBits s len → row sym len = some i → exec i s = finish s (symbolAct sym len s))
    (hnone : ∀ sym len, row sym len = none → 286 ≤ sym) : step s = finish s (symbolStep T s) := by
  rw [symbolStep]
  cases hd : decodeSym T s with
  | error e =>
    rw [hd] at hfetch
    exact step_of_fetch_error hfetch
  | ok d =>
    obtain ⟨sym, len⟩ := d
    obtain ⟨hb, hw⟩ := decodeSym_ok.1 hd
    obtain ⟨-, h15⟩ := decodeWindow_len hw
    rw [hd, ok_bind] at hfetch
    rw [ok_bind]
    cases hrow : row sym len with
    | none =>
      rw [hrow] at hfetch
      rw [symbolAct_invalid s (hnone sym len hrow)]
      exact step_of_fetch_error hfetch
    | some i =>
      rw [hrow] at hfetch
      exact (step_of_fetch_ok hfetch).trans (hexec sym len i (by omega) hrow)

theorem le_of_llsymInstr_none {sym len : Nat} (h : llsymInstr sym len = none) : 286 ≤ sym := by
  by_contra hlt
  obtain ⟨i, hi⟩ := llsymInstr_exists len (show sym < 288 by omega)
  rw [h] at hi
  cases hi

theorem step_eq_fixed {s : State} (hm : s.mode = .fixedHuffman) : step s = finish s (symbolStep s.tblFixll s) := by
  refine step_of_symbol (row := fixedBlockInstr) (by rw [fetch, hm]; rfl) (fun sym len i hb h => ?_) fun sym len h => ?_
  all_goals
    rw [fixedBlockInstr] at h
    split at h
  case _ hlen =>
    subst hlen
    exact fixllInstr_exec hm hb h
  case _ => exact llsymInstr_exec hb h
  case _ =>
    by_contra hlt
    obtain ⟨i, hi⟩ := fixllInstr_exists (show sym < 288 by omega)
    rw [h] at hi
    cases hi
  case _ => exact le_of_llsymInstr_none h

theorem step_eq_dynamic {s : State} (hm : s.mode = .dynamicHuffman) (hv : s.dynValid = true) :
    step s = finish s (symbolStep s.tblLl s) := by
  refine step_of_symbol (row := llsymInstr) ?_ (fun sym len i hb h => llsymInstr_exec hb h) fun sym len h =>
    le_of_llsymInstr_none h
  simp only [fetch, hm, hv, if_true]
  rfl

/-! ### Headers -/

theorem headerStep_of_not_hasBits {s : State} (h : ¬ HasBits s 3) : headerStep s = .error .truncatedStream := by
  rw [headerStep]
  by_cases h1 : HasBits s 1
  · have h2 : ¬ HasBits (setBitpos (s.bitpos + 1) s) 2 := hasBits_setBitpos.not.2 (by omega)
    rw [readBits_eq h1, ok_bind, readBits_of_not_hasBits h2, error_bind]
  · rw [readBits_of_not_hasBits h1, error_bind]

/-- The header row with the BFINAL and the BTYPE read (30_encoding.md R101). -/
theorem exec_headerInstr {f : Bool} {t : Nat} {i : Instr} {s : State} (hb : HasBits s 3) (h : headerInstr f t = some i) :
    exec i s = finish s (enterBlock t (setBfinal f (setBitpos (s.bitpos + 3) s))) := by
  have ht : t < 4 := (List.getElem?_eq_some_iff.1 h).1
  interval_cases t <;> cases h
  · exact exec_of_header rfl hb
  · exact exec_of_header rfl hb
  · exact exec_of_header rfl hb
  · exact exec_of_header rfl hb

theorem step_eq_header {s : State} (hm : s.mode = .readBlockHeader) : step s = finish s (headerStep s) := by
  by_cases hb : HasBits s 3
  case neg => rw [step_of_truncated_header hm hb, headerStep_of_not_hasBits hb, finish]
  have h1 : HasBits s 1 := by omega
  have h2 : HasBits (setBitpos (s.bitpos + 1) s) 2 := hasBits_setBitpos.2 (by omega)
  have hf : bitsVal (sbit s) s.bitpos 1 < 2 := bitsVal_lt _ _ 1
  have ht : bitsVal (sbit s) (s.bitpos + 1) 2 < 4 := bitsVal_lt _ _ 2
  have hfield : field s s.bitpos 3 = bitsVal (sbit s) s.bitpos 1 + 2 * bitsVal (sbit s) (s.bitpos + 1) 2 :=
    bitsVal_add (sbit s) s.bitpos 1 2
  rw [headerStep, readBits_eq h1, ok_bind, readBits_eq h2, ok_bind, sbit_setBitpos, setBitpos_bitpos, setBitpos_setBitpos]
  generalize bitsVal (sbit s) s.bitpos 1 = f at hf hfield
  generalize bitsVal (sbit s) (s.bitpos + 1) 2 = t at ht hfield
  obtain ⟨i, hi⟩ := headerInstr_exists (decide (f = 1)) ht
  have hdec : decode .blkhdr Latches.idle (field s s.bitpos 3) = .ok i := by
    have hmod : (f + 2 * t) % 2 = f := by omega
    have hdiv : (f + 2 * t) / 2 = t := by omega
    rw [hfield, decode, hmod, hdiv, hi, orReject]
  rw [step_header hm hb hdec, exec_headerInstr hb hi]

/-- A step is the operation of its mode; its error is error entry from the state before it (R200, 60_exceptions.md R330). -/
theorem step_eq (s : State) : step s = finish s (stepAct s) := by
  cases hm : s.mode with
  | readBlockHeader => rw [stepAct, hm]; exact step_eq_header hm
  | stored =>
    rw [stepAct, hm]
    exact step_of_fetch_ok (by rw [fetch, hm])
  | fixedHuffman => rw [stepAct, hm]; exact step_eq_fixed hm
  | dynamicHuffman =>
    rw [stepAct, hm]
    cases hv : s.dynValid with
    | true => exact step_eq_dynamic hm hv
    | false =>
      have hfetch : fetch s = some (.ok .dynhdr) := by simp only [fetch, hm, hv, Bool.false_eq_true, if_false]
      exact step_of_fetch_ok hfetch
  | idle | done | error =>
    rw [stepAct, hm]
    exact step_of_halted (by rw [hm]; rfl)

end Sys2Proof.Machine

/-! Two runs side by side: states that agree in all that a run can see (20_memory.md R77, 10_state.md R41, 93 U6 and U7) stay so
under every step. -/

namespace Sys2Proof.Machine

/-! ### States a run cannot tell apart -/

/-- `OUT` is the same, or both are canonical and agree below `OUT_LEN`. -/
def SameOut (s t : State) : Prop :=
  t.outMem = s.outMem ∨
    (Memory.wf s.outMem = true ∧ Memory.wf t.outMem = true ∧ ∀ a, a < s.outLen → outRead t a = outRead s a)

/-- Equal but for what a run cannot see: `IN` from `IN_SIZE` on, `OUT` from `OUT_LEN` on, the dynamic tables outside a dynamic block
or before its header, and the counter of free values. -/
structure Alike (s t : State) : Prop where
  mode : t.mode = s.mode
  err : t.err = s.err
  bfinal : t.bfinal = s.bfinal
  bitpos : t.bitpos = s.bitpos
  inSize : t.inSize = s.inSize
  outLen : t.outLen = s.outLen
  fixedValid : t.fixedValid = s.fixedValid
  tblFixll : t.tblFixll = s.tblFixll
  cfg : t.cfg = s.cfg
  input : ∀ a, a < s.inSize → inRead t a = inRead s a
  output : SameOut s t
  tables : s.mode = .dynamicHuffman →
    t.dynValid = s.dynValid ∧ (s.dynValid = true → t.tblLl = s.tblLl ∧ t.tblDt = s.tblDt)

theorem SameOut.outRead_eq {s t : State} (h : SameOut s t) {a : Nat} (ha : a < s.outLen) : outRead t a = outRead s a := by
  rcases h with h | ⟨-, -, h⟩
  · rw [outRead, h, outRead]
  · exact h a ha

theorem Alike.setBitpos {s t : State} (h : Alike s t) (p : Nat) : Alike (setBitpos p s) (setBitpos p t) :=
  { h with bitpos := rfl }

/-- The fields inside the input are the same. -/
theorem Alike.field_eq {s t : State} (h : Alike s t) {p n : Nat} (hin : p + n ≤ 8 * s.inSize) : field t p n = field s p n :=
  bitsVal_congr fun k _ hk => by rw [sbit, h.input (k / 8) (by omega), sbit]

theorem Alike.exceedsCap_eq {s t : State} (h : Alike s t) (n : Nat) : exceedsCap t n = exceedsCap s n :=
  exceedsCap_congr n n h.cfg (by rw [h.outLen])

/-! ### Operations side by side -/

/-- Two operations raise the same error, or both answer, and `R` holds of their answers. -/
inductive SideBySide {α : Type} (R : α → α → Prop) : Except ErrCode α → Except ErrCode α → Prop where
  | ok {a b : α} : R a b → SideBySide R (.ok a) (.ok b)
  | error (e : ErrCode) : SideBySide R (.error e) (.error e)

theorem SideBySide.bind {α β : Type} {R : α → α → Prop} {S : β → β → Prop} {x y : Except ErrCode α}
    {f g : α → Except ErrCode β} (h : SideBySide R x y) (hf : ∀ a b, R a b → SideBySide S (f a) (g b)) :
    SideBySide S (x >>= f) (y >>= g) := by
  cases h with
  | ok h => exact hf _ _ h
  | error e => exact .error e

/-- The same operation on the same data. -/
theorem SideBySide.refl {α : Type} {R : α → α → Prop} (x : Except ErrCode α) (h : ∀ a, R a a) : SideBySide R x x := by
  cases x with
  | ok a => exact .ok (h a)
  | error e => exact .error e

/-- The same value, and states in the relation `R`. -/
def SameValue {α : Type} (R : State → State → Prop) (a b : α × State) : Prop := b.1 = a.1 ∧ R a.2 b.2

/-- Two operations that answer the same value go on with it. -/
theorem SideBySide.bindValue {α β : Type} {R : State → State → Prop} {S : β → β → Prop} {x y : Except ErrCode (α × State)}
    {f : α × State → Except ErrCode β} (h : SideBySide (SameValue R) x y)
    (hf : ∀ v u w, R u w → SideBySide S (f (v, u)) (f (v, w))) : SideBySide S (x >>= f) (y >>= f) :=
  h.bind fun ⟨v, u⟩ ⟨v', w⟩ ⟨hv, huw⟩ => by
    obtain rfl : v' = v := hv
    exact hf v' u w huw

/-- A relation of alike states that moving both cursors keeps. -/
structure CursorRel (R : State → State → Prop) : Prop where
  alike : ∀ {s t}, R s t → Alike s t
  move : ∀ {s t} (p : Nat), R s t → R (setBitpos p s) (setBitpos p t)

theorem alike_cursorRel : CursorRel Alike := ⟨id, fun p h => h.setBitpos p⟩

section
variable {R : State → State → Prop} (hR : CursorRel R) {s t : State} (h : R s t)
include hR h

theorem sideBySide_readBits {n : Nat} (width : n ≤ 16) :
    SideBySide (SameValue R) (readBits n s width) (readBits n t width) := by
  have ha := hR.alike h
  by_cases hb : HasBits s n
  · have hb' : HasBits t n := by rw [HasBits, ha.bitpos, ha.inSize]; exact hb
    rw [readBits_eq hb, readBits_eq hb', ha.bitpos]
    exact .ok ⟨ha.field_eq hb, hR.move _ h⟩
  · have hb' : ¬ HasBits t n := by rw [HasBits, ha.bitpos, ha.inSize]; exact hb
    rw [readBits_of_not_hasBits hb, readBits_of_not_hasBits hb']
    exact .error _

theorem sideBySide_consume (n : Nat) : SideBySide R (consume n s) (consume n t) := by
  have ha := hR.alike h
  by_cases hb : HasBits s n
  · have hb' : HasBits t n := by rw [HasBits, ha.bitpos, ha.inSize]; exact hb
    rw [consume_eq hb, consume_eq hb', ha.bitpos]
    exact .ok (hR.move _ h)
  · have hb' : ¬ HasBits t n := by rw [HasBits, ha.bitpos, ha.inSize]; exact hb
    rw [consume_of_not_hasBits hb, consume_of_not_hasBits hb']
    exact .error _

omit h in
theorem decodeSym_alike (T : DecodeTable) (h : R s t) : decodeSym T t = decodeSym T s := by
  have ha := hR.alike h
  rw [decodeSym_eq, decodeSym_eq, ha.bitpos, ha.inSize]
  split
  case isTrue hb => rw [show bitsVal (sbit t) s.bitpos 16 = bitsVal (sbit s) s.bitpos 16 from ha.field_eq hb]
  case isFalse => rfl

theorem sideBySide_clZeros {base n tot : Nat} (lens : List Nat) (width : n ≤ 16) :
    SideBySide (SameValue R) (clZeros base n tot lens s width) (clZeros base n tot lens t width) :=
  (sideBySide_readBits hR h width).bindValue fun _ _ _ huw =>
    (SideBySide.refl (R := Eq) _ fun _ => rfl).bind fun _ _ hl => hl ▸ .ok ⟨rfl, huw⟩

theorem sideBySide_clSymbol (sym tot : Nat) (lens : List Nat) :
    SideBySide (SameValue R) (clSymbol sym tot lens s) (clSymbol sym tot lens t) := by
  unfold clSymbol
  split_ifs
  · exact .ok ⟨rfl, h⟩
  · unfold clRepeat
    split
    · exact .error _
    · exact (sideBySide_readBits hR h (by decide)).bindValue fun _ _ _ huw =>
        (SideBySide.refl (R := Eq) _ fun _ => rfl).bind fun _ _ hl => hl ▸ .ok ⟨rfl, huw⟩
  · exact sideBySide_clZeros hR h lens _
  · exact sideBySide_clZeros hR h lens _

omit h in
theorem sideBySide_readClLengths (h : R s t) (order cl : List Nat) :
    SideBySide (SameValue R) (readClLengths order cl s) (readClLengths order cl t) := by
  induction order generalizing cl s t with
  | nil => exact .ok ⟨rfl, h⟩
  | cons sym order ih => exact (sideBySide_readBits hR h (by decide)).bindValue fun v _ _ huw => ih huw _

/-- The fields of a dynamic header are the same, and the states after them alike. -/
theorem sideBySide_readDynFields :
    SideBySide (fun a b => b.1 = a.1 ∧ b.2.1 = a.2.1 ∧ SameValue R a.2.2 b.2.2) (readDynFields s) (readDynFields t) :=
  (sideBySide_readBits hR h (by decide)).bindValue fun _ _ _ h1 =>
    (sideBySide_readBits hR h1 (by decide)).bindValue fun _ _ _ h2 =>
      (sideBySide_readBits hR h2 (by decide)).bindValue fun _ _ _ h3 =>
        (sideBySide_readClLengths hR h3 _ _).bindValue fun _ _ _ h4 => .ok ⟨rfl, rfl, rfl, h4⟩

/-- The loop of a dynamic header, once `TBL.CLT` is the same in both. -/
theorem sideBySide_clLoop (hclt : ∀ {u w}, R u w → w.tblClt = u.tblClt) (tot k : Nat) (lens : List Nat) :
    SideBySide (SameValue R) (clLoop tot k lens s) (clLoop tot k lens t) := by
  induction k generalizing lens s t with
  | zero => exact .ok ⟨rfl, h⟩
  | succ k ih =>
    rw [clLoop, clLoop]
    split
    · rw [hclt h, decodeSym_alike hR s.tblClt h]
      refine (SideBySide.refl (R := Eq) _ fun _ => rfl).bind fun d d' hd => ?_
      subst hd
      exact (sideBySide_consume hR h _).bind fun u w huw =>
        (sideBySide_clSymbol hR huw _ _ _).bindValue fun l _ _ huw' => ih huw' l
    · exact .ok ⟨rfl, h⟩

end

/-! ### The dynamic header -/

/-- Alike, and with the same `TBL.CLT`: how states stand inside a dynamic header. -/
def HeaderAlike (s t : State) : Prop := Alike s t ∧ t.tblClt = s.tblClt

theorem headerAlike_cursorRel : CursorRel HeaderAlike :=
  ⟨And.left, fun p h => ⟨h.1.setBitpos p, h.2⟩⟩

theorem Alike.setClt {s t : State} (h : Alike s t) (T : DecodeTable) : HeaderAlike (setClt T s) (setClt T t) :=
  ⟨{ h with }, rfl⟩

theorem Alike.setDynTables {s t : State} (h : Alike s t) (L D : DecodeTable) :
    Alike (setDynValid true (setDynTables L D s)) (setDynValid true (setDynTables L D t)) :=
  { h with tables := fun _ => ⟨rfl, fun _ => ⟨rfl, rfl⟩⟩ }

theorem sideBySide_finishLengths {s t : State} (h : HeaderAlike s t) (nl nd : Nat) (lens : List Nat) :
    SideBySide Alike (finishLengths nl nd lens s) (finishLengths nl nd lens t) :=
  (sideBySide_clLoop headerAlike_cursorRel h (fun h => h.2) _ _ lens).bindValue fun _ _ _ huw =>
    (SideBySide.refl (R := Eq) _ fun _ => rfl).bind fun L _ hL => hL ▸
      (SideBySide.refl (R := Eq) _ fun _ => rfl).bind fun D _ hD => hD ▸ .ok (huw.1.setDynTables L D)

theorem sideBySide_dynHeader {s t : State} (h : Alike s t) : SideBySide Alike (dynHeader s) (dynHeader t) := by
  refine (sideBySide_readDynFields alike_cursorRel h).bind fun ⟨nl, nd, cl, u⟩ ⟨nl', nd', cl', w⟩ ⟨h1, h2, h3, huw⟩ => ?_
  obtain rfl : nl' = nl := h1
  obtain rfl : nd' = nd := h2
  obtain rfl : cl' = cl := h3
  exact (SideBySide.refl (R := Eq) _ fun _ => rfl).bind fun T _ hT => hT ▸ sideBySide_finishLengths (huw.setClt T) _ _ _

/-! ### Appending -/

theorem Alike.appendByte {s t : State} (h : Alike s t) (b : Byte) : Alike (appendByte b s) (appendByte b t) := by
  refine { h with outLen := by rw [appendByte_outLen, appendByte_outLen, h.outLen], output := ?_ }
  rcases h.output with hmem | ⟨hs, ht, hread⟩
  · exact .inl (by rw [appendByte_outMem, appendByte_outMem, hmem, h.outLen])
  · refine .inr ⟨wf_memWrite _ _ hs, wf_memWrite _ _ ht, fun a ha => ?_⟩
    obtain hlt | rfl := Nat.lt_succ_iff_lt_or_eq.1 ha
    · rw [outRead_append_of_lt b (h.outLen.symm ▸ hlt), outRead_append_of_lt b hlt, hread a hlt]
    · rw [outRead_appendByte_same b hs, ← h.outLen, outRead_appendByte_same b ht]

/-- A copy reads only bytes below `OUT_LEN`: its distance is at least 1 (44_lz77_reconstructor.md R245). -/
theorem Alike.copyLoop {s t : State} {d : Nat} (n : Nat) (h : Alike s t) (hpos : 1 ≤ d) (hd : d ≤ s.outLen) :
    Alike (copyLoop d n s) (copyLoop d n t) := by
  induction n generalizing s t with
  | zero => exact h
  | succ n ih =>
    have hbyte : outRead t (t.outLen - d) = outRead s (s.outLen - d) := by
      rw [h.outLen]
      exact h.output.outRead_eq (by omega)
    rw [Machine.copyLoop, Machine.copyLoop, hbyte]
    exact ih (h.appendByte _) (Nat.le_succ_of_le hd)

theorem Alike.storedLoop {s t : State} {a n : Nat} (h : Alike s t) (hin : a + n ≤ s.inSize) :
    Alike (storedLoop a n s) (storedLoop a n t) := by
  induction n generalizing a s t with
  | zero => exact h
  | succ n ih =>
    rw [Machine.storedLoop, Machine.storedLoop, h.input a (by omega)]
    exact ih (h.appendByte _) (by rw [appendByte_inSize]; omega)

theorem Alike.setMode {s t : State} {m : Mode} (h : Alike s t) (hm : m ≠ .dynamicHuffman) : Alike (setMode m s) (setMode m t) :=
  { h with mode := rfl, tables := fun hd => absurd hd hm }

theorem Alike.blockEnd {s t : State} (h : Alike s t) : Alike (blockEnd s) (blockEnd t) := by
  rw [Machine.blockEnd, Machine.blockEnd, h.bfinal]
  exact h.setMode (by split <;> decide)

theorem Alike.setBfinal {s t : State} (h : Alike s t) (f : Bool) : Alike (setBfinal f s) (setBfinal f t) :=
  { h with bfinal := rfl }

/-! ### Symbols, bodies and headers -/

theorem sideBySide_copy {s t : State} (length : Nat) {distance : Nat} (h : Alike s t) (hpos : 1 ≤ distance) :
    SideBySide Alike (copy length distance s) (copy length distance t) := by
  rw [copy, copy, h.outLen, h.exceedsCap_eq]
  split_ifs with hd
  · exact .error _
  · exact .error _
  · exact .ok (h.copyLoop length hpos (Nat.le_of_not_lt hd))

theorem sideBySide_matchTail {s t : State} (length d : Nat) (h : Alike s t) :
    SideBySide Alike (matchTail length d s) (matchTail length d t) := by
  unfold matchTail
  split_ifs with hd
  · exact .error _
  · exact (sideBySide_readBits alike_cursorRel h _).bindValue fun x _ _ huw =>
      sideBySide_copy length huw (Nat.le_add_right_of_le (distBase_pos d (by omega)))

/-- Alike, in a block that takes symbols: how states stand inside a match. -/
def SymbolAlike (s t : State) : Prop := Alike s t ∧ InSymbols s

theorem symbolAlike_cursorRel : CursorRel SymbolAlike := ⟨And.left, fun p h => ⟨h.1.setBitpos p, h.2⟩⟩

/-- The distance code comes from `TBL.DT` only in a dynamic block whose tables are valid (R216). -/
theorem sideBySide_readDist {s t : State} (h : SymbolAlike s t) :
    SideBySide (SameValue SymbolAlike) (readDist s) (readDist t) := by
  obtain ⟨ha, hs⟩ := id h
  rw [readDist, readDist, ha.mode]
  split
  case isTrue => exact (sideBySide_readBits symbolAlike_cursorRel h (by decide)).bindValue fun _ _ _ huw => .ok ⟨rfl, huw⟩
  case isFalse hm =>
    obtain ⟨hdyn, hv⟩ := hs.resolve_left hm
    obtain ⟨-, htables⟩ := ha.tables hdyn
    obtain ⟨-, hdt⟩ := htables hv
    rw [readTableDist, readTableDist, hdt, decodeSym_alike symbolAlike_cursorRel s.tblDt h]
    refine (SideBySide.refl (R := Eq) _ fun _ => rfl).bind fun d d' hd => ?_
    subst hd
    exact (sideBySide_consume symbolAlike_cursorRel h _).bind fun _ _ huw => .ok ⟨rfl, huw⟩

theorem sideBySide_matchSym {s t : State} (h : SymbolAlike s t) (sym len : Nat) :
    SideBySide Alike (matchSym sym len s) (matchSym sym len t) :=
  (sideBySide_consume symbolAlike_cursorRel h len).bind fun _ _ h1 =>
    ((sideBySide_readBits symbolAlike_cursorRel h1 _).bindValue fun _ _ _ huw => .ok ⟨rfl, huw⟩ :
      SideBySide (SameValue SymbolAlike) (readLength sym _) (readLength sym _)).bindValue fun length _ _ h2 =>
        (sideBySide_readDist h2).bindValue fun d _ _ h3 => sideBySide_matchTail length d h3.1

theorem sideBySide_symbolAct {s t : State} (h : SymbolAlike s t) (sym len : Nat) :
    SideBySide Alike (symbolAct sym len s) (symbolAct sym len t) := by
  unfold symbolAct
  split_ifs
  · refine (sideBySide_consume alike_cursorRel h.1 len).bind fun u w huw => ?_
    rw [emit, emit, huw.exceedsCap_eq]
    split_ifs
    · exact .error _
    · exact .ok (huw.appendByte _)
  · exact (sideBySide_consume alike_cursorRel h.1 len).bind fun u w huw => .ok huw.blockEnd
  · exact sideBySide_matchSym h sym len
  · exact .error _

theorem sideBySide_symbolStep {s t : State} (h : SymbolAlike s t) (T : DecodeTable) :
    SideBySide Alike (symbolStep T s) (symbolStep T t) := by
  rw [symbolStep, symbolStep, decodeSym_alike symbolAlike_cursorRel T h]
  exact (SideBySide.refl (R := Eq) _ fun _ => rfl).bind fun d _ hd => hd ▸ sideBySide_symbolAct h d.1 d.2

theorem sideBySide_storedBody {s t : State} (h : Alike s t) : SideBySide Alike (storedBody s) (storedBody t) := by
  have halign : Alike (alignToByte s) (alignToByte t) := by
    rw [alignToByte, alignToByte, h.bitpos]
    exact h.setBitpos _
  refine (sideBySide_readBits alike_cursorRel halign _).bindValue fun n _ _ h1 =>
    (sideBySide_readBits alike_cursorRel h1 _).bindValue fun _ u w huw => ?_
  dsimp only
  rw [huw.bitpos, huw.inSize, huw.exceedsCap_eq]
  split_ifs with hin
  · exact .error _
  · exact .error _
  · exact .ok ((huw.storedLoop (Nat.le_of_not_lt hin)).setBitpos _)

theorem sideBySide_enterBlock {s t : State} (h : Alike s t) (btype : Nat) :
    SideBySide Alike (enterBlock btype s) (enterBlock btype t) := by
  unfold enterBlock
  split
  · exact .ok (h.setMode (by decide))
  · rw [enterFixed_eq, enterFixed_eq, h.fixedValid]
    refine .ok (Alike.setMode ?_ (by decide))
    split
    · exact h
    · exact { h with fixedValid := rfl, tblFixll := rfl }
  · rw [enterDynamic, enterDynamic, h.cfg]
    split
    · exact .ok { h with mode := rfl, tables := fun _ => ⟨rfl, fun hv => by cases hv⟩ }
    · exact .error _
  · exact .error _

theorem sideBySide_headerStep {s t : State} (h : Alike s t) : SideBySide Alike (headerStep s) (headerStep t) :=
  (sideBySide_readBits alike_cursorRel h (by decide)).bindValue fun _ _ _ h1 =>
    (sideBySide_readBits alike_cursorRel h1 (by decide)).bindValue fun btype _ _ h2 =>
      sideBySide_enterBlock (h2.setBfinal _) btype

/-! ### Steps and runs -/

theorem sideBySide_stepAct {s t : State} (h : Alike s t) : SideBySide Alike (stepAct s) (stepAct t) := by
  cases hm : s.mode with
  | readBlockHeader =>
    rw [stepAct, stepAct, h.mode, hm]
    exact sideBySide_headerStep h
  | stored =>
    rw [stepAct, stepAct, h.mode, hm]
    exact (sideBySide_storedBody h).bind fun u w huw => .ok huw.blockEnd
  | fixedHuffman =>
    rw [stepAct, stepAct, h.mode, hm, h.tblFixll]
    exact sideBySide_symbolStep ⟨h, .inl hm⟩ s.tblFixll
  | dynamicHuffman =>
    obtain ⟨hvalid, htables⟩ := h.tables hm
    rw [stepAct, stepAct, h.mode, hm]
    dsimp only
    rw [hvalid]
    split
    case isTrue hv =>
      rw [(htables hv).1]
      exact sideBySide_symbolStep ⟨h, .inr ⟨hm, hv⟩⟩ s.tblLl
    case isFalse => exact sideBySide_dynHeader h
  | idle | done | error =>
    rw [stepAct, stepAct, h.mode, hm]
    exact .ok h

/-- Error entry hides everything in which the states differ: no byte of `OUT` is left, and no table is in force (R330). -/
theorem Alike.raise {s t : State} (h : Alike s t) (e : ErrCode) : Alike (raise s e) (raise t e) :=
  { h with
    mode := rfl, err := rfl, outLen := rfl, tables := fun hm => by cases hm
    output := .inr ⟨wf_memOf _, wf_memOf _, fun a ha => absurd ha a.not_lt_zero⟩ }

theorem step_alike {s t u w : State} (h : Alike s t) (hs : step s = .next u) (ht : step t = .next w) : Alike u w := by
  rw [step_eq] at hs ht
  have hact := sideBySide_stepAct h
  generalize stepAct s = x at hs hact
  generalize stepAct t = y at ht hact
  cases hact with
  | ok huw =>
    cases hs
    cases ht
    exact huw
  | error e =>
    cases hs
    cases ht
    exact h.raise e

theorem runSteps_alike {s t : State} (n : Nat) (h : Alike s t) : Alike (runSteps n s) (runSteps n t) := by
  induction n generalizing s t with
  | zero => exact h
  | succ n ih =>
    obtain ⟨u, hs⟩ := step_next s
    obtain ⟨w, ht⟩ := step_next t
    rw [runSteps_succ n hs, runSteps_succ n ht]
    exact ih (step_alike h hs ht)

theorem memReadList_congr {m m' : Memory} {a n : Nat} (h : ∀ x, a ≤ x → x < a + n → memRead m' x = memRead m x) :
    memReadList m' a n = memReadList m a n := by
  induction n generalizing a with
  | zero => rfl
  | succ n ih =>
    rw [memReadList, memReadList, h a (Nat.le_refl a) (by omega), ih fun x hx hx' => h x (by omega) (by omega)]

/-- Alike states show the host the same (70_reset_and_hazards.md R362). -/
theorem Alike.observe_eq {s t : State} (h : Alike s t) : observe s = observe t := by
  have hout : memReadList t.outMem 0 s.outLen = memReadList s.outMem 0 s.outLen :=
    memReadList_congr fun x _ hx => h.output.outRead_eq (by omega)
  rw [observe, observe, h.mode, h.err, h.bfinal, h.bitpos, h.outLen, hout]

/-- Settles O57: every other byte of `IN` is never read. -/
theorem inputBeyondSizeUnseen : Obligations.InputBeyondSizeUnseen := by
  intro s s' n ⟨hread, heq⟩
  have h : Alike s s' := by
    rw [heq]
    exact ⟨rfl, rfl, rfl, rfl, rfl, rfl, rfl, rfl, rfl, fun a ha => (hread a ha).symm, .inl rfl,
      fun _ => ⟨rfl, fun _ => ⟨rfl, rfl⟩⟩⟩
  exact (runSteps_alike n h).observe_eq

/-- Settles O58: every other byte of `OUT` is written before it is read. -/
theorem deadOutputUnseen : Obligations.DeadOutputUnseen := by
  intro s s' n ⟨hread, heq⟩ hwf hwf'
  have h : Alike s s' := by
    rw [heq]
    exact ⟨rfl, rfl, rfl, rfl, rfl, rfl, rfl, rfl, rfl, fun _ _ => rfl,
      .inr ⟨hwf, hwf', fun a ha => (hread a ha).symm⟩, fun _ => ⟨rfl, fun _ => ⟨rfl, rfl⟩⟩⟩
  exact (runSteps_alike n h).observe_eq

/-- Settles O59: a dynamic block begins without valid tables, and its header builds them before it uses them. -/
theorem deadTablesUnseen : Obligations.DeadTablesUnseen := by
  intro s s' n heq hm
  have h : Alike s s' := by
    rw [heq]
    exact ⟨rfl, rfl, rfl, rfl, rfl, rfl, rfl, rfl, rfl, fun _ _ => rfl, .inl rfl, fun hd => absurd hd hm⟩
  exact (runSteps_alike n h).observe_eq

end Sys2Proof.Machine

/-! Bits and bytes of the stream (20_memory.md R73, R74), the read-only tables and their ranges (10_state.md R45 to R49), and the
results of `BUILD` and `DECODE` on any operand (41_huffman_table_builder.md R160, R167, 42_huffman_decoder.md R180 to R188). -/

namespace Sys2Proof.Machine

/-! ### Fields -/

/-- Settles O16: the field of `n + m` bits splits low part first. -/
theorem mixedWidthReads : Obligations.MixedWidthReads := by
  intro n m v s t width
  simp only [readBits_ok]
  constructor
  · rintro ⟨hb, rfl, rfl⟩
    refine ⟨_, bitsVal (sbit s) (s.bitpos + n) m, _, ⟨by omega, rfl, rfl⟩, ⟨?_, rfl, ?_⟩, ?_⟩
    · rw [setBitpos_bitpos, setBitpos_inSize]; omega
    · rw [setBitpos_setBitpos, setBitpos_bitpos, Nat.add_assoc]
    · rw [bitsVal_add, Nat.mul_comm]
  · rintro ⟨a, b, u, ⟨-, rfl, rfl⟩, ⟨hb, rfl, rfl⟩, rfl⟩
    rw [setBitpos_bitpos, setBitpos_inSize] at hb
    refine ⟨by omega, ?_, ?_⟩
    · rw [bitsVal_add, Nat.mul_comm, sbit_setBitpos, setBitpos_bitpos]
    · rw [setBitpos_setBitpos, setBitpos_bitpos, Nat.add_assoc]

/-- Eight bits from a byte boundary on are the byte (R70, R71). -/
theorem field_byte (s : State) (a : Nat) : field s (8 * a) 8 = (inRead s a).toNat := by
  refine Nat.eq_of_testBit_eq fun i => ?_
  rw [field, testBit_bitsVal, BitVec.testBit_toNat, sbit]
  by_cases hi : i < 8
  · have hdiv : (8 * a + i) / 8 = a := by omega
    have hmod : (8 * a + i) % 8 = i := by omega
    rw [hdiv, hmod, decide_eq_true hi, Bool.true_and]
  · rw [decide_eq_false hi, Bool.false_and, BitVec.getLsbD_of_ge _ _ (Nat.le_of_not_lt hi)]

/-- Settles O19: two bytes, the low one first. -/
theorem lenLittleEndian : Obligations.LenLittleEndian := fun s a => by
  have hsplit : field s (8 * a) 16 = field s (8 * a) 8 + 2 ^ 8 * field s (8 * (a + 1)) 8 := bitsVal_add (sbit s) (8 * a) 8 8
  rw [hsplit, field_byte, field_byte, show 2 ^ 8 = 256 from rfl]

/-- `s` with another memory `IN`. -/
def withInput (m : Memory) (s : State) : State := { s with inMem := m }

/-- The stored copy reads only its data (43_block_processor.md R203). -/
theorem storedLoop_withInput {s : State} {m : Memory} {a n : Nat} (h : ∀ x, a ≤ x → x < a + n → memRead m x = inRead s x) :
    storedLoop a n (withInput m s) = withInput m (storedLoop a n s) := by
  induction n generalizing a s with
  | zero => rfl
  | succ n ih =>
    have hbyte : inRead (withInput m s) a = inRead s a := h a (Nat.le_refl a) (by omega)
    rw [storedLoop, storedLoop, hbyte]
    exact ih (s := appendByte (inRead s a) s) fun x hx hx' => h x (by omega) (by omega)

theorem afterStored_withInput {s : State} {m : Memory} {a n : Nat} (h : ∀ x, a ≤ x → x < a + n → memRead m x = inRead s x) :
    afterStored (withInput m s) a n = withInput m (afterStored s a n) :=
  congrArg (fun u => blockEnd (setBitpos (8 * (a + n)) u)) (storedLoop_withInput (s := setBitpos (8 * a) s) h)

/-- Error entry keeps whatever `IN` holds (60_exceptions.md R330). -/
theorem finish_withInput {s t : State} {r : Except ErrCode State} (m : Memory) (h : finish s r = .next t) :
    finish (withInput m s) (r.map (withInput m)) = .next (withInput m t) := by
  cases r <;> cases h <;> rfl

/-- LEN comes from its two bytes (43_block_processor.md R203). -/
theorem storedLen_withInput {s : State} {m : Memory}
    (h : ∀ x, x = (s.bitpos + 7) / 8 ∨ x = (s.bitpos + 7) / 8 + 1 → memRead m x = inRead s x) :
    storedLen (withInput m s) = storedLen s := by
  rw [storedLen, storedLen, lenLittleEndian, lenLittleEndian]
  exact congrArg₂ (fun x y => x.toNat + 256 * y.toNat) (h _ (.inl rfl)) (h _ (.inr rfl))

/-- Settles O32: the replaced bytes are read neither for LEN nor by the copy. -/
theorem storedBodyIgnores : Obligations.StoredBodyIgnores := by
  intro s t m b n hagree h
  have hlen : storedLen (withInput m s) = storedLen s :=
    storedLen_withInput fun x hx => hagree x (hx.elim .inl fun hx => .inr (.inl hx))
  have hdone : afterStored (withInput m s) (storedData s) (storedLen s) =
      withInput m (afterStored s (storedData s) (storedLen s)) :=
    afterStored_withInput fun x hx hx' => hagree x (.inr (.inr ⟨hx, hx'⟩))
  have hdata : storedData (withInput m s) = storedData s := rfl
  have hcap (k : Nat) : exceedsCap (withInput m s) k = exceedsCap s k := rfl
  have hsize : (withInput m s).inSize = s.inSize := rfl
  rw [exec_storedBody] at h
  refine (exec_storedBody (withInput m s)).trans ?_
  rw [hlen, hdata, hdone, hcap, hsize]
  have hfinish := finish_withInput m h
  split_ifs at hfinish ⊢ <;> exact hfinish

/-! ### The read-only tables -/

theorem lenBase_succ : ∀ k < 27, lenBase (257 + k + 1) = lenBase (257 + k) + 2 ^ lenExtraBits (257 + k) := by decide

theorem distBase_succ : ∀ d < 29, distBase (d + 1) = distBase d + 2 ^ distExtraBits d := by decide

/-- A match length is in range (30_encoding.md R107). -/
theorem lengthAt_bounds (s : State) (p : Nat) {k : Nat} (hk : k < 29) :
    3 ≤ lengthAt s (257 + k) p ∧ lengthAt s (257 + k) p ≤ 258 := by
  have hbase : ∀ k < 29, 3 ≤ lenBase (257 + k) := by decide
  exact ⟨Nat.le_add_right_of_le (hbase k hk), matchLength_le _ _ (by omega) (by omega) (bitsVal_lt _ _ _)⟩

/-- A distance is in range (30_encoding.md R109). -/
theorem distanceAt_bounds (s : State) (p : Nat) {d : Nat} (hd : d < 30) : 1 ≤ distanceAt s d p ∧ distanceAt s d p ≤ 32768 := by
  have htop : ∀ d < 30, distBase d + 2 ^ distExtraBits d ≤ 32769 := by decide
  have hfield : field s p (distExtraBits d) < 2 ^ distExtraBits d := bitsVal_lt _ _ _
  have := htop d hd
  exact ⟨Nat.le_add_right_of_le (distBase_pos d hd), by rw [distanceAt]; omega⟩

/-- Settles O24: the shape of the tables by evaluation, the ranges by the bounds of a field. -/
theorem romTables : Obligations.RomTables :=
  ⟨rfl, rfl, fun s _ p hk => lengthAt_bounds s p hk, fun s _ p hd => distanceAt_bounds s p hd, lenBase_succ, distBase_succ,
    romFixedLengths_getD, rfl⟩

/-- Settles O25: each bucket by evaluation of the fixed code lengths. -/
theorem fixedTableContents : Obligations.FixedTableContents := by
  refine ⟨build_eq romFixedLengths_length romFixedLengths_lt, by decide +kernel, by decide +kernel, by decide +kernel,
    by decide +kernel, fixedTable_padded_le_seven 7 (by decide), fixedTable_padded_eight, fixedTable_padded_nine,
    fixedTable_last⟩

/-! ### `BUILD` and `DECODE` -/

/-- Settles O20: the operands are checked before anything is built. -/
theorem buildRejects : Obligations.BuildRejects := fun lens => by
  refine ⟨fun ⟨l, hl, h16⟩ => ?rejects, fun hn h16 => build_eq hn h16, ?operands⟩
  case rejects =>
    have hany : lens.any (fun l => decide (16 ≤ l)) = true := List.any_eq_true.2 ⟨l, hl, decide_eq_true h16⟩
    rw [build, if_pos (.inr hany)]
  case operands =>
    rw [buildInput, Bool.and_eq_true, decide_eq_true_eq, List.all_eq_true]
    exact and_congr_right fun _ => forall₂_congr fun _ _ => decide_eq_true_iff

/-- A table without symbols selects no length (R185). -/
theorem decodeWindow_of_last_zero {T : DecodeTable} {w : Nat} (h : T.last = 0) :
    decodeWindow T w = .error .corruptHuffmanCode := by
  obtain ⟨-, -, hcount⟩ := lastPopulated T
  unfold decodeWindow
  split
  case h_1 => rfl
  case h_2 len hsel =>
    obtain ⟨hpos, hlen⟩ := List.mem_range'_1.1 (List.mem_of_find?_eq_some hsel)
    rw [hcount len (by omega) (by omega)]
    exact if_neg fun hidx => absurd hidx.2 (Nat.not_lt_zero _)

/-- Settles O26: what `DECODE` answers is in the bucket of the length it answers. -/
theorem decodeStaysInTable : Obligations.DecodeStaysInTable := by
  intro T s w
  refine ⟨decodeSym_of_not_hasBits, decodeSym_of_hasBits, ?result, decodeWindow_of_last_zero⟩
  case result =>
    cases hw : decodeWindow T w with
    | error e => exact .inl (by rw [decodeWindow_error hw])
    | ok r =>
      obtain ⟨sym, len⟩ := r
      obtain ⟨hpos, h15⟩ := decodeWindow_len hw
      obtain ⟨x, hx, rfl⟩ := decodeWindow_mem hw
      exact .inr ⟨len, x, hpos, h15, hx, rfl⟩

/-- Settles O27: `fixedCode` is the chain of ranges. -/
theorem fixedCodeDecodes : Obligations.FixedCodeDecodes := fun _ hw => decodeWindow_fixedTable hw

/-! ### The errors of a literal -/

theorem literal_of_full {b : Byte} {len : Nat} {s : State} (hb : HasBits s len) (hcap : exceedsCap s 1 = true) :
    literal b len s = .error .outputCapacityExceeded := by
  rw [literal, consume_eq hb, ok_bind]
  exact emit_error.2 ⟨hcap, rfl⟩

theorem literal_of_not_hasBits {b : Byte} {len : Nat} {s : State} (hb : ¬ HasBits s len) :
    literal b len s = .error .truncatedStream := by
  rw [literal, consume_of_not_hasBits hb, error_bind]

/-- Settles O34: every literal row means a `literal` of its 8, 9 or `len` bits. -/
theorem literalErrors : Obligations.LiteralErrors := fun s _ _ _ _ _ =>
  have hfull {i : Instr} {byte : Byte} {n : Nat} (hcap : exceedsCap s 1 = true) (hb : HasBits s n)
      (hexec : exec i s = finish s (literal byte n s)) : Raises i s .outputCapacityExceeded :=
    raises_of_error hexec (literal_of_full hb hcap)
  have hshort {i : Instr} {byte : Byte} {n : Nat} (hb : ¬ HasBits s n) (hexec : exec i s = finish s (literal byte n s)) :
      Raises i s .truncatedStream :=
    raises_of_error hexec (literal_of_not_hasBits hb)
  ⟨fun hcap => ⟨fun h8 => ⟨hfull hcap h8 rfl, hfull hcap h8 rfl, hfull hcap h8 rfl⟩,
      fun h9 => ⟨hfull hcap h9 rfl, hfull hcap h9 rfl, hfull hcap h9 rfl⟩, fun hb => hfull hcap hb rfl⟩,
    fun h8 => ⟨hshort h8 rfl, hshort h8 rfl, hshort h8 rfl⟩, fun h9 => ⟨hshort h9 rfl, hshort h9 rfl, hshort h9 rfl⟩,
    fun hb => hshort hb rfl⟩

end Sys2Proof.Machine

/-! A match of the assembler (30_encoding.md R125) at the cursor of a fixed-Huffman block: its bits are the fields of a match, and
the step performs the copy (43_block_processor.md R209). -/

namespace Sys2Proof.Machine

/-! ### Bits at a place of the stream -/

/-- The stream bits from bit `p` on begin with `bits`. -/
def BitsAt (s : State) (p : Nat) (bits : List Bool) : Prop := ∀ k, k < bits.length → sbit s (p + k) = bits.getD k false

theorem streamHas_iff {s : State} {bits : List Bool} : StreamHas s bits ↔ BitsAt s s.bitpos bits := Iff.rfl

theorem BitsAt.left {s : State} {p : Nat} {a b : List Bool} (h : BitsAt s p (a ++ b)) : BitsAt s p a := fun k hk => by
  rw [h k (by rw [List.length_append]; omega), List.getD_append _ _ _ _ hk]

theorem BitsAt.right {s : State} {p : Nat} {a b : List Bool} (h : BitsAt s p (a ++ b)) : BitsAt s (p + a.length) b :=
  fun k hk => by
    rw [Nat.add_assoc, h (a.length + k) (by rw [List.length_append]; omega), List.getD_append_right _ _ _ _ (Nat.le_add_right _ _),
      Nat.add_sub_cancel_left]

@[simp] theorem lsbBits_length (n v : Nat) : (lsbBits n v).length = n := by simp [lsbBits]

@[simp] theorem msbBits_length (n v : Nat) : (msbBits n v).length = n := by simp [msbBits]

theorem lsbBits_getD {n i : Nat} (v : Nat) (hi : i < n) : (lsbBits n v).getD i false = v.testBit i := by
  simp [lsbBits, hi]

theorem msbBits_getD {n i : Nat} (v : Nat) (hi : i < n) : (msbBits n v).getD i false = v.testBit (n - 1 - i) := by
  simp [msbBits, hi]

theorem testBit_eq_false_of_ge {n v i : Nat} (hv : v < 2 ^ n) (hi : n ≤ i) : v.testBit i = false :=
  Nat.testBit_lt_two_pow (Nat.lt_of_lt_of_le hv (Nat.pow_le_pow_right (by decide) hi))

/-- A number written least significant bit first is the field there (20_memory.md R71). -/
theorem field_of_lsbBits {s : State} {p n v : Nat} (h : BitsAt s p (lsbBits n v)) (hv : v < 2 ^ n) : field s p n = v := by
  refine Nat.eq_of_testBit_eq fun i => ?_
  rw [field, testBit_bitsVal]
  by_cases hi : i < n
  · rw [decide_eq_true hi, Bool.true_and, h i (by rwa [lsbBits_length]), lsbBits_getD v hi]
  · rw [decide_eq_false hi, Bool.false_and, testBit_eq_false_of_ge hv (Nat.le_of_not_lt hi)]

/-- A number written most significant bit first is the reversed field (00_scope.md R16). -/
theorem rev_field_of_msbBits {s : State} {p n v : Nat} (h : BitsAt s p (msbBits n v)) (hv : v < 2 ^ n) :
    rev n (field s p n) = v := by
  refine Nat.eq_of_testBit_eq fun i => ?_
  by_cases hi : i < n
  · have hmirror : n - 1 - (n - 1 - i) = i := by omega
    have hlt : n - 1 - i < n := by omega
    rw [testBit_rev _ hi, field, testBit_bitsVal, decide_eq_true hlt, Bool.true_and, h _ (by rwa [msbBits_length]),
      msbBits_getD v hlt, hmirror]
  · rw [testBit_eq_false_of_ge (rev_lt n _) (Nat.le_of_not_lt hi), testBit_eq_false_of_ge hv (Nat.le_of_not_lt hi)]

theorem windowAt_lt (s : State) (p : Nat) : windowAt s p < 2 ^ 16 := rev_lt 16 _

/-- The top `n` bits of the window are the reversed field of `n` bits (42_huffman_decoder.md R182). -/
theorem unpad_windowAt (s : State) (p : Nat) {n : Nat} (hn : n ≤ 16) : unpad (windowAt s p) n = rev n (field s p n) := by
  refine Nat.eq_of_testBit_eq fun i => ?_
  rw [unpad, Nat.testBit_div_two_pow]
  by_cases hi : i < n
  · have hmirror : i + (16 - n) = 15 - (n - 1 - i) := by omega
    have hlt : n - 1 - i < n := by omega
    rw [hmirror, testBit_windowAt s p (by omega), testBit_rev _ hi, field, testBit_bitsVal, decide_eq_true hlt, Bool.true_and]
  · rw [testBit_eq_false_of_ge (rev_lt n _) (Nat.le_of_not_lt hi), testBit_eq_false_of_ge (windowAt_lt s p) (by omega)]

/-! ### The codes of a match -/

/-- The codes of the length symbols: 1 to 23 on 7 bits, 192 to 197 on 8 (30_encoding.md R104). -/
theorem symBits_length : ∀ k < 29,
    symBits fixedTable (257 + k) = if k < 23 then msbBits 7 (k + 1) else msbBits 8 (169 + k) := by decide +kernel

/-- The length symbol of a length, and that its extra bits reach the length (R107, R125). -/
theorem lengthSym_spec : ∀ L < 259, 3 ≤ L →
    257 ≤ lengthSym L ∧ lengthSym L < 286 ∧ lenBase (lengthSym L) ≤ L ∧
      L - lenBase (lengthSym L) < 2 ^ lenExtraBits (lengthSym L) := by decide +kernel

/-- In rows of rising base values those not above `x` come first. -/
theorem lt_length_filter_iff {rows : List (Nat × Nat)} (h : rows.Pairwise (fun a b => a.2 < b.2)) {x k : Nat}
    (hk : k < rows.length) : k < (rows.filter (fun e => decide (e.2 ≤ x))).length ↔ rows[k].2 ≤ x := by
  induction rows generalizing k with
  | nil => exact absurd hk k.not_lt_zero
  | cons e rows ih =>
    obtain ⟨he, hrows⟩ := List.pairwise_cons.1 h
    by_cases hx : e.2 ≤ x
    · rw [List.filter_cons, if_pos (decide_eq_true hx), List.length_cons]
      cases k with
      | zero => exact ⟨fun _ => hx, fun _ => Nat.succ_pos _⟩
      | succ k => exact Nat.succ_lt_succ_iff.trans (ih hrows (Nat.lt_of_succ_lt_succ hk))
    · have habove : ∀ b ∈ e :: rows, ¬ b.2 ≤ x := by
        rintro b (_ | ⟨_, hb⟩)
        · exact hx
        · exact Nat.not_le.2 (Nat.lt_trans (Nat.lt_of_not_le hx) (he b hb))
      have hnone : (e :: rows).filter (fun e => decide (e.2 ≤ x)) = [] :=
        List.filter_eq_nil_iff.2 fun b hb => by simpa using habove b hb
      rw [hnone]
      exact ⟨fun hlt => absurd hlt k.not_lt_zero, fun hle => absurd hle (habove _ (List.getElem_mem hk))⟩

theorem romDistExtra_ascending : romDistExtra.Pairwise (fun a b => a.2 < b.2) := by decide

theorem lt_distance_filter_iff {D d : Nat} (hd : d < 30) :
    d < (romDistExtra.filter (fun e => decide (e.2 ≤ D))).length ↔ distBase d ≤ D := by
  have hlt : d < romDistExtra.length := hd
  rw [lt_length_filter_iff romDistExtra_ascending hlt, distBase, List.getD_eq_getElem _ _ hlt]

/-- The distance code of a distance, and that its extra bits reach the distance (R109, R125). -/
theorem distanceCode_spec {D : Nat} (hlo : 1 ≤ D) (hhi : D ≤ 32768) :
    distanceCode D < 30 ∧ distBase (distanceCode D) ≤ D ∧ D - distBase (distanceCode D) < 2 ^ distExtraBits (distanceCode D) := by
  have hmax : (romDistExtra.filter (fun e => decide (e.2 ≤ D))).length ≤ 30 := List.length_filter_le _ _
  have hpos : 0 < (romDistExtra.filter (fun e => decide (e.2 ≤ D))).length := (lt_distance_filter_iff (by decide)).2 hlo
  have hcode : distanceCode D + 1 = (romDistExtra.filter (fun e => decide (e.2 ≤ D))).length := Nat.sub_add_cancel hpos
  have hd : distanceCode D < 30 := by omega
  have hbase : distBase (distanceCode D) ≤ D := (lt_distance_filter_iff hd).1 (by omega)
  refine ⟨hd, hbase, ?_⟩
  have hnext : D < distBase (distanceCode D) + 2 ^ distExtraBits (distanceCode D) := by
    obtain hlast | hlt := Nat.lt_succ_iff_lt_or_eq.1 hd |>.symm
    · rw [hlast]
      exact Nat.lt_succ_of_le hhi
    · rw [← distBase_succ _ hlt]
      exact Nat.lt_of_not_le fun hle => absurd ((lt_distance_filter_iff (Nat.succ_lt_succ hlt)).2 hle) (by omega)
  omega

/-! ### The match -/

/-- The window at the code of length symbol `257 + k` decodes to it (R104). -/
theorem fixedCode_of_lengthCode {s : State} {p k : Nat} (hk : k < 29) (h : BitsAt s p (symBits fixedTable (257 + k))) :
    fixedCode (windowAt s p) = (257 + k, if k < 23 then 7 else 8) := by
  rw [symBits_length k hk] at h
  by_cases h7 : k < 23
  · rw [if_pos h7] at h ⊢
    have hcode := (unpad_windowAt s p (by decide)).trans (rev_field_of_msbBits h (by omega))
    simp only [unpad] at hcode
    rw [fixedCode, if_pos (by omega), Prod.mk.injEq]
    omega
  · rw [if_neg h7] at h ⊢
    have hcode := (unpad_windowAt s p (by decide)).trans (rev_field_of_msbBits h (by omega))
    simp only [unpad] at hcode
    rw [fixedCode, if_neg (by omega), if_neg (by omega), if_pos (by omega), Prod.mk.injEq]
    omega

/-- In a fixed-Huffman block the step at such a code executes the row of the symbol (R204). -/
theorem step_of_lengthCode {s : State} {k : Nat} {row : Instr} (hm : s.mode = .fixedHuffman) (hT : s.tblFixll = fixedTable)
    (hb : HasBits s 16) (hk : k < 29) (hrow : lengthFixRows[k]? = some row)
    (h : BitsAt s s.bitpos (symBits fixedTable (257 + k))) : step s = exec row s := by
  have hdec : decodeSym s.tblFixll s = .ok (257 + k, if k < 23 then 7 else 8) := by
    rw [decodeSym_of_hasBits hb, hT, decodeWindow_fixedTable (windowAt_lt _ _), fixedCode_of_lengthCode hk h]
  rw [step_eq_fixed hm, symbolStep, hdec, ok_bind, symbolAct_match s (by omega) (by omega), matchSym_of_fixed hm,
    lengthFixRows_exec k row s hk hrow]

/-- A row of the fixed code copies what its fields say, each named by its value. -/
theorem yields_of_fields {k L d D p1 p2 : Nat} {row : Instr} {s : State} (hk : k < 29) (hrow : lengthFixRows[k]? = some row)
    (hmem : MemoryInv s) (hp1 : p1 = s.bitpos + if k < 23 then 7 else 8) (hp2 : p2 = p1 + lenExtraBits (257 + k))
    (hL : lengthAt s (257 + k) p1 = L) (hcode : rev 5 (field s p2 5) = d) (hD : distanceAt s d (p2 + 5) = D) (hd : d < 30)
    (hin : p2 + 5 + distExtraBits d ≤ 8 * s.inSize) (hout : D ≤ s.outLen) (hroom : HasRoom s L) :
    Yields row s (p2 + 5 + distExtraBits d - s.bitpos) (copyBytes s L D) := by
  have hexec := lengthFixRows_exec k row s hk hrow
  rw [matchFixed_eq (p2 := p2) (by rw [hp2, hp1]), if_neg (by omega), ← hp1, hL, hcode] at hexec
  rw [← hD]
  exact yields_of_matchTail hexec (by omega) hmem hd hin (hD ▸ hout) hroom

/-- The bits of a match with the fixed tables (30_encoding.md R125). -/
theorem elementBits_copy (L D : Nat) :
    elementBits fixedTable none 0 (.copy L D) =
      symBits fixedTable (lengthSym L) ++ lsbBits (lenExtraBits (lengthSym L)) (L - lenBase (lengthSym L)) ++
        msbBits 5 (distanceCode D) ++ lsbBits (distExtraBits (distanceCode D)) (D - distBase (distanceCode D)) := rfl

theorem symBits_length_length {k : Nat} (hk : k < 29) :
    (symBits fixedTable (257 + k)).length = if k < 23 then 7 else 8 := by
  rw [symBits_length k hk]
  split <;> rw [msbBits_length]

/-- Settles O60: the fields of the match are the numbers the assembler wrote, so the row's copy is the one of `L` and `D`. -/
theorem assembledMatchCopies : Obligations.AssembledMatchCopies := by
  intro L D s hL hL' hD hD' hm hT hmem hb bits hstream hbits hout hroom
  obtain ⟨hlo, hhi, hbase, hextra⟩ := lengthSym_spec L (by omega) hL
  obtain ⟨hd, hdbase, hdextra⟩ := distanceCode_spec hD hD'
  have hcopy : bits = _ := elementBits_copy L D
  obtain ⟨k, hsym⟩ := Nat.exists_eq_add_of_le hlo
  rw [hsym] at hbase hextra hhi hcopy
  generalize distanceCode D = d at hd hdbase hdextra hcopy
  have hk : k < 29 := by omega
  obtain ⟨row, hrow⟩ : ∃ row, lengthFixRows[k]? = some row :=
    ⟨_, List.getElem?_eq_getElem (show k < lengthFixRows.length from Nat.lt_of_lt_of_le hk (by decide))⟩
  have hlen : bits.length = (if k < 23 then 7 else 8) + lenExtraBits (257 + k) + 5 + distExtraBits d := by
    rw [hcopy]
    simp only [List.length_append, symBits_length_length hk, lsbBits_length, msbBits_length]
  have hat := streamHas_iff.1 hstream
  rw [hcopy] at hat
  have hlength := field_of_lsbBits hat.left.left.right hextra
  have hcode := rev_field_of_msbBits hat.left.right (show d < 2 ^ 5 by omega)
  have hdistance := field_of_lsbBits hat.right hdextra
  simp only [List.length_append, symBits_length_length hk, lsbBits_length, msbBits_length, ← Nat.add_assoc]
    at hlength hcode hdistance
  have hyields := yields_of_fields hk hrow hmem rfl rfl (L := L) (D := D) (by rw [lengthAt, hlength]; omega) hcode
    (by rw [distanceAt, hdistance]; omega) hd (by omega) hout hroom
  obtain ⟨t, hexec, hframe, happend⟩ := hyields
  refine ⟨t, (step_of_lengthCode hm hT hb hk hrow hat.left.left.left).trans hexec, ?frame, happend⟩
  case frame =>
    have hend : s.bitpos + (s.bitpos + (if k < 23 then 7 else 8) + lenExtraBits (257 + k) + 5 + distExtraBits d - s.bitpos) =
        s.bitpos + bits.length := by omega
    rw [hend, copyBytes_length] at hframe
    exact hframe

end Sys2Proof.Machine

/-! ## The host port and the container (10_state.md section 5, 46_host_gzip_container.md) -/

namespace Sys2Proof.Machine

theorem outHas_eq_false_iff {c : Config} {a : Nat} : outHas c a = false ↔ ∃ cap, c.outCap = some cap ∧ cap ≤ a := by
  unfold outHas
  cases c.outCap with
  | none => simp
  | some cap => simp

theorem memReadList_getElem? {m : Memory} {a i n : Nat} (h : i < n) : (memReadList m a n)[i]? = some (memRead m (a + i)) := by
  induction n generalizing a i with
  | zero => exact absurd h (Nat.not_lt_zero i)
  | succ n ih =>
    cases i with
    | zero => rfl
    | succ i => rw [memReadList, List.getElem?_cons_succ, ih (Nat.lt_of_succ_lt_succ h), Nat.add_right_comm, Nat.add_assoc]

theorem observe_out_getElem? {s : State} {a : Nat} (hdone : s.mode = .done) (h : a < s.outLen) :
    (observe s).out[a]? = some (outRead s a) := by
  rw [observe, if_pos hdone, memReadList_getElem? h, Nat.zero_add]
  rfl

/-- The host's write of a byte of `IN` below `IN_MAX` (R40). -/
theorem hostWriteIn_of_lt {s : State} {a : Nat} {b : Byte} (hr : s.mode.running = false) (h : a < s.cfg.inMax) :
    hostWriteIn a b s = .next { s with inMem := memWrite s.inMem a b } := by
  simp [hostWriteIn, hr, h]

/-- Settles O5: the case of each move, and one memory rule for the byte written and one for the bytes observed. -/
theorem hostPortMap : Obligations.HostPortMap := by
  intro s v a b
  refine ⟨rfl, fun hr => ⟨fun hmax hwidth => ?inSize, fun hwidth => ?startBitpos, fun ha => ?inByte⟩, fun hr => ?running,
    fun hr ha => ?outByte, fun hr ha => ?outFault, outHas_eq_false_iff⟩
  case inSize => simp [hostWriteReg, hr, inSizeOk, hmax, hwidth]
  case startBitpos => simp [hostWriteReg, hr, hwidth]
  case inByte =>
    exact ⟨_, hostWriteIn_of_lt hr ha, rfl, memRead_write_same a b, fun x hx => memRead_write_other _ _ _ _ hx⟩
  case running => simp [hostWriteReg, hostWriteIn, hostReadOut, hr]
  case outByte => exact ⟨by simp [hostReadOut, hr, ha], observe_out_getElem?⟩
  case outFault => simp [hostReadOut, hr, ha]

/-- The first three bytes of a file are the magic and the method (R290), read as the parser reads them. -/
theorem take_three_eq_iff {F : List Byte} (h : 3 ≤ F.length) (a b c : Byte) :
    F.take 3 = [a, b, c] ↔ fileByte F 0 = a ∧ fileByte F 1 = b ∧ fileByte F 2 = c := by
  match F, h with
  | x :: y :: z :: rest, _ => simp [fileByte]

/-- Flags 1 to 4 of a header are clear when their bits of the flags byte are (R293). -/
theorem fileFlag_eq_false {F : List Byte} (h : F.getD 3 0 &&& 0x1e = 0) {i : Nat} (hi : (0x1e : Byte).getLsbD i = true) :
    fileFlag F i = false := by
  have hbit : (F.getD 3 0 &&& 0x1e).getLsbD i = false := by
    rw [h]
    exact BitVec.getLsbD_zero
  rwa [BitVec.getLsbD_and, hi, Bool.and_true] at hbit

/-- A header whose optional fields are all absent is ten bytes long (R290, R292). -/
theorem gzipParse_of_no_flags {F : List Byte}
    (hmagic : ¬(F.length < 3 ∨ fileByte F 0 ≠ 0x1f ∨ fileByte F 1 ≠ 0x8b ∨ fileByte F 2 ≠ 0x08)) (hlen : 18 ≤ F.length)
    (h1 : fileFlag F 1 = false) (h2 : fileFlag F 2 = false) (h3 : fileFlag F 3 = false) (h4 : fileFlag F 4 = false) :
    gzipParse F = .ok ⟨none, none, 10, fileLe F (F.length - 8) 4, fileLe F (F.length - 4) 4⟩ := by
  have hskip : skipExtra F (F.length - 8) 10 = .ok 10 := by simp [skipExtra, h2]
  have hname : readZString F 3 (F.length - 8) 10 = .ok (none, 10) := by simp [readZString, h3]
  have hcomment : readZString F 4 (F.length - 8) 10 = .ok (none, 10) := by simp [readZString, h4]
  have hcrc : skipHcrc F (F.length - 8) 10 = .ok 10 := by simp [skipHcrc, h1]
  rw [gzipParse, if_neg hmagic, if_neg (Nat.not_lt.2 hlen)]
  simp only [hskip, hname, hcomment, hcrc, ok_bind]
  rfl

/-- Settles O7: the guards of the parser in their order. -/
theorem gzipHeaderChecks : Obligations.GzipHeaderChecks := by
  intro F
  have hmagic (h : F.take 3 = [0x1f, 0x8b, 0x08]) :
      ¬(F.length < 3 ∨ fileByte F 0 ≠ 0x1f ∨ fileByte F 1 ≠ 0x8b ∨ fileByte F 2 ≠ 0x08) := by
    have hlen : 3 ≤ F.length := by
      have := congrArg List.length h
      simp at this
      omega
    obtain ⟨h0, h1, h2⟩ := (take_three_eq_iff hlen _ _ _).1 h
    simp [h0, h1, h2, hlen]
  refine ⟨fun h => ?notMagic, fun h hlen => ?short, fun h hlen hflags => ?noFields⟩
  case notMagic =>
    rw [gzipParse, if_pos]
    by_cases hlen : F.length < 3
    · exact .inl hlen
    · have hne := (take_three_eq_iff (Nat.le_of_not_lt hlen) _ _ _).not.1 (h.resolve_left hlen)
      exact .inr (by tauto)
  case short => rw [gzipParse, if_neg (hmagic h), if_pos hlen]
  case noFields =>
    exact gzipParse_of_no_flags (hmagic h) hlen (fileFlag_eq_false hflags (by decide)) (fileFlag_eq_false hflags (by decide))
      (fileFlag_eq_false hflags (by decide)) (fileFlag_eq_false hflags (by decide))

end Sys2Proof.Machine
